-- ==== Sys2Proof/Word.lean ====
section
/-! DEFINITION. The register widths of the tri2s CORE (spec/00_scope.md R15, R16, R17; spec/10_state.md R20). -/

namespace Sys2Proof

/-- An 8-bit register, a byte of the host command port or of song memory (R16, R100, R101). -/
abbrev Byte := BitVec 8

/-- A 16-bit register: song addresses, the remaining-duration counter, the breakpoints (R15). -/
abbrev Word := BitVec 16

/-- A FixedPoint8_8 register: bits 15..8 are the integer part, bits 7..0 the fraction (R17). -/
abbrev Fixed := BitVec 16

/-- A button mask: bit i is button i, A = 0, B = 1, C = 2, D = 3 (R58). -/
abbrev Mask := BitVec 4

/-- A colour: bit 0 is the red plane, bit 1 the green plane (R53, R297). -/
abbrev Colour := BitVec 2

/-- A coordinate operand: a byte that the drawing commands read as two's complement (R103, R296). -/
abbrev Coord := BitVec 8

end Sys2Proof
end

