-- ==== Sys2Proof/Config.lean ====
section
/-! DEFINITION. The configuration record CFG of spec/00_scope.md R13 and R14, the one configuration the reset state
carries, and the free value of spec/46_host_commands.md R294. -/

namespace Sys2Proof

/-- The four envelope control bytes A, D, S, R (R50). -/
structure EnvBytes where
  a : Byte
  d : Byte
  s : Byte
  r : Byte
  deriving DecidableEq, Repr

/-- The constraint on an envelope: A+D+R < 256, D < 64, S < 64 (R14, R50). -/
def EnvBytes.legal (e : EnvBytes) : Bool :=
  decide (e.a.toNat + e.d.toNat + e.r.toNat < 256) && decide (e.d.toNat < 64) && decide (e.s.toNat < 64)

/-- The fields of CFG (R13, R14), without their constraints.
`TICK_HZ` is left out: it is informative and no rule reads it (R15). -/
structure ConfigData where
  /-- The three wavetables of 32 samples: 0 sawtooth, 1 sine, 2 square (R12, R13, R51). -/
  wave              : Vector (Vector Byte 32) 3
  /-- The phase delta of each of the 37 note identifiers (R13, R115). -/
  noteTable         : Vector Fixed 37
  /-- The tick count of each of the 48 duration identifiers (R13, R115). -/
  durTable          : Vector Word 48
  /-- The note byte of the end sentinel (R13). -/
  noteEnd           : Byte
  /-- The note byte of the rest (R13). -/
  noteRest          : Byte
  /-- The envelope after reset and after initAudio (R14). -/
  envReset          : EnvBytes
  /-- The wavetable selected after reset: the 2-bit field's legal values 0..2 (R14). -/
  wselReset         : Fin 3
  /-- The drawing colour after reset (R14). -/
  colorReset        : Colour
  /-- The swap interval after reset and after initSwapBuffers (R14). -/
  swapIntervalReset : Byte
  deriving DecidableEq, Repr

/-- The constraints of R13 and R14: samples at most 49, deltas 0x0100..0x01FF, durations at least 1, the two sentinel
bytes different, a legal reset envelope, a swap interval of at least 1. -/
def ConfigData.legal (c : ConfigData) : Bool :=
  c.wave.toList.all (fun t => t.toList.all fun v => decide (v.toNat ≤ 49))
    && c.noteTable.toList.all (fun v => decide (0x0100 ≤ v.toNat) && decide (v.toNat ≤ 0x01FF))
    && c.durTable.toList.all (fun v => decide (1 ≤ v.toNat))
    && decide (c.noteEnd ≠ c.noteRest)
    && c.envReset.legal
    && decide (1 ≤ c.swapIntervalReset.toNat)

/-- CFG: a configuration together with the proof that it meets its constraints, so that "a configuration that breaks
one is refused" (R13): it cannot be written down. Assumption log 1. -/
structure Config extends ConfigData where
  isLegal : toConfigData.legal = true
  deriving DecidableEq, Repr

/-- FREE: the contents of the three wavetables (R13: the source prints none of them). Each sample is 0..49. -/
opaque Config.chipWave : Fin 3 → Fin 32 → Fin 50

/-- FREE: the fraction of each note identifier's phase delta; the integer part is always 1 (R13). -/
opaque Config.chipDelta : Fin 37 → BitVec 8

/-- FREE: one less than each duration identifier's tick count, so that every count 1..65535 is reachable (R13). -/
opaque Config.chipDuration : Fin 48 → Fin 65535

/-- FREE: four bytes from which the reset envelope is taken (R14 gives it no default). -/
opaque Config.chipEnvelope : BitVec 8 × BitVec 8 × BitVec 8 × BitVec 8

/-- FREE: the colour `readPixel` replies for a coordinate outside the grid, one for each use (R294 `any(2)`, R18). -/
opaque Config.freePixel : Nat → Colour

/-- The reset envelope of `Config.chip`: the free bytes where they are legal, all zero where they are not, so that it
ranges over exactly the legal envelopes. -/
def Config.chipEnvReset : EnvBytes :=
  let raw : EnvBytes :=
    ⟨Config.chipEnvelope.1, Config.chipEnvelope.2.1, Config.chipEnvelope.2.2.1, Config.chipEnvelope.2.2.2⟩
  if raw.legal = true then raw else ⟨0, 0, 0, 0⟩

/-- The configuration the reset state carries: free tables and a free reset envelope (R13, R14: no values given), and
the defaults that R13 and R14 print for the rest. Assumption log 1. -/
def Config.chipData : ConfigData where
  wave := Vector.ofFn fun w => Vector.ofFn fun i => BitVec.ofNat 8 (Config.chipWave w i).val
  noteTable := Vector.ofFn fun n => BitVec.ofNat 16 (0x0100 + (Config.chipDelta n).toNat)
  durTable := Vector.ofFn fun d => BitVec.ofNat 16 ((Config.chipDuration d).val + 1)
  noteEnd := 0xFF
  noteRest := 0x00
  envReset := Config.chipEnvReset
  wselReset := 0
  colorReset := 0
  swapIntervalReset := 1

/-- Whatever the free tables hold, they meet the constraints of R13 and R14. -/
theorem Config.chipData_legal : Config.chipData.legal = true := by
  have env : Config.chipEnvReset.legal = true := by
    unfold Config.chipEnvReset
    dsimp only
    split
    · assumption
    · decide
  simp only [ConfigData.legal, Config.chipData, env, Bool.and_eq_true, List.all_eq_true, Vector.mem_toList_iff,
    Vector.mem_ofFn, decide_eq_true_eq, forall_exists_index]
  refine ⟨⟨⟨⟨⟨?_, ?_⟩, ?_⟩, by decide⟩, trivial⟩, by decide⟩
  · rintro t w rfl v hv
    obtain ⟨i, rfl⟩ := Vector.mem_ofFn.mp hv
    have := (Config.chipWave w i).isLt
    simp; omega
  · rintro v n rfl
    have := (Config.chipDelta n).isLt
    simp; omega
  · rintro v d rfl
    have := (Config.chipDuration d).isLt
    simp; omega

/-- The configuration of `State.reset`. -/
def Config.chip : Config := ⟨Config.chipData, Config.chipData_legal⟩

end Sys2Proof
end

