-- ==== Sys2Proof/Machine/Operands.lean ====
section
/-! DEFINITION. Operand and reply assembly (spec/30_encoding.md R103), the 8.8 format (spec/00_scope.md R17), and the
audio datapath's arithmetic (spec/41_dds_audio.md R167 to R171). Functions of values only; nothing here reads State. -/

namespace Sys2Proof.Machine

/-! ### Operand bytes (R103) -/

/-- `c` as an operand: bits 1..0 of the byte (R103, R290). -/
def colourOperand (b : Byte) : Colour := b.truncate 2

/-- `mask`: bits 3..0 of the byte (R103, R278, R279). -/
def maskOperand (b : Byte) : Mask := b.truncate 4

/-- `flag`: 1 if the byte is not zero (R103, R227). -/
def flagOperand (b : Byte) : Bool := decide (b ≠ 0)

/-- `seq`: the low byte comes first (R103, R71). -/
def seqOperand (lo hi : Byte) : Word := hi ++ lo

/-- `sext_8`: the byte as two's complement, -128..127 (R18, R103). -/
def sext8 (b : Coord) : Int := b.toInt

/-! ### Reply bytes (R103) -/

/-- `c` as a reply: the colour in bits 1..0, the rest 0 (R103, R291). -/
def colourReply (c : Colour) : Byte := c.setWidth 8

/-- `b`: 0x01 or 0x00 (R103, R320). -/
def boolReply (b : Bool) : Byte := if b then 0x01 else 0x00

/-- `b0` and `b1`: the first mask in bits 7..4, the second in bits 3..0 (R103, R277). -/
def masksReply (hi lo : Mask) : Byte := hi ++ lo

/-! ### FixedPoint8_8 (R17) -/

/-- `X.i`: bits 15..8. -/
def intPart (x : Fixed) : Byte := x.extractLsb' 8 8

/-- `X.f`: bits 7..0. -/
def fracPart (x : Fixed) : Byte := x.extractLsb' 0 8

/-- `round8_8`: round half up, 0..256 (R17, R200). -/
def round8_8 (x : Fixed) : Nat := (intPart x).toNat + if 128 ≤ (fracPart x).toNat then 1 else 0

/-! ### The phase accumulator (R167) -/

/-- `phase_advance`: the fractions add with a carry into the integer parts, whose sum wraps modulo 32 (R167). -/
def phaseAdvance (p d : Fixed) : Fixed :=
  let fs := (fracPart p).toNat + (fracPart d).toNat
  let carry := if 256 ≤ fs then 1 else 0
  let f := fs % 256
  let i := ((intPart p).toNat + (intPart d).toNat + carry) % 32
  BitVec.ofNat 8 i ++ BitVec.ofNat 8 f

/-! ### Interpolation and level (R168 to R171) -/

/-- The exact interpolation in units of 1/256, before the clamp (R168). -/
def interpExact (s0 s1 f : Byte) : Int :=
  (s0.toNat : Int) * 256 + ((s1.toNat : Int) - (s0.toNat : Int)) * (f.toNat : Int)

/-- The interpolated sample: clamped at 0 (R169), rounded half up (R170). -/
def interpolate (s0 s1 f : Byte) : Nat :=
  let t := interpExact s0 s1 f
  let t := if t < 0 then 0 else t
  (t / 256).toNat + if 128 ≤ t % 256 then 1 else 0

/-- The level: the product divided by 64, truncated to 8 bits (R171). -/
def levelProduct (interp e : Nat) : Byte := BitVec.ofNat 8 (interp * e / 64)

/-! ### The envelope (R205) -/

/-- The test setEnvelope applies to its operands: it accepts (a, d, r) exactly when this holds (R205). -/
def envelopePasses (a d r : Byte) : Bool :=
  decide (a.toNat + d.toNat + r.toNat < 256) && decide (d.toNat < 64)

/-! ### Buttons (R270, R275) -/

/-- The rising-edge mask: pressed now and not pressed at the previous sample (R270, R272). -/
def risingEdges (previous now : Mask) : Mask := ~~~previous &&& now

/-- The first button, in the priority A > B > C > D, that is pressed and not held (R275). -/
def freshButton (held level : Mask) : Option (Fin 4) :=
  if !held.getLsbD 0 && level.getLsbD 0 then some 0
  else if !held.getLsbD 1 && level.getLsbD 1 then some 1
  else if !held.getLsbD 2 && level.getLsbD 2 then some 2
  else if !held.getLsbD 3 && level.getLsbD 3 then some 3
  else none

/-- The mask with bit i alone. -/
def buttonBit (i : Fin 4) : Mask := 1#4 <<< i.val

/-! ### The display (R250, R253, R293, R296) -/

/-- The column enable mask with driver p alone (R251). -/
def columnBit (p : Fin 10) : BitVec 10 := 1#10 <<< p.val

/-- The row pattern sent to the port: bit 7 is also asserted when bit 0 is set (R253). -/
def rowPattern (r : Byte) : Byte := r ||| if r.getLsbD 0 then 0x80 else 0x00

/-- `inrange(x, y)` (R296), with the grid position it stands for. -/
def gridPoint (x y : Int) : Option (Fin 7 × Fin 5) :=
  if h : (0 ≤ x ∧ x ≤ 6) ∧ (0 ≤ y ∧ y ≤ 4) then
    some (⟨x.toNat, by omega⟩, ⟨y.toNat, by omega⟩)
  else none

/-- One pixel's bit of a row replaced: `(row & ~(1 << x)) | (on << x)` (R293). -/
def plotBit (row : Byte) (x : Fin 7) (on : Bool) : Byte :=
  (row &&& ~~~(1#8 <<< x.val)) ||| (if on then 1#8 <<< x.val else 0#8)

end Sys2Proof.Machine
end

