-- ==== Sys2Proof/Syntax.lean ====
section
/-! DEFINITION. The abstract syntax: one constructor for each of the 24 rows of spec/opcode_table.json, the 21 host
commands of spec/30_encoding.md R102 and the three song record classes of R110. -/

namespace Sys2Proof

/-- A host command (format H, R100, R102) or a song record (format S, R101, R110), its operands assembled as R103 and
R115 say. -/
inductive Instr where
  /-- 0x00 (R372). -/
  | init
  /-- 0x01 (R303). -/
  | initSwapBuffers
  /-- 0x02: the interval in cycles; 0 is reserved (R304, R113). -/
  | setSwapInterval (n : Byte)
  /-- 0x03, blocking (R305). -/
  | swapBuffers
  /-- 0x10: bits 7..2 of the operand byte are ignored (R290). -/
  | setColor (c : Colour)
  /-- 0x11 (R291). -/
  | getColor
  /-- 0x12 (R292). -/
  | clearDisplay
  /-- 0x13 (R293). -/
  | drawPoint (x y : Coord)
  /-- 0x14 (R294). -/
  | readPixel (x y : Coord)
  /-- 0x15 (R295). -/
  | drawFilledRect (x1 y1 x2 y2 : Coord)
  /-- 0x20 (R310). -/
  | initAudio
  /-- 0x21 (R311). -/
  | setWaveTable (id : Byte)
  /-- 0x22 (R205). -/
  | setEnvelope (a d s r : Byte)
  /-- 0x23: the song address, low byte sent first; 0x0000 is null (R226). -/
  | playSong (seq : Word)
  /-- 0x24: any non-zero operand byte is 1 (R227). -/
  | loopSong (flag : Bool)
  /-- 0x25 (R320). -/
  | isAudioPlaying
  /-- 0x26, blocking (R321). -/
  | waitAudio
  /-- 0x30 (R275). -/
  | handleButtons
  /-- 0x31 (R277). -/
  | readButtons
  /-- 0x32: bits 7..4 of the operand byte are ignored (R278). -/
  | clearEvents (mask : Mask)
  /-- 0x33: bits 7..4 of the operand byte are ignored (R279). -/
  | clearEdges (mask : Mask)
  /-- The table's `end`: a record whose note byte is CFG.NOTE_END; its second byte is fetched and ignored (R222). -/
  | endMark (dur : Byte)
  /-- A record whose note byte is CFG.NOTE_REST (R223). -/
  | rest (dur : Byte)
  /-- A pitched note (R224). -/
  | note (n dur : Byte)
  deriving DecidableEq, Repr

/-- The two encoding formats (R100, R101): H on the host command port, S in song memory. -/
inductive Format where
  | H
  | S
  deriving DecidableEq, Repr

/-- Which of the two encoded inputs an instruction comes from. -/
def Instr.format : Instr → Format
  | .init => .H
  | .initSwapBuffers => .H
  | .setSwapInterval _ => .H
  | .swapBuffers => .H
  | .setColor _ => .H
  | .getColor => .H
  | .clearDisplay => .H
  | .drawPoint _ _ => .H
  | .readPixel _ _ => .H
  | .drawFilledRect _ _ _ _ => .H
  | .initAudio => .H
  | .setWaveTable _ => .H
  | .setEnvelope _ _ _ _ => .H
  | .playSong _ => .H
  | .loopSong _ => .H
  | .isAudioPlaying => .H
  | .waitAudio => .H
  | .handleButtons => .H
  | .readButtons => .H
  | .clearEvents _ => .H
  | .clearEdges _ => .H
  | .endMark _ => .S
  | .rest _ => .S
  | .note _ _ => .S

end Sys2Proof
end

