-- ==== Sys2Proof/Decode.lean ====
section
/-! DEFINITION. Decoding and encoding of host commands (format H) and song records (format S): spec/30_encoding.md. -/

namespace Sys2Proof

/-! ### Format H: the host command port (R100, R102, R103) -/

/-- What the command port makes of the bytes it has received so far. -/
inductive CommandDecode where
  /-- The opcode or some operand byte has not arrived yet (R100). -/
  | incomplete
  /-- An opcode byte that no row of R102 has (R113). -/
  | reserved (opcode : Byte)
  /-- A whole command, and the bytes after it. -/
  | command (i : Instr) (rest : List Byte)
  deriving DecidableEq, Repr

/-- A command with no operand byte. -/
def operands0 (i : Instr) (bs : List Byte) : CommandDecode := .command i bs

/-- A command with one operand byte. -/
def operands1 (f : Byte → Instr) : List Byte → CommandDecode
  | a :: rest => .command (f a) rest
  | _ => .incomplete

/-- A command with two operand bytes. -/
def operands2 (f : Byte → Byte → Instr) : List Byte → CommandDecode
  | a :: b :: rest => .command (f a b) rest
  | _ => .incomplete

/-- A command with four operand bytes. -/
def operands4 (f : Byte → Byte → Byte → Byte → Instr) : List Byte → CommandDecode
  | a :: b :: c :: d :: rest => .command (f a b c d) rest
  | _ => .incomplete

/-- The command map of R102, its operands assembled as R103 says. -/
def decodeCommand : List Byte → CommandDecode
  | [] => .incomplete
  | op :: bs =>
    match op.toNat with
    | 0x00 => operands0 .init bs
    | 0x01 => operands0 .initSwapBuffers bs
    | 0x02 => operands1 (fun n => .setSwapInterval n) bs
    | 0x03 => operands0 .swapBuffers bs
    | 0x10 => operands1 (fun c => .setColor (Machine.colourOperand c)) bs
    | 0x11 => operands0 .getColor bs
    | 0x12 => operands0 .clearDisplay bs
    | 0x13 => operands2 (fun x y => .drawPoint x y) bs
    | 0x14 => operands2 (fun x y => .readPixel x y) bs
    | 0x15 => operands4 (fun x1 y1 x2 y2 => .drawFilledRect x1 y1 x2 y2) bs
    | 0x20 => operands0 .initAudio bs
    | 0x21 => operands1 (fun id => .setWaveTable id) bs
    | 0x22 => operands4 (fun a d s r => .setEnvelope a d s r) bs
    | 0x23 => operands2 (fun lo hi => .playSong (Machine.seqOperand lo hi)) bs
    | 0x24 => operands1 (fun flag => .loopSong (Machine.flagOperand flag)) bs
    | 0x25 => operands0 .isAudioPlaying bs
    | 0x26 => operands0 .waitAudio bs
    | 0x30 => operands0 .handleButtons bs
    | 0x31 => operands0 .readButtons bs
    | 0x32 => operands1 (fun mask => .clearEvents (Machine.maskOperand mask)) bs
    | 0x33 => operands1 (fun mask => .clearEdges (Machine.maskOperand mask)) bs
    | _ => .reserved op

/-- The number of operand bytes an opcode has (R102); none for a reserved opcode (R113). -/
def operandCount (op : Byte) : Option Nat :=
  match op.toNat with
  | 0x00 | 0x01 | 0x03 | 0x11 | 0x12 | 0x20 | 0x25 | 0x26 | 0x30 | 0x31 => some 0
  | 0x02 | 0x10 | 0x21 | 0x24 | 0x32 | 0x33 => some 1
  | 0x13 | 0x14 | 0x23 => some 2
  | 0x15 | 0x22 => some 4
  | _ => none

/-! ### Format S: song memory (R101, R110) -/

/-- The classes of R110, decided by the note byte alone. -/
inductive RecordClass where
  | endOfSong
  | rest
  | pitched
  | reserved
  deriving DecidableEq, Repr

/-- The tests of R110, in its order. -/
def classifyNote (c : Config) (n : Byte) : RecordClass :=
  if n = c.noteEnd then .endOfSong
  else if n = c.noteRest then .rest
  else if n.toNat ≤ 36 then .pitched
  else .reserved

/-- The record with note byte n and duration byte d; none for a reserved note byte (R112). A reserved duration byte
is refused by the record's meaning, after both bytes are fetched (R221). -/
def decodeRecord (c : Config) (n d : Byte) : Option Instr :=
  match classifyNote c n with
  | .endOfSong => some (.endMark d)
  | .rest => some (.rest d)
  | .pitched => some (.note n d)
  | .reserved => none

/-! ### The encoder, written from the same tables (R102, R110, R121) -/

/-- The bytes of an instruction, in transmission order for a command and in address order for a song record. -/
def encode (c : Config) : Instr → List Byte
  | .init => [0x00]
  | .initSwapBuffers => [0x01]
  | .setSwapInterval n => [0x02, n]
  | .swapBuffers => [0x03]
  | .setColor k => [0x10, k.setWidth 8]
  | .getColor => [0x11]
  | .clearDisplay => [0x12]
  | .drawPoint x y => [0x13, x, y]
  | .readPixel x y => [0x14, x, y]
  | .drawFilledRect x1 y1 x2 y2 => [0x15, x1, y1, x2, y2]
  | .initAudio => [0x20]
  | .setWaveTable id => [0x21, id]
  | .setEnvelope a d s r => [0x22, a, d, s, r]
  | .playSong seq => [0x23, seq.extractLsb' 0 8, seq.extractLsb' 8 8]
  | .loopSong flag => [0x24, if flag then 0x01 else 0x00]
  | .isAudioPlaying => [0x25]
  | .waitAudio => [0x26]
  | .handleButtons => [0x30]
  | .readButtons => [0x31]
  | .clearEvents mask => [0x32, mask.setWidth 8]
  | .clearEdges mask => [0x33, mask.setWidth 8]
  | .endMark d => [c.noteEnd, d]
  | .rest d => [c.noteRest, d]
  | .note n d => [n, d]

/-! ### Words as spec/opcode_table.json numbers them -/

/-- The bytes of a table word, the least significant first. -/
def wordBytes : Nat → Nat → List Byte
  | 0, _ => []
  | k + 1, w => BitVec.ofNat 8 w :: wordBytes k (w / 256)

/-- The length in bytes of the host command a table word of nbits bits holds: the opcode is assigned and the command
is at least as long as the row. A longer row can only be a song record: the table has no other two formats. -/
def commandLength (nbits w : Nat) : Option Nat :=
  match operandCount (BitVec.ofNat 8 w) with
  | some k => if nbits ≤ 8 * (k + 1) then some (k + 1) else none
  | none => none

/-- The instruction this decoder reads from a table word. The table does not say which of the two inputs (the command
port or song memory) a word stands in, so a word that is a host command is read as one, and any other as a song
record under the configuration of the reset state. Assumption log 8. -/
def decodeTableWord (nbits w : Nat) : Option Instr :=
  match commandLength nbits w with
  | some len =>
    match decodeCommand (wordBytes len w) with
    | .command i _ => some i
    | _ => none
  | none => decodeRecord Config.chip (BitVec.ofNat 8 w) (BitVec.ofNat 8 (w / 256))

end Sys2Proof
end

