-- ==== Sys2Proof/Machine/State.lean ====
section
/-! DEFINITION. The state of the tri2s CORE as plain data: every register of spec/10_state.md R20, the five stores of
R65, what passes over the ports (spec/00_scope.md R11), the HOST agent's place in its current command
(spec/20_memory.md R90, R94), and the reset state (R68). -/

namespace Sys2Proof.Machine

/-- Song memory: the bytes it holds that differ from what an unlisted address reads as, by rising address (R70). -/
abbrev Memory := List Host.Cell

/-- The two bitplanes of the framebuffer (R57). -/
inductive Plane where
  | green
  | red
  deriving DecidableEq, Repr

/-- One row update of a drawing command, which is one step of the HOST agent (R90 c). -/
inductive RowWrite where
  /-- `FB[row] <- 0x00` (R292). -/
  | clear (row : Fin 10)
  /-- Pixel (x, y) of one plane set to that plane's bit of COLOR (R293). -/
  | plot (plane : Plane) (x : Fin 7) (y : Fin 5)
  deriving DecidableEq, Repr

/-- Where the HOST agent stands (R90, R94). -/
inductive HostPhase where
  /-- Between two commands. -/
  | ready
  /-- Inside clearDisplay, drawPoint or drawFilledRect: its next row update, and those after it. -/
  | drawing (next : RowWrite) (rest : List RowWrite)
  /-- swapBuffers was issued and READY was 0 (R305). -/
  | inSwapBuffers
  /-- waitAudio was issued and PLAYING was 1 (R321). -/
  | inWaitAudio
  deriving DecidableEq, Repr

/-- One action at an output port, as R250, R270, R352 and R70 order them. -/
inductive PortEvent where
  /-- `ROW_OUT <- v` (setRowBits). -/
  | rowOut (v : Byte)
  /-- `COL_EN[p] <- 1` (activateColumn). -/
  | columnOn (p : Fin 10)
  /-- `COL_EN[p] <- 0` (deactivateColumn). -/
  | columnOff (p : Fin 10)
  /-- `COL_EN <- 0` (init). -/
  | columnsOff
  /-- `SW_SCAN <- b`. -/
  | swScan (b : Bool)
  /-- `sw[3:0]` is sampled and reads v. -/
  | switchSample (v : Mask)
  /-- `PWM_LEVEL <- v` (setPwmLevel). -/
  | pwmLevel (v : Byte)
  /-- `PWM_EN <- b` (enablePwm, disablePwm). -/
  | pwmEnable (b : Bool)
  /-- `song_addr <- a`: a byte of song memory is read. -/
  | songRead (a : Word)
  deriving DecidableEq, Repr

/-- What the outside world does next: the two agents' turns and the platform's actions. Assumption log 3. -/
inductive Input where
  /-- A `tick` event, and what the switches read during it (R140, R270, R271). Assumption log 12. -/
  | tick (sw : Mask)
  /-- The HOST agent has its turn (R90 b, c). -/
  | hostTurn
  /-- A byte arrives on the host command port (R100). -/
  | hostByte (b : Byte)
  /-- The host changes a byte of song memory, which it owns (R65, R96). -/
  | songWrite (a : Word) (b : Byte)
  /-- The reset event (R370). -/
  | reset
  deriving DecidableEq, Repr

/-- Why a step stops with a fault. The block raises no exception (R340) and no read of it can fault (R342), so there
is no constructor: nothing in this model raises a fault. -/
inductive Fault : Type
  deriving DecidableEq, Repr

/-- Why a step is refused: the `refuse` of R18, an input outside what the spec defines. Every constructor but the
first is raised where a rule says `refuse`. All are safe: a claim about such a run cannot be proved. -/
inductive Refusal where
  /-- An arm of `exec` that has no meaning yet. Safe. -/
  | notModelled (mnemonic : String)
  /-- `refuse(reserved_note)`, raised by LOADNOTE and by `note` (R112, R220). Safe. -/
  | reservedNote (n : Byte)
  /-- `refuse(reserved_duration)`, raised by `rest` and `note` (R112, R220). Safe. -/
  | reservedDuration (d : Byte)
  /-- An unassigned opcode byte on the command port (R113). Safe. -/
  | reservedOpcode (op : Byte)
  /-- `setSwapInterval(0)` (R113, R304). Safe. -/
  | swapIntervalZero
  /-- `refuse(envelope_sustain_out_of_range)`, raised by setEnvelope (R205, R206). Safe. -/
  | envelopeSustainOutOfRange (s : Byte)
  deriving DecidableEq, Repr

/-- The state. The first seven groups are the registers of R20 under their own names; the last two are the stores the
block reads but does not own, and what the model holds of the two agents' surroundings. -/
structure State where
  -- audio datapath (R21 to R30)
  /-- PHASE (R21). -/
  phase        : Fixed
  /-- PDELTA (R22). -/
  pdelta       : Fixed
  /-- PWM_NEXT (R23). -/
  pwmNext      : Byte
  /-- PWM_LEVEL (R24). -/
  pwmLevel     : Byte
  /-- ENV (R25). -/
  env          : Fixed
  /-- ENV_DELTA (R26). -/
  envDelta     : Fixed
  /-- ATK_START (R27). -/
  atkStart     : Word
  /-- DEC_START (R27). -/
  decStart     : Word
  /-- SUS_START (R27). -/
  susStart     : Word
  /-- REL_START (R27). -/
  relStart     : Word
  /-- S_ACT (R28). -/
  sAct         : Byte
  /-- REM (R29). -/
  rem          : Word
  /-- NOTE (R30). -/
  note         : Byte
  -- fetch pointer (R40, R41)
  /-- CURSOR (R40). -/
  cursor       : Word
  /-- LOOP_START (R41). -/
  loopStart    : Word
  -- flags (R42 to R46)
  /-- PLAYING (R42). -/
  playing      : Bool
  /-- LOOP (R43). -/
  loop         : Bool
  /-- READY (R44). -/
  ready        : Bool
  /-- PWM_EN (R45). -/
  pwmEn        : Bool
  /-- RUN (R46). -/
  run          : Bool
  -- control registers (R50 to R53)
  /-- ENV_A (R50). -/
  envA         : Byte
  /-- ENV_D (R50). -/
  envD         : Byte
  /-- ENV_S (R50). -/
  envS         : Byte
  /-- ENV_R (R50). -/
  envR         : Byte
  /-- WSEL, whose value 3 is never stored (R51). Assumption log 2. -/
  wsel         : Fin 3
  /-- SWAP_INTERVAL (R52). -/
  swapInterval : Byte
  /-- COLOR (R53). -/
  color        : Colour
  -- counters of the tick scheduler (R54 to R56)
  /-- ROWDIV (R54). -/
  rowdiv       : BitVec 5
  /-- RPHASE, 0..9 (R55). Assumption log 2. -/
  rphase       : Fin 10
  /-- SWAP_CNT (R56). -/
  swapCnt      : Byte
  -- framebuffer and button masks (R57 to R61)
  /-- FB[0..9] (R57). -/
  fb           : Vector Byte 10
  /-- LEVEL (R58). -/
  level        : Mask
  /-- EDGE (R59). -/
  edge         : Mask
  /-- HELD (R60). -/
  held         : Mask
  /-- EVENT (R61). -/
  event        : Mask
  -- output registers (R62 to R64)
  /-- ROW_OUT (R62). -/
  rowOut       : Byte
  /-- COL_EN (R63). -/
  colEn        : BitVec 10
  /-- SW_SCAN (R64). -/
  swScan       : Bool
  -- the stores the block only reads (R65)
  /-- CFG: the three constant tables and the reset parameters (R13, R14, R76). -/
  cfg          : Config
  /-- Song memory (R70). -/
  song         : Memory
  -- the model's own: ports and agents (assumption log 3)
  /-- Where the HOST agent stands in its current command (R90, R94). -/
  host         : HostPhase
  /-- The bytes that have arrived on the command port and are not consumed yet (R100). -/
  hostIn       : List Byte
  /-- Every reply byte sent so far, oldest first (R100, R102). -/
  replies      : List Byte
  /-- Every output port action so far, oldest first (R250: the order is observable on the ports). -/
  trace        : List PortEvent
  /-- What the outside world does next, in order (R91: the spec fixes no order). -/
  inputs       : List Input
  /-- How many free values have been drawn (R18 `any(N)`). Assumption log 4. -/
  draws        : Nat
  deriving DecidableEq, Repr

/-- The registers' reset values (R68) under the configuration c, with an empty song memory and no input. -/
def State.resetWith (c : Config) : State where
  phase := 0x0000
  pdelta := 0x0100
  pwmNext := 0x00
  pwmLevel := 0x00
  env := 0x0000
  envDelta := 0x0000
  atkStart := 0x0000
  decStart := 0x0000
  susStart := 0x0000
  relStart := 0x0000
  sAct := 0
  rem := 0x0000
  note := c.noteEnd
  cursor := 0x0000
  loopStart := 0x0000
  playing := false
  loop := false
  ready := false
  pwmEn := false
  run := false
  envA := c.envReset.a
  envD := c.envReset.d
  envS := c.envReset.s
  envR := c.envReset.r
  wsel := c.wselReset
  swapInterval := c.swapIntervalReset
  color := c.colorReset
  rowdiv := 20
  rphase := 0
  swapCnt := c.swapIntervalReset
  fb := Vector.replicate 10 0x00
  level := 0
  edge := 0
  held := 0
  event := 0
  rowOut := 0x00
  colEn := 0
  swScan := false
  cfg := c
  song := []
  host := .ready
  hostIn := []
  replies := []
  trace := []
  inputs := []
  draws := 0

/-- The machine right after reset (R68, R370). -/
def State.reset : State := State.resetWith Config.chip

/-- The outcome of a step of this machine. -/
abbrev Result := Host.Outcome State Fault Refusal

end Sys2Proof.Machine
end

