-- ==== Sys2Proof/Machine/Ops.lean ====
section
/-! DEFINITION. The shared operations over state: sequencing, song memory (spec/20_memory.md R70 to R75), the constant
tables (R76), the port actions (spec/60_exceptions.md R352), the framebuffer's row accesses (R77), replies (R100),
free draws (R18) and the reset event (R370). The block has no exceptions (R340), so no operation takes one. -/

namespace Sys2Proof.Machine

/-- Goes on with the next state, and stops where the first part stopped. -/
def andThen (r : Result) (k : State → Result) : Result :=
  match r with
  | .next s => k s
  | .fault f => .fault f
  | .refused e => .refused e

/-! ### Song memory (R70) -/

/-- What an address that is not listed reads as. DESIGN CHOICE, unsafe: assumption log 5. -/
def songFill : Byte := 0x00

/-- The byte at an address (R70: every address is readable). -/
def Memory.read : Memory → Nat → Byte
  | [], _ => songFill
  | (b, w) :: m, a => if a = b then w else Memory.read m a

/-- The memory with the byte at address a replaced, in canonical form: a byte equal to the fill is not listed. -/
def Memory.write : Memory → Nat → Byte → Memory
  | [], a, v => if v = songFill then [] else [(a, v)]
  | (b, w) :: m, a, v =>
    if a < b then (if v = songFill then (b, w) :: m else (a, v) :: (b, w) :: m)
    else if a = b then (if v = songFill then m else (a, v) :: m)
    else (b, w) :: Memory.write m a v

/-- Addresses rise strictly from lo on, lie inside the 65536 bytes, and no listed byte equals the fill. -/
def Memory.wfFrom : Nat → Memory → Bool
  | _, [] => true
  | lo, (b, w) :: m => decide (lo ≤ b) && decide (b < 65536) && decide (w ≠ songFill) && Memory.wfFrom (b + 1) m

/-- The canonical form of a song memory. -/
def Memory.wf (m : Memory) : Bool := Memory.wfFrom 0 m

/-- `MemRead(addr, 1)`, the value (R70). -/
def State.songByte (s : State) (a : Word) : Byte := s.song.read a.toNat

/-- `MemRead(addr, 1)`, its effect: the address is driven on `song_addr` (R70). -/
def State.readSong (s : State) (a : Word) : State := { s with trace := s.trace ++ [.songRead a] }

/-- The host writes a byte of song memory (R65, R96). -/
def State.writeSong (s : State) (a : Word) (b : Byte) : State := { s with song := s.song.write a.toNat b }

/-! ### The constant tables (R76) -/

/-- `CFG.WAVE[w][i mod 32]`: the index wraps modulo 32 (R166). -/
def waveSample (c : Config) (w : Fin 3) (i : Nat) : Byte :=
  (c.wave[w.val]'w.isLt)[i % 32]'(Nat.mod_lt _ (by decide))

/-- `CFG.NOTE_TABLE[n]` for n in 0..36, after the range check (R115, R221). -/
def noteDelta? (c : Config) (n : Byte) : Option Fixed := if h : n.toNat < 37 then some c.noteTable[n.toNat] else none

/-- `CFG.DUR_TABLE[d]` for d in 0..47, after the range check (R115, R221). -/
def durTicks? (c : Config) (d : Byte) : Option Word := if h : d.toNat < 48 then some c.durTable[d.toNat] else none

/-! ### Port actions (R352) -/

/-- `setRowBits(v)`: `ROW_OUT <- v`. -/
def State.setRowBits (s : State) (v : Byte) : State := { s with rowOut := v, trace := s.trace ++ [.rowOut v] }

/-- `activateColumn(p)`: `COL_EN[p] <- 1`. -/
def State.activateColumn (s : State) (p : Fin 10) : State :=
  { s with colEn := s.colEn ||| columnBit p, trace := s.trace ++ [.columnOn p] }

/-- `deactivateColumn(p)`: `COL_EN[p] <- 0`. -/
def State.deactivateColumn (s : State) (p : Fin 10) : State :=
  { s with colEn := s.colEn &&& ~~~columnBit p, trace := s.trace ++ [.columnOff p] }

/-- `COL_EN <- 0` (R372). -/
def State.columnsOff (s : State) : State := { s with colEn := 0, trace := s.trace ++ [.columnsOff] }

/-- `SW_SCAN <- b` (R270). -/
def State.setSwScan (s : State) (b : Bool) : State := { s with swScan := b, trace := s.trace ++ [.swScan b] }

/-- The four switch lines are sampled (R270, R271). -/
def State.sampleSwitches (s : State) (sw : Mask) : State := { s with trace := s.trace ++ [.switchSample sw] }

/-- `setPwmLevel(v)`: `PWM_LEVEL <- v`. -/
def State.setPwmLevel (s : State) (v : Byte) : State := { s with pwmLevel := v, trace := s.trace ++ [.pwmLevel v] }

/-! ### Framebuffer rows (R77) -/

/-- The row of a plane's line y: `FB[y]` green, `FB[5 + y]` red (R57). -/
def planeRow (p : Plane) (y : Fin 5) : Fin 10 :=
  match p with
  | .green => ⟨y.val, by omega⟩
  | .red => ⟨5 + y.val, by omega⟩

/-- A plane's bit of a colour: bit 1 green, bit 0 red (R297). -/
def planeBit (p : Plane) (c : Colour) : Bool :=
  match p with
  | .green => c.getLsbD 1
  | .red => c.getLsbD 0

/-- A read of `FB[i]`. -/
def State.readRow (s : State) (i : Fin 10) : Byte := s.fb[i.val]

/-- A write of `FB[i]`. -/
def State.writeRow (s : State) (i : Fin 10) (v : Byte) : State := { s with fb := s.fb.set i.val v }

/-- The colour of pixel (x, y): `{FB[y][x], FB[5 + y][x]}` (R297). -/
def State.pixel (s : State) (x : Fin 7) (y : Fin 5) : Colour :=
  BitVec.ofBool ((s.readRow (planeRow .green y)).getLsbD x.val)
    ++ BitVec.ofBool ((s.readRow (planeRow .red y)).getLsbD x.val)

/-- One row update of a drawing command (R292, R293). -/
def State.applyRowWrite (s : State) (w : RowWrite) : State :=
  match w with
  | .clear row => s.writeRow row 0x00
  | .plot p x y => s.writeRow (planeRow p y) (plotBit (s.readRow (planeRow p y)) x (planeBit p s.color))

/-- The HOST agent takes the next row update of the drawing command it is in, and leaves the command with the last
(R90 c). -/
def State.continueDrawing (s : State) (w : RowWrite) (ws : List RowWrite) : State :=
  { s.applyRowWrite w with
    host :=
      match ws with
      | [] => .ready
      | v :: vs => .drawing v vs }

/-- The first step of a drawing command: its first row update, if it has any (R90 c, R100). -/
def State.beginDrawing (s : State) (ws : List RowWrite) : State :=
  match ws with
  | [] => s
  | w :: ws => s.continueDrawing w ws

/-! ### Replies, free draws, reset -/

/-- The reply bytes of a command are sent (R100). -/
def State.reply (s : State) (bs : List Byte) : State := { s with replies := s.replies ++ bs }

/-- `any(2)`: a fresh free colour (R18, R294). -/
def State.drawColour (s : State) : Colour := Config.freePixel s.draws

/-- The free value has been used: the next draw is another one. -/
def State.drawn (s : State) : State := { s with draws := s.draws + 1 }

/-- The reset event: every register of R20 takes its reset value (R370). Song memory, the inputs to come and what the
ports have already shown are outside the block and stay; a command in progress and bytes not yet consumed are lost
(assumption log 6). -/
def State.hardReset (s : State) : State :=
  { State.resetWith s.cfg with
    song := s.song, inputs := s.inputs, replies := s.replies, trace := s.trace, draws := s.draws }

end Sys2Proof.Machine
end

