-- ==== Sys2Proof/Machine/Flags.lean ====
section
/-! DEFINITION. The five flags of spec/10_state.md R42 to R46 and every computation that writes one. There are no
condition codes (R47). -/

namespace Sys2Proof.Machine

/-- `enablePwm()`: `PWM_EN <- 1` (R45, R164). -/
def State.enablePwm (s : State) : State := { s with pwmEn := true, trace := s.trace ++ [.pwmEnable true] }

/-- `disablePwm()`: `PWM_EN <- 0` (R45). -/
def State.disablePwm (s : State) : State := { s with pwmEn := false, trace := s.trace ++ [.pwmEnable false] }

/-- `PLAYING <- 0; PWM_EN <- 0`: the end of a song, and "stops any current playback" (R160, R225, R310). -/
def State.stopPlayback (s : State) : State := { s with playing := false }.disablePwm

/-- `PLAYING <- 1` unless the current note is the end sentinel (R225). -/
def State.startPlayback (s : State) : State := if s.note = s.cfg.noteEnd then s else { s with playing := true }

/-- `LOOP <- flag` (R43, R227). -/
def State.setLoop (s : State) (flag : Bool) : State := { s with loop := flag }

/-- `READY <- 1` (R44, R144). -/
def State.setReady (s : State) : State := { s with ready := true }

/-- `READY <- 0` (R44, R303, R305). -/
def State.clearReady (s : State) : State := { s with ready := false }

/-- `RUN <- 1` (R46, R372). -/
def State.startTicks (s : State) : State := { s with run := true }

end Sys2Proof.Machine
end

