-- ==== Sys2Proof/Machine/Envelope.lean ====
section
/-! DEFINITION. The Envelope Engine: spec/42_envelope.md (breakpoints R191, ENV_STEP R190, setEnvelope R205). -/

namespace Sys2Proof.Machine

/-- `(dur * k) div 256`, a 24-bit product whose low byte is dropped (R191). -/
def segmentTicks (dur : Word) (k : Byte) : Word := BitVec.ofNat 16 (dur.toNat * k.toNat / 256)

/-- The four breakpoints and S_ACT, from REM just loaded and the control bytes as they are now (R191). With illegal
control bytes, which no run reaches (R50), DESIGN CHOICE: a negative difference wraps. Assumption log 14. -/
def State.setBreakpoints (s : State) : State :=
  let dur := s.rem
  let dec := dur - segmentTicks dur s.envA
  { s with
    atkStart := dur
    decStart := dec
    susStart := dec - segmentTicks dur s.envD
    relStart := segmentTicks dur s.envR
    sAct := s.envS }

/-- A quotient rounded toward zero in the 16-bit slope register (R195). -/
def slope (rise : Nat) (ticks : Word) : Fixed := BitVec.ofNat 16 (rise / ticks.toNat)

/-- The sustain level as an 8.8 value: `S_ACT * 256` (R190). -/
def sustainLevel (sAct : Byte) : Fixed := BitVec.ofNat 16 (sAct.toNat * 256)

/-- The envelope's "current FixedPoint8_8 value/delta pair": ENV and ENV_DELTA (R25, R26). -/
structure EnvPair where
  value : Fixed
  delta : Fixed
  deriving DecidableEq, Repr

/-- The event at AttackStart: the value starts from 0, and the slope is computed unless the attack has no tick
(R194, R196, R198). With DEC_START above ATK_START, which no run reaches (R192), DESIGN CHOICE: the difference wraps.
Assumption log 14. -/
def attackEvent (c atk dec : Word) (p : EnvPair) : EnvPair :=
  if c = atk then ⟨0x0000, if atk ≠ dec then slope 16384 (atk - dec) else p.delta⟩ else p

/-- The event at DecayStart: the value starts from full scale, and the slope is computed unless the decay has no tick
(R195, R196, R198). With S_ACT above 64, which no run reaches (R28), the spec does not say what the negative rise
divides to (R16); DESIGN CHOICE: the rise is 0, and so is the slope. Assumption log 13; for SUS_START
above DEC_START, log 14. -/
def decayEvent (c dec sus : Word) (sAct : Byte) (p : EnvPair) : EnvPair :=
  if c = dec then ⟨0x4000, if dec ≠ sus then slope ((64 - sAct.toNat) * 256) (dec - sus) else p.delta⟩ else p

/-- The event at ReleaseStart: the slope is computed. With REL_START = 0 the event does not occur, since ENV_STEP runs
only with REM at least 1 (R195, R198). Assumption log 7. -/
def releaseEvent (c rel : Word) (sAct : Byte) (p : EnvPair) : EnvPair :=
  if c = rel ∧ rel ≠ 0 then ⟨p.value, slope (sAct.toNat * 256) rel⟩ else p

/-- The segment action: attack, decay, sustain or release, by comparing REM with the breakpoints (R190, R193); the
additions and subtractions are modulo 65536 (R201). -/
def segmentAction (c dec sus rel : Word) (sAct : Byte) (p : EnvPair) : EnvPair :=
  if dec.toNat < c.toNat then ⟨p.value + p.delta, p.delta⟩
  else if sus.toNat < c.toNat then ⟨p.value - p.delta, p.delta⟩
  else if rel.toNat < c.toNat then ⟨sustainLevel sAct, p.delta⟩
  else ⟨p.value - p.delta, p.delta⟩

/-- The pair after ENV_STEP: the breakpoint events in time order, so that a later one overrides an earlier one (R199),
then the segment action (R190). -/
def State.envNext (s : State) : EnvPair :=
  let p : EnvPair := ⟨s.env, s.envDelta⟩
  let p := attackEvent s.rem s.atkStart s.decStart p
  let p := decayEvent s.rem s.decStart s.susStart s.sAct p
  let p := releaseEvent s.rem s.relStart s.sAct p
  segmentAction s.rem s.decStart s.susStart s.relStart s.sAct p

/-- ENV_STEP (R190). -/
def State.envStep (s : State) : State := { s with env := s.envNext.value, envDelta := s.envNext.delta }

/-- setEnvelope(a, d, s, r): rejected operands change nothing; a sustain of 64 or more with acceptable other operands
is refused (R205, R206). -/
def execSetEnvelope (a d sus r : Byte) (s : State) : Result :=
  if !envelopePasses a d r then .next s
  else if 64 ≤ sus.toNat then .refused (.envelopeSustainOutOfRange sus)
  else .next { s with envA := a, envD := d, envS := sus, envR := r }

end Sys2Proof.Machine
end

