-- ==== Sys2Proof/Machine/Sequencer.lean ====
section
/-! DEFINITION. The Song Sequencer: spec/43_sequencer.md (LOADNOTE R220, START_SONG R225, playSong R226, loopSong R227)
and the meanings of the three song record classes (R222 to R224). -/

namespace Sys2Proof.Machine

/-- `CURSOR <- (CURSOR + 2) mod 65536; NOTE <- n`: what every record does once its two bytes are read (R220). -/
def State.acceptRecord (s : State) (n : Byte) : State := { s with cursor := s.cursor + 2, note := n }

/-- `REM <- CFG.DUR_TABLE[d]`, then the breakpoints and S_ACT; a duration byte of 48 or more is refused (R220, R112). -/
def State.loadDuration (s : State) (d : Byte) : Result :=
  match durTicks? s.cfg d with
  | some ticks => .next { s with rem := ticks }.setBreakpoints
  | none => .refused (.reservedDuration d)

/-- The end sentinel: only NOTE is set and CURSOR advances (R222). The duration byte is ignored. -/
def execEndMark (_dur : Byte) (s : State) : Result := .next (s.acceptRecord s.cfg.noteEnd)

/-- A rest: decoded like a pitched note; its delta is its table entry if it has one, and is kept otherwise (R223). -/
def execRest (dur : Byte) (s : State) : Result :=
  let s := s.acceptRecord s.cfg.noteRest
  match noteDelta? s.cfg s.cfg.noteRest with
  | some delta => { s with pdelta := delta }.loadDuration dur
  | none => s.loadDuration dur

/-- A pitched note: the delta from the note table, the duration from the duration table; a note byte above 36 is
refused before the duration byte is looked at (R220, R221, R224). -/
def execNote (n dur : Byte) (s : State) : Result :=
  let s := s.acceptRecord n
  match noteDelta? s.cfg n with
  | some delta => { s with pdelta := delta }.loadDuration dur
  | none => .refused (.reservedNote n)

/-- LOADNOTE: both bytes of the record at CURSOR are read, the note byte first, and the record is decoded and run
(R220, R73, R110). -/
def loadNote (s : State) : Result :=
  let n := s.songByte s.cursor
  let d := s.songByte (s.cursor + 1)
  let s := (s.readSong s.cursor).readSong (s.cursor + 1)
  match classifyNote s.cfg n with
  | .endOfSong => execEndMark d s
  | .rest => execRest d s
  | .pitched => execNote n d s
  | .reserved => .refused (.reservedNote n)

/-- START_SONG(seq): playback stops, the address is recorded as cursor and loop restart point, the first record is
loaded, the phase and the pipelined level are initialised, and playback starts unless the record is the end sentinel
(R225). -/
def startSong (seq : Word) (s : State) : Result :=
  andThen (loadNote { s.stopPlayback with cursor := seq, loopStart := seq }) fun s =>
    .next { s with phase := 0x0000, pwmNext := waveSample s.cfg s.wsel 0 }.startPlayback

/-- playSong(seq): the null address is a no-op (R226). -/
def execPlaySong (seq : Word) (s : State) : Result := if seq = 0x0000 then .next s else startSong seq s

/-- loopSong(flag) (R227). -/
def execLoopSong (flag : Bool) (s : State) : Result := .next (s.setLoop flag)

end Sys2Proof.Machine
end

