-- ==== Sys2Proof/Machine/Audio.lean ====
section
/-! DEFINITION. The DDS Audio Engine: spec/41_dds_audio.md (AUDIO_STEP R160), and the audio control and status commands
of spec/46_host_commands.md (R310, R311, R320, R321). -/

namespace Sys2Proof.Machine

/-- Steps 2 and 3: a rest disables the PWM and keeps the level; any other note enables it and writes the level
computed in the previous tick (R160, R163 to R165). -/
def State.outputLevel (s : State) : State :=
  if s.note = s.cfg.noteRest then s.disablePwm else s.enablePwm.setPwmLevel s.pwmNext

/-- Steps 4 and 5: the two samples at the position before the advance, the advance, the interpolation weighted by the
fraction after it, the envelope, and the level for the next tick (R160, R166 to R171). -/
def State.synthesise (s : State) : State :=
  let i0 := (intPart s.phase).toNat % 32
  let s0 := waveSample s.cfg s.wsel i0
  let s1 := waveSample s.cfg s.wsel (i0 + 1)
  let phase := phaseAdvance s.phase s.pdelta
  let interp := interpolate s0 s1 (fracPart phase)
  let s := { s with phase := phase }.envStep
  { s with pwmNext := levelProduct interp (round8_8 s.env) }

/-- REM takes a value. -/
def State.setRem (s : State) (v : Word) : State := { s with rem := v }

/-- Step 6: the remaining-duration counter, and the next record when it reaches zero (R160, R173). -/
def countDown (s : State) : Result :=
  let s := s.setRem (s.rem - 1)
  if s.rem = 0 then loadNote s else .next s

/-- Step 1 with the end sentinel as the current note: a restart if looping is enabled and a start address is known,
and otherwise the end of playback (R162). -/
def endOfSong (s : State) : Result :=
  if s.loop = true ∧ s.loopStart ≠ 0x0000 then startSong s.loopStart s else .next s.stopPlayback

/-- AUDIO_STEP (R160): nothing when Idle (R161). -/
def audioStep (s : State) : Result :=
  if s.playing = false then .next s
  else if s.note = s.cfg.noteEnd then endOfSong s
  else countDown s.outputLevel.synthesise

/-- The audio defaults (R310). -/
def State.audioDefaults (s : State) : State :=
  { s.stopPlayback with
    loop := false
    wsel := s.cfg.wselReset
    envA := s.cfg.envReset.a
    envD := s.cfg.envReset.d
    envS := s.cfg.envReset.s
    envR := s.cfg.envReset.r
    loopStart := 0x0000
    note := s.cfg.noteEnd }

/-- initAudio() (R310). -/
def execInitAudio (s : State) : Result := .next s.audioDefaults

/-- setWaveTable(id): an id of 3 or more changes nothing (R311). -/
def execSetWaveTable (id : Byte) (s : State) : Result :=
  if h : id.toNat < 3 then .next { s with wsel := ⟨id.toNat, h⟩ } else .next s

/-- isAudioPlaying() -> b (R320). -/
def execIsAudioPlaying (s : State) : Result := .next (s.reply [boolReply s.playing])

/-- waitAudio(): its step changes nothing and is enabled only when PLAYING = 0; until then the HOST agent stays in the
command (R321, R94). -/
def execWaitAudio (s : State) : Result := if s.playing then .next { s with host := .inWaitAudio } else .next s

end Sys2Proof.Machine
end

