-- ==== Sys2Proof/Machine/Buttons.lean ====
section
/-! DEFINITION. The Button Latch: spec/45_button_latch.md (BUTTON_LATCH R270, handleButtons R275, the flag access
commands R277 to R279). -/

namespace Sys2Proof.Machine

/-- BUTTON_LATCH: the lines become inputs, the switches are sampled once, the rising edges are OR-ed in, the level mask
is stored, the lines are restored (R270). -/
def State.buttonLatch (s : State) (sw : Mask) : State :=
  let s := (s.setSwScan true).sampleSwitches sw
  let s := { s with edge := s.edge ||| risingEdges s.level sw, level := sw }
  s.setSwScan false

/-- handleButtons(): the first fresh press in priority order is marked held and its event flag set; with no fresh
press, the held flags are refreshed from the level mask (R275). -/
def execHandleButtons (s : State) : Result :=
  match freshButton s.held s.level with
  | some i => .next { s with held := s.held ||| buttonBit i, event := s.event ||| buttonBit i }
  | none => .next { s with held := s.level }

/-- readButtons() -> b0, b1 (R277). -/
def execReadButtons (s : State) : Result :=
  .next (s.reply [masksReply s.event s.held, masksReply s.edge s.level])

/-- clearEvents(mask) (R278). -/
def execClearEvents (mask : Mask) (s : State) : Result := .next { s with event := s.event &&& ~~~mask }

/-- clearEdges(mask) (R279). -/
def execClearEdges (mask : Mask) (s : State) : Result := .next { s with edge := s.edge &&& ~~~mask }

end Sys2Proof.Machine
end

