-- ==== Sys2Proof/Machine/Display.lean ====
section
/-! DEFINITION. The Display Multiplexer: spec/44_display_mux.md (MUX_STEP R250), and the drawing commands of
spec/46_host_commands.md (R290 to R297). -/

namespace Sys2Proof.Machine

/-- MUX_STEP(p): the previous driver off; on phase 0 the rows dark and the switches latched; the row pattern of `FB[p]`
out; driver p on (R250, R254). -/
def State.muxStep (s : State) (sw : Mask) (p : Fin 10) : State :=
  let s := s.deactivateColumn (p + 9)
  let s := if p = 0 then (s.setRowBits 0x00).buttonLatch sw else s
  let s := s.setRowBits (rowPattern (s.readRow p))
  s.activateColumn p

/-- setColor(c) (R290). -/
def execSetColor (c : Colour) (s : State) : Result := .next { s with color := c }

/-- getColor() -> c (R291). -/
def execGetColor (s : State) : Result := .next (s.reply [colourReply s.color])

/-- The ten row writes of clearDisplay, `FB[0]` first (R292). -/
def clearWrites : List RowWrite :=
  [.clear 0, .clear 1, .clear 2, .clear 3, .clear 4, .clear 5, .clear 6, .clear 7, .clear 8, .clear 9]

/-- clearDisplay(), its first step (R292). -/
def execClearDisplay (s : State) : Result := .next (s.beginDrawing clearWrites)

/-- The row updates of drawPoint: none for a clipped point, else the green row and then the red row (R293). -/
def pointWrites (x y : Int) : List RowWrite :=
  match gridPoint x y with
  | some (i, j) => [.plot .green i j, .plot .red i j]
  | none => []

/-- drawPoint(x, y), its first step (R293). -/
def execDrawPoint (x y : Coord) (s : State) : Result := .next (s.beginDrawing (pointWrites (sext8 x) (sext8 y)))

/-- readPixel(x, y) -> c: the pixel's colour, or a free colour for a clipped coordinate (R294). -/
def execReadPixel (x y : Coord) (s : State) : Result :=
  match gridPoint (sext8 x) (sext8 y) with
  | some (i, j) => .next (s.reply [colourReply (s.pixel i j)])
  | none => .next (s.drawn.reply [colourReply s.drawColour])

/-- The row updates of drawFilledRect: rows ascending, then columns ascending, each pixel as drawPoint (R295). Only the
grid's own coordinates are visited, since every other point is clipped; the statement RectangleIsTheLoopOfPoints says
that this is the loop of R295 over all of x1..x2 and y1..y2. -/
def rectWrites (x1 y1 x2 y2 : Int) : List RowWrite :=
  (List.range 5).flatMap fun y =>
    if y1 ≤ (y : Int) ∧ (y : Int) ≤ y2 then
      (List.range 7).flatMap fun x =>
        if x1 ≤ (x : Int) ∧ (x : Int) ≤ x2 then pointWrites x y else []
    else []

/-- drawFilledRect(x1, y1, x2, y2), its first step (R295). -/
def execDrawFilledRect (x1 y1 x2 y2 : Coord) (s : State) : Result :=
  .next (s.beginDrawing (rectWrites (sext8 x1) (sext8 y1) (sext8 x2) (sext8 y2)))

end Sys2Proof.Machine
end

