-- ==== Sys2Proof/Machine/Frame.lean ====
section
/-! DEFINITION. Frame synchronisation: spec/46_host_commands.md R303 to R306; the lifecycle command init:
spec/70_reset_and_hazards.md R372. -/

namespace Sys2Proof.Machine

/-- The swap state's initial values (R303). -/
def State.swapDefaults (s : State) : State :=
  { s with swapInterval := s.cfg.swapIntervalReset, swapCnt := s.cfg.swapIntervalReset }.clearReady

/-- initSwapBuffers() (R303). -/
def execInitSwapBuffers (s : State) : Result := .next s.swapDefaults

/-- setSwapInterval(n): 0 is reserved (R304, R113). -/
def execSetSwapInterval (n : Byte) (s : State) : Result :=
  if n = 0 then .refused .swapIntervalZero else .next { s with swapInterval := n }

/-- swapBuffers(): enabled only when READY = 1, its one step is `READY <- 0`; until then the HOST agent stays in the
command (R305, R94, R95). -/
def execSwapBuffers (s : State) : Result := if s.ready then .next s.clearReady else .next { s with host := .inSwapBuffers }

/-- `FB[0..9] <- 0x00` (R372). -/
def State.clearFramebuffer (s : State) : State := { s with fb := Vector.replicate 10 0x00 }

/-- init(): the ports, the scheduler counters, the swap state, the framebuffer, the tick, the audio defaults, as one
step (R372). -/
def execInit (s : State) : Result :=
  let s := ((s.setRowBits 0x00).columnsOff).setSwScan false
  let s := { s with rowdiv := 20, rphase := 0 }
  .next s.swapDefaults.clearFramebuffer.startTicks.audioDefaults

end Sys2Proof.Machine
end

