-- ==== Sys2Proof/Machine/Tick.lean ====
section
/-! DEFINITION. The Tick Scheduler: spec/40_tick_scheduler.md (TICK R140). -/

namespace Sys2Proof.Machine

/-- ROWDIV takes a value. -/
def State.setRowdiv (s : State) (v : BitVec 5) : State := { s with rowdiv := v }

/-- RPHASE takes a value. -/
def State.setRphase (s : State) (p : Fin 10) : State := { s with rphase := p }

/-- SWAP_CNT takes a value. -/
def State.setSwapCnt (s : State) (v : Byte) : State := { s with swapCnt := v }

/-- (c): a completed multiplex cycle counts SWAP_CNT down, and reloads it and sets READY at zero (R140, R144). -/
def State.cycleDone (s : State) : State :=
  let s := s.setSwapCnt (s.swapCnt - 1)
  if s.swapCnt = 0 then (s.setSwapCnt s.swapInterval).setReady else s

/-- (b) and (c): the row counter, one multiplexer step every 20th tick at the phase before its increment, and the cycle
counter when the phase wraps (R140, R142, R143). At ROWDIV = 0, which no run reaches (R54, R69 b), the decrement has no
value in the spec; DESIGN CHOICE: it wraps to 31. Assumption log 14. -/
def State.rowStep (s : State) (sw : Mask) : State :=
  let s := s.setRowdiv (s.rowdiv - 1)
  if s.rowdiv = 0 then
    let p := s.rphase
    let s := ((s.setRowdiv 20).muxStep sw p).setRphase (p + 1)
    if p = 9 then s.cycleDone else s
  else s

/-- TICK: ignored while RUN = 0 (R141); otherwise AUDIO_STEP and then the row counter (R140, R142). -/
def tick (sw : Mask) (s : State) : Result :=
  if s.run = false then .next s else andThen (audioStep s) fun s => .next (s.rowStep sw)

end Sys2Proof.Machine
end

