-- ==== Sys2Proof/Machine/Dispatch.lean ====
section
/-! DEFINITION. One arm per constructor of Instr, each one call of its meaning. -/

namespace Sys2Proof.Machine

def exec (i : Instr) (s : State) : Host.Outcome State Fault Refusal :=
  match i with
  -- lifecycle and frame synchronisation
  | .init => Sys2Proof.Machine.execInit s
  | .initSwapBuffers => Sys2Proof.Machine.execInitSwapBuffers s
  | .setSwapInterval n => Sys2Proof.Machine.execSetSwapInterval n s
  | .swapBuffers => Sys2Proof.Machine.execSwapBuffers s
  -- drawing
  | .setColor c => Sys2Proof.Machine.execSetColor c s
  | .getColor => Sys2Proof.Machine.execGetColor s
  | .clearDisplay => Sys2Proof.Machine.execClearDisplay s
  | .drawPoint x y => Sys2Proof.Machine.execDrawPoint x y s
  | .readPixel x y => Sys2Proof.Machine.execReadPixel x y s
  | .drawFilledRect x1 y1 x2 y2 => Sys2Proof.Machine.execDrawFilledRect x1 y1 x2 y2 s
  -- audio
  | .initAudio => Sys2Proof.Machine.execInitAudio s
  | .setWaveTable id => Sys2Proof.Machine.execSetWaveTable id s
  | .setEnvelope a d sus r => Sys2Proof.Machine.execSetEnvelope a d sus r s
  | .playSong seq => Sys2Proof.Machine.execPlaySong seq s
  | .loopSong flag => Sys2Proof.Machine.execLoopSong flag s
  | .isAudioPlaying => Sys2Proof.Machine.execIsAudioPlaying s
  | .waitAudio => Sys2Proof.Machine.execWaitAudio s
  -- input
  | .handleButtons => Sys2Proof.Machine.execHandleButtons s
  | .readButtons => Sys2Proof.Machine.execReadButtons s
  | .clearEvents mask => Sys2Proof.Machine.execClearEvents mask s
  | .clearEdges mask => Sys2Proof.Machine.execClearEdges mask s
  -- song records
  | .endMark dur => Sys2Proof.Machine.execEndMark dur s
  | .rest dur => Sys2Proof.Machine.execRest dur s
  | .note n dur => Sys2Proof.Machine.execNote n dur s

end Sys2Proof.Machine
end

