-- ==== Sys2Proof/Machine/Agents.lean ====
section
/-! DEFINITION. The two agents and what else the outside world does (spec/00_scope.md R4, R5; spec/20_memory.md R90 to
R95), and the placing of one instruction where the next step fetches it. -/

namespace Sys2Proof.Machine

/-- One turn of the HOST agent: the next row update of a drawing command, a new try of a blocking command, or the next
command on the port, once all its bytes have arrived (R90, R94, R100). With no step enabled nothing changes (R94). Assumption log
10 and 11. -/
def hostTurn (s : State) : Result :=
  match s.host with
  | .drawing w ws => .next (s.continueDrawing w ws)
  | .inSwapBuffers => exec .swapBuffers { s with host := .ready }
  | .inWaitAudio => exec .waitAudio { s with host := .ready }
  | .ready =>
    match decodeCommand s.hostIn with
    | .incomplete => .next s
    | .reserved op => .refused (.reservedOpcode op)
    | .command i bs => exec i { s with hostIn := bs }

/-- What one input does. -/
def accept (i : Input) (s : State) : Result :=
  match i with
  | .tick sw => tick sw s
  | .hostTurn => hostTurn s
  | .hostByte b => .next { s with hostIn := s.hostIn ++ [b] }
  | .songWrite a b => .next (s.writeSong a b)
  | .reset => .next s.hardReset

/-- The next input is taken. With none left the block keeps its state (assumption log 3). -/
def takeInput (s : State) : Result :=
  match s.inputs with
  | [] => .next s
  | i :: is => accept i { s with inputs := is }

/-- A host command placed where the HOST agent fetches its next command: its bytes are all that the port holds, and
the next step is the HOST agent's turn. -/
def State.placeCommand (s : State) (bs : List Byte) : State :=
  { s with host := .ready, hostIn := bs, inputs := [.hostTurn] }

/-- A song record placed where LOADNOTE fetches its next record, at CURSOR, with a rest in its last tick playing and the
tick running, so that the next step is the tick that loads the record. Assumption log 8. -/
def State.placeRecord (s : State) (n d : Byte) : State :=
  { (s.writeSong s.cursor n).writeSong (s.cursor + 1) d with
    run := true, playing := true, note := s.cfg.noteRest, rem := 1, inputs := [.tick 0] }

/-- A table word placed where the next step fetches its instruction, read as `decodeTableWord` reads it. -/
def State.placeWord (s : State) (nbits w : Nat) : State :=
  match commandLength nbits w with
  | some len => s.placeCommand (wordBytes len w)
  | none => s.placeRecord (BitVec.ofNat 8 w) (BitVec.ofNat 8 (w / 256))

end Sys2Proof.Machine
end

