-- ==== Sys2Proof/Machine/Step.lean ====
section
/-! DEFINITION. One step: the state's next input is taken (spec/20_memory.md R90, R91). -/

namespace Sys2Proof.Machine

/-- One step of the machine. -/
def step (s : State) : Host.Outcome State Fault Refusal := takeInput s

/-- s with the instruction of a table word stored where `step` fetches its next instruction. -/
def State.withFetchWord (s : State) (nbits w : Nat) : State := s.placeWord nbits w

end Sys2Proof.Machine
end

