-- ==== Sys2Proof/Safety.lean ====
section
/-! DEFINITION. What claims are stated in: runs of one agent, and the invariants of spec/10_state.md R69 with what makes
them inductive. -/

namespace Sys2Proof.Machine

/-! ### Runs of one agent -/

/-- Consecutive TICK steps, one for each element; the element is what the switches read during that tick. -/
def ticks : List Mask → State → Result
  | [], s => .next s
  | sw :: sws, s => andThen (tick sw s) (ticks sws)

/-- n consecutive turns of the HOST agent with no tick between them. -/
def hostTurns : Nat → State → Result
  | 0, s => .next s
  | n + 1, s => andThen (hostTurn s) (hostTurns n)

/-- n consecutive envelope steps of one note: ENV_STEP, then the decrement of REM (R160 steps 5 and 6). -/
def envTicks : Nat → State → State
  | 0, s => s
  | n + 1, s => envTicks n { s.envStep with rem := s.rem - 1 }

/-! ### The envelope -/

/-- The breakpoints are in the order of R192, and REM is inside the note (R29). -/
structure BreakpointsOrdered (s : State) : Prop where
  attackFirst  : s.decStart.toNat ≤ s.atkStart.toNat
  decayNext    : s.susStart.toNat ≤ s.decStart.toNat
  sustainTick  : s.relStart.toNat < s.susStart.toNat
  remPositive  : 1 ≤ s.rem.toNat
  remInNote    : s.rem.toNat ≤ s.atkStart.toNat

/-- Where ENV stands in the note's segments before the tick with counter REM (R194, R195, R197): inside the attack it
has gained one slope a tick, inside the decay it has lost one slope a tick from full scale, from the second sustain
tick to the release event it is S, and inside the release it has lost one slope a tick from S. -/
structure EnvelopeOnTrack (s : State) : Prop where
  attack  : s.decStart.toNat < s.rem.toNat → s.rem.toNat < s.atkStart.toNat →
    s.envDelta.toNat = 16384 / (s.atkStart.toNat - s.decStart.toNat)
      ∧ s.env.toNat = (s.atkStart.toNat - s.rem.toNat) * s.envDelta.toNat
  decay   : s.susStart.toNat < s.rem.toNat → s.rem.toNat < s.decStart.toNat →
    s.envDelta.toNat = (64 - s.sAct.toNat) * 256 / (s.decStart.toNat - s.susStart.toNat)
      ∧ s.env.toNat + (s.decStart.toNat - s.rem.toNat) * s.envDelta.toNat = 16384
  sustain : s.relStart.toNat ≤ s.rem.toNat → s.rem.toNat < s.susStart.toNat → s.env.toNat = s.sAct.toNat * 256
  release : s.rem.toNat < s.relStart.toNat →
    s.envDelta.toNat = s.sAct.toNat * 256 / s.relStart.toNat
      ∧ s.env.toNat + (s.relStart.toNat - s.rem.toNat) * s.envDelta.toNat = s.sAct.toNat * 256

/-! ### Invariants -/

/-- The invariants of R69, clause by clause; (c) `RPHASE <= 9` and (j) `WSEL <= 2` hold by the fields' types. -/
structure BoundaryInvariants (s : State) : Prop where
  /-- (a) -/
  phaseIndex   : (intPart s.phase).toNat ≤ 31
  /-- (b) -/
  rowdivRange  : 1 ≤ s.rowdiv.toNat ∧ s.rowdiv.toNat ≤ 20
  /-- (d) -/
  swScanLow    : s.swScan = false
  /-- (e) -/
  oneColumn    : s.colEn = 0 ∨ s.colEn = columnBit (s.rphase + 9)
  /-- (f) -/
  rowBit7      : ∀ i : Fin 10, (s.readRow i).getLsbD 7 = false
  /-- (g) -/
  remInNote    : s.playing = true → s.note ≠ s.cfg.noteEnd → 1 ≤ s.rem.toNat ∧ s.rem.toNat ≤ s.atkStart.toNat
  /-- (h) -/
  envRange     : s.env.toNat ≤ 0x4000
  /-- (i) -/
  levelRange   : s.pwmNext.toNat ≤ 49 ∧ s.pwmLevel.toNat ≤ 49
  /-- (k) -/
  idleSilent   : s.playing = false → s.pwmEn = false

/-- The inductive invariant: R69, the ranges of the other registers (R22, R26, R28, R50, R52, R56), the order of the
breakpoints and the place of the envelope while a note sounds (R27, R192), and the canonical form of song memory. -/
structure Inv (s : State) : Prop extends BoundaryInvariants s where
  deltaRange      : 0x0100 ≤ s.pdelta.toNat ∧ s.pdelta.toNat ≤ 0x01FF
  slopeRange      : s.envDelta.toNat ≤ 0x4000
  sustainRange    : s.sAct.toNat < 64
  controlsLegal   : (EnvBytes.mk s.envA s.envD s.envS s.envR).legal = true
  intervalLegal   : 1 ≤ s.swapInterval.toNat
  swapCntPositive : 1 ≤ s.swapCnt.toNat
  ordered         : s.playing = true → s.note ≠ s.cfg.noteEnd → BreakpointsOrdered s
  onTrack         : s.playing = true → s.note ≠ s.cfg.noteEnd → EnvelopeOnTrack s
  songCanonical   : s.song.wf = true

end Sys2Proof.Machine
end

