-- ==== Sys2Proof/WellFormed.lean ====
section
/-! DEFINITION. Well-formed instructions: those whose encoding is not reserved (spec/30_encoding.md R112, R113). -/

namespace Sys2Proof

/-- An instruction the spec gives a meaning: `setSwapInterval` of 0 is reserved, and so is a `setEnvelope` with a
sustain of 64 or more whose other operands pass (R113, R206); a song record carries a duration identifier 0..47, and a
pitched note an identifier 0..36 that is neither sentinel (R110, R112). -/
def Instr.wf (c : Config) : Instr → Bool
  | .setSwapInterval n => decide (n ≠ 0)
  | .setEnvelope a d s r => !(Machine.envelopePasses a d r) || decide (s.toNat < 64)
  | .rest d => decide (d.toNat ≤ 47)
  | .note n d =>
      decide (n.toNat ≤ 36) && decide (n ≠ c.noteEnd) && decide (n ≠ c.noteRest) && decide (d.toNat ≤ 47)
  | .init => true
  | .initSwapBuffers => true
  | .swapBuffers => true
  | .setColor _ => true
  | .getColor => true
  | .clearDisplay => true
  | .drawPoint _ _ => true
  | .readPixel _ _ => true
  | .drawFilledRect _ _ _ _ => true
  | .initAudio => true
  | .setWaveTable _ => true
  | .playSong _ => true
  | .loopSong _ => true
  | .isAudioPlaying => true
  | .waitAudio => true
  | .handleButtons => true
  | .readButtons => true
  | .clearEvents _ => true
  | .clearEdges _ => true
  | .endMark _ => true

end Sys2Proof
end

