-- ==== Sys2Proof/Certificates/Slice0/Obligations.lean ====
section
/-! DEFINITION. The statements about the model, from the numbered rules of spec/. A statement whose conclusion is
`exec i s = .next { s with … }` says the whole next state: every register, every byte of song memory and every port it
does not name is unchanged. Where a next state t is described by its fields, the clause `t = { s with f := t.f, … }`
says that nothing but the fields it lists changes. -/

open Sys2Proof Sys2Proof.Machine

/-! ### Encodings -/

/-- Every host command, with every operand value, is read back from its own bytes, whatever bytes follow it
(R102, R103). -/
def Obligations.CommandDecodeInvertsEncode : Prop :=
  ∀ (c : Config) (i : Instr) (bs : List Byte),
    i.format = .H → decodeCommand (encode c i ++ bs) = .command i bs

/-- Every well-formed song record is two bytes that are read back as that record, under every configuration
(R101, R110). -/
def Obligations.RecordDecodeInvertsEncode : Prop :=
  ∀ (c : Config) (i : Instr), i.format = .S → i.wf c = true →
    ∃ n d, encode c i = [n, d] ∧ decodeRecord c n d = some i

/-- The bytes a host command takes depend on its opcode byte alone: a reserved opcode is refused by name, a command
whose operand bytes have not all arrived is not read, and a whole one takes exactly its operand bytes (R100, R116). -/
def Obligations.CommandLengthFixedByOpcode : Prop :=
  ∀ (op : Byte) (bs : List Byte),
    match operandCount op with
    | none => decodeCommand (op :: bs) = .reserved op
    | some k =>
      if bs.length < k then decodeCommand (op :: bs) = .incomplete
      else ∃ i : Instr, i.format = .H ∧ ∀ more, decodeCommand (op :: bs.take k ++ more) = .command i more

/-- The reserved opcode bytes are exactly the ranges of R113, and the HOST agent's turn refuses one by name. -/
def Obligations.ReservedOpcodesRefused : Prop :=
  (∀ op : Byte, operandCount op = none ↔
    (0x04 ≤ op.toNat ∧ op.toNat ≤ 0x0F) ∨ (0x16 ≤ op.toNat ∧ op.toNat ≤ 0x1F)
      ∨ (0x27 ≤ op.toNat ∧ op.toNat ≤ 0x2F) ∨ (0x34 ≤ op.toNat ∧ op.toNat ≤ 0xFF))
  ∧ ∀ (s : State) (op : Byte) (bs : List Byte), s.host = .ready → s.hostIn = op :: bs → operandCount op = none →
      hostTurn s = .refused (.reservedOpcode op)

/-- The class of a record is decided by its note byte alone, the end sentinel first, then the rest, then a pitched
note up to 36; any other note byte has none (R110). -/
def Obligations.RecordClassFromNoteByte : Prop :=
  ∀ (c : Config) (n d : Byte),
    (n = c.noteEnd → decodeRecord c n d = some (.endMark d))
    ∧ (n ≠ c.noteEnd → n = c.noteRest → decodeRecord c n d = some (.rest d))
    ∧ (n ≠ c.noteEnd → n ≠ c.noteRest → n.toNat ≤ 36 → decodeRecord c n d = some (.note n d))
    ∧ (n ≠ c.noteEnd → n ≠ c.noteRest → 36 < n.toNat → decodeRecord c n d = none)

/-- Words written out from the tables of R102 and R110 decode to the instruction they stand for. -/
def Obligations.SpecWordsDecode : Prop :=
  decodeCommand [0x13#8, 0x02#8, 0x04#8] = .command (.drawPoint 2 4) []
  ∧ decodeCommand [0x22#8, 0xC8#8, 0x0A#8, 0x05#8, 0x32#8] = .command (.setEnvelope 200 10 5 50) []
  ∧ decodeCommand [0x23#8, 0x00#8, 0x02#8] = .command (.playSong 0x0200) []
  ∧ decodeCommand [0x32#8, 0xF1#8] = .command (.clearEvents 1) []
  ∧ decodeCommand [0x03#8] = .command .swapBuffers []
  ∧ decodeRecord Config.chip 0x05#8 0x02#8 = some (.note 5 2)
  ∧ decodeRecord Config.chip 0x00#8 0x01#8 = some (.rest 1)
  ∧ decodeRecord Config.chip 0xFF#8 0x77#8 = some (.endMark 0x77)

/-! ### Steps and agents -/

/-- A step in which the HOST agent has its turn, between two commands, with a whole command on the port, runs that
command, its bytes consumed (R90 b, R100). -/
def Obligations.StepRunsDecodedCommand : Prop :=
  ∀ (s : State) (i : Instr) (bs : List Byte) (is : List Input),
    s.inputs = .hostTurn :: is → s.host = .ready → decodeCommand s.hostIn = .command i bs →
    step s = exec i { s with inputs := is, hostIn := bs }

/-- LOADNOTE reads the two bytes at CURSOR and CURSOR + 1, the note byte first, and runs the record they decode to; a
note byte of no class is refused by name (R220, R73). The step that runs it is the tick of `TickLoadsNextRecord`. -/
def Obligations.LoadNoteRunsDecodedRecord : Prop :=
  ∀ s : State,
    match decodeRecord s.cfg (s.songByte s.cursor) (s.songByte (s.cursor + 1)) with
    | some i => loadNote s = exec i { s with trace := s.trace ++ [.songRead s.cursor, .songRead (s.cursor + 1)] }
    | none => loadNote s = .refused (.reservedNote (s.songByte s.cursor))

/-- A step takes the next input and does what that input says: a tick is one TICK, a HOST turn is one turn of the HOST
agent wherever it stands, a byte on the port is received, the host's write changes one byte of a song memory in canonical
form. A command whose operand bytes have not all arrived has no effect (R100). That an empty input list, and a turn in
which the HOST agent has no step, leave the state as it is, is the model's own choice (assumption log 3). -/
def Obligations.StepTakesNextInput : Prop :=
  ∀ (s : State) (is : List Input),
    (∀ sw, step { s with inputs := .tick sw :: is } = tick sw { s with inputs := is })
    ∧ step { s with inputs := .hostTurn :: is } = hostTurn { s with inputs := is }
    ∧ (s.host = .ready → decodeCommand s.hostIn = .incomplete → hostTurn s = .next s)
    ∧ (∀ b, step { s with inputs := .hostByte b :: is } = .next { s with inputs := is, hostIn := s.hostIn ++ [b] })
    ∧ (s.song.wf = true → ∀ a b, ∃ t, step { s with inputs := .songWrite a b :: is } = .next t
        ∧ t = { s with inputs := is, song := t.song }
        ∧ ∀ a', t.songByte a' = if a' = a then b else s.songByte a')
    ∧ step { s with inputs := [] } = .next { s with inputs := [] }

/-- A run whose inputs are ticks is the run of TICK steps with those switch readings: what the input list holds beyond
them changes nothing. -/
def Obligations.RunOfTickInputsIsTicks : Prop :=
  ∀ (s t : State) (sws : List Mask) (is : List Input), ticks sws s = .next t →
    Sys2Proof.core.run sws.length { s with inputs := sws.map Input.tick ++ is } = .next { t with inputs := is }

/-- swapBuffers is enabled only when READY = 1 and its one step is `READY <- 0` (R305, R95). While READY = 0 the spec gives
the HOST agent no step (R94); the clauses for that case are the model's own form of it: the turn that reads the command
puts the HOST agent's place in the field `host` (assumption log 10), and a later turn in which it has no step leaves the
state as it is (assumption log 3). -/
def Obligations.SwapBuffersWaitsForReady : Prop :=
  ∀ s : State,
    (s.ready = true → exec .swapBuffers s = .next { s with ready := false })
    ∧ (s.ready = false → exec .swapBuffers s = .next { s with host := .inSwapBuffers })
    ∧ (s.host = .inSwapBuffers → s.ready = false → hostTurn s = .next s)
    ∧ (s.host = .inSwapBuffers → s.ready = true → hostTurn s = .next { s with ready := false, host := .ready })

/-- waitAudio is enabled only when PLAYING = 0 and its step changes nothing (R321). While PLAYING = 1 the spec gives the
HOST agent no step (R94); the clauses for that case are the model's own form of it: the turn that reads the command puts
the HOST agent's place in the field `host` (assumption log 10), and a later turn in which it has no step leaves the state
as it is (assumption log 3). -/
def Obligations.WaitAudioWaitsForIdle : Prop :=
  ∀ s : State,
    (s.playing = false → exec .waitAudio s = .next s)
    ∧ (s.playing = true → exec .waitAudio s = .next { s with host := .inWaitAudio })
    ∧ (s.host = .inWaitAudio → s.playing = true → hostTurn s = .next s)
    ∧ (s.host = .inWaitAudio → s.playing = false → hostTurn s = .next { s with host := .ready })

/-! ### Whole-machine rules -/

/-- Nothing the block does writes song memory or changes its constant tables: no instruction, no tick, no turn of the
HOST agent (R73, R76). -/
def Obligations.BlockNeverWritesSongMemory : Prop :=
  ∀ s t : State,
    ((∃ i, exec i s = .next t) ∨ (∃ sw, tick sw s = .next t) ∨ hostTurn s = .next t) →
    (∀ a, t.songByte a = s.songByte a) ∧ t.cfg = s.cfg

/-- What a host command may change, register by register: the writers of R20's table, with the writes R310 and R372 give
initAudio and init (assumption log 9). The registers of the tick alone never change. -/
def Obligations.HostCommandsWriteOnlyTheirRegisters : Prop :=
  ∀ (i : Instr) (s t : State), i.format = .H → exec i s = .next t →
    (t.pwmLevel = s.pwmLevel ∧ t.env = s.env ∧ t.envDelta = s.envDelta ∧ t.level = s.level)
    ∧ ((t.phase ≠ s.phase ∨ t.pdelta ≠ s.pdelta ∨ t.pwmNext ≠ s.pwmNext ∨ t.atkStart ≠ s.atkStart
        ∨ t.decStart ≠ s.decStart ∨ t.susStart ≠ s.susStart ∨ t.relStart ≠ s.relStart ∨ t.sAct ≠ s.sAct
        ∨ t.rem ≠ s.rem ∨ t.cursor ≠ s.cursor) → ∃ seq, i = .playSong seq)
    ∧ ((t.note ≠ s.note ∨ t.loopStart ≠ s.loopStart ∨ t.playing ≠ s.playing ∨ t.pwmEn ≠ s.pwmEn) →
        (∃ seq, i = .playSong seq) ∨ i = .initAudio ∨ i = .init)
    ∧ (t.loop ≠ s.loop → (∃ flag, i = .loopSong flag) ∨ i = .initAudio ∨ i = .init)
    ∧ (t.wsel ≠ s.wsel → (∃ id, i = .setWaveTable id) ∨ i = .initAudio ∨ i = .init)
    ∧ ((t.envA ≠ s.envA ∨ t.envD ≠ s.envD ∨ t.envS ≠ s.envS ∨ t.envR ≠ s.envR) →
        (∃ a d sus r, i = .setEnvelope a d sus r) ∨ i = .initAudio ∨ i = .init)
    ∧ (t.ready ≠ s.ready → i = .swapBuffers ∨ i = .initSwapBuffers ∨ i = .init)
    ∧ (t.swapInterval ≠ s.swapInterval → (∃ n, i = .setSwapInterval n) ∨ i = .initSwapBuffers ∨ i = .init)
    ∧ (t.swapCnt ≠ s.swapCnt → i = .initSwapBuffers ∨ i = .init)
    ∧ (t.color ≠ s.color → ∃ c, i = .setColor c)
    ∧ (t.fb ≠ s.fb → i = .clearDisplay ∨ (∃ x y, i = .drawPoint x y)
        ∨ (∃ x1 y1 x2 y2, i = .drawFilledRect x1 y1 x2 y2) ∨ i = .init)
    ∧ (t.edge ≠ s.edge → ∃ mask, i = .clearEdges mask)
    ∧ (t.held ≠ s.held → i = .handleButtons)
    ∧ (t.event ≠ s.event → i = .handleButtons ∨ ∃ mask, i = .clearEvents mask)
    ∧ ((t.run ≠ s.run ∨ t.rowdiv ≠ s.rowdiv ∨ t.rphase ≠ s.rphase ∨ t.rowOut ≠ s.rowOut ∨ t.colEn ≠ s.colEn
        ∨ t.swScan ≠ s.swScan) → i = .init)

/-- What a tick never changes: the flags LOOP and RUN, the control registers, the framebuffer, HELD and EVENT, the HOST
agent and what it has received and replied (R20, R67). -/
def Obligations.TickKeepsHostRegisters : Prop :=
  ∀ (s t : State) (sw : Mask), tick sw s = .next t →
    t = { s with
      phase := t.phase, pdelta := t.pdelta, pwmNext := t.pwmNext, pwmLevel := t.pwmLevel, env := t.env
      envDelta := t.envDelta, atkStart := t.atkStart, decStart := t.decStart, susStart := t.susStart
      relStart := t.relStart, sAct := t.sAct, rem := t.rem, note := t.note, cursor := t.cursor
      loopStart := t.loopStart, playing := t.playing, ready := t.ready, pwmEn := t.pwmEn, rowdiv := t.rowdiv
      rphase := t.rphase, swapCnt := t.swapCnt, level := t.level, edge := t.edge, rowOut := t.rowOut
      colEn := t.colEn, swScan := t.swScan, trace := t.trace }

/-- The number of reply bytes of each host command (R102). -/
def replyCount : Instr → Nat
  | .getColor | .readPixel _ _ | .isAudioPlaying => 1
  | .readButtons => 2
  | _ => 0

/-- The reply bytes of each instruction in state s (R102, R103): the colour zero-extended, the pixel's colour or outside
the grid the next free colour (assumption log 4), 0x01 or 0x00, and the two bytes of masks. -/
def replyBytes (s : State) : Instr → List Byte
  | .getColor => [s.color.setWidth 8]
  | .readPixel x y =>
    match gridPoint x.toInt y.toInt with
    | some (i, j) => [(s.pixel i j).setWidth 8]
    | none => [(Config.freePixel s.draws).setWidth 8]
  | .isAudioPlaying => [if s.playing = true then 0x01 else 0x00]
  | .readButtons => [s.event ++ s.held, s.edge ++ s.level]
  | _ => []

/-- Every instruction that goes on sends exactly the reply bytes R103 assembles for it, as many as R102 lists, after those
already sent (R100, R102, R103); the colour a clipped readPixel replies is the next free value (assumption log 4). -/
def Obligations.RepliesAsTheTableSays : Prop :=
  ∀ (i : Instr) (s t : State), exec i s = .next t →
    t.replies = s.replies ++ replyBytes s i ∧ (replyBytes s i).length = replyCount i

/-- RUN is set by init alone and cleared by the reset event alone (R46). -/
def Obligations.RunSetByInitClearedByReset : Prop :=
  ∀ s t : State, step s = .next t →
    (s.run = false → t.run = true →
      ∃ is bs, s.inputs = .hostTurn :: is ∧ s.host = .ready ∧ decodeCommand s.hostIn = .command .init bs)
    ∧ (s.run = true → t.run = false → ∃ is, s.inputs = .reset :: is)

/-- READY goes from 0 to 1 only in a tick that ends a multiplex cycle, the one that drives phase 9 with the row counter
at 1 and the cycle counter at 1 (R44, R144, R306). -/
def Obligations.ReadySetOnlyAtCycleEnd : Prop :=
  ∀ s t : State, step s = .next t → s.ready = false → t.ready = true →
    ∃ sw is, s.inputs = .tick sw :: is ∧ s.run = true ∧ s.rowdiv = 1 ∧ s.rphase = 9 ∧ s.swapCnt = 1

/-- No step faults: the block has no exception (R340, R342), so a step goes on or is refused. -/
def Obligations.StepsGoOnOrAreRefused : Prop :=
  ∀ s : State, (∃ t, step s = .next t) ∨ (∃ r, step s = .refused r ∧
    ((∃ n, r = .reservedNote n) ∨ (∃ d, r = .reservedDuration d) ∨ (∃ op, r = .reservedOpcode op)
      ∨ r = .swapIntervalZero ∨ ∃ v, r = .envelopeSustainOutOfRange v))

/-! ### Reset and init -/

/-- After reset every register holds the value of the table of R68. -/
def Obligations.ResetLeavesTableValues : Prop :=
  ∀ c : Config,
    let s := State.resetWith c
    s.phase = 0 ∧ s.pdelta = 0x0100 ∧ s.pwmNext = 0 ∧ s.pwmLevel = 0 ∧ s.env = 0 ∧ s.envDelta = 0
    ∧ s.atkStart = 0 ∧ s.decStart = 0 ∧ s.susStart = 0 ∧ s.relStart = 0 ∧ s.sAct = 0 ∧ s.rem = 0
    ∧ s.note = c.noteEnd ∧ s.cursor = 0 ∧ s.loopStart = 0
    ∧ s.playing = false ∧ s.loop = false ∧ s.ready = false ∧ s.pwmEn = false ∧ s.run = false
    ∧ s.envA = c.envReset.a ∧ s.envD = c.envReset.d ∧ s.envS = c.envReset.s ∧ s.envR = c.envReset.r
    ∧ s.wsel = c.wselReset ∧ s.swapInterval = c.swapIntervalReset ∧ s.swapCnt = c.swapIntervalReset
    ∧ s.color = c.colorReset ∧ s.rowdiv = 20 ∧ s.rphase = 0 ∧ (∀ i : Fin 10, s.readRow i = 0)
    ∧ s.level = 0 ∧ s.edge = 0 ∧ s.held = 0 ∧ s.event = 0 ∧ s.rowOut = 0 ∧ s.colEn = 0 ∧ s.swScan = false

/-- The reset event puts every register to its reset value, whatever the state, and leaves song memory as it is; that a
command in progress and the bytes received are lost is the model's own choice (assumption log 6). -/
def Obligations.ResetEventRestoresRegisters : Prop :=
  ∀ (s : State) (is : List Input),
    step { s with inputs := .reset :: is } =
      .next { State.resetWith s.cfg with
        song := s.song, inputs := is, replies := s.replies, trace := s.trace, draws := s.draws }

/-- init() in every state: the ports, the scheduler counters, the swap state, the framebuffer, the tick enable and the
audio defaults, as one step that touches nothing else; so from reset it leaves every register at its reset value except
RUN = 1 (R372, R303, R310). -/
def Obligations.InitSetsEveryDefault : Prop :=
  (∀ s : State, exec .init s = .next { s with
    rowOut := 0, colEn := 0, swScan := false, rowdiv := 20, rphase := 0
    swapInterval := s.cfg.swapIntervalReset, swapCnt := s.cfg.swapIntervalReset, ready := false
    fb := Vector.replicate 10 0, run := true
    playing := false, pwmEn := false, loop := false, wsel := s.cfg.wselReset
    envA := s.cfg.envReset.a, envD := s.cfg.envReset.d, envS := s.cfg.envReset.s, envR := s.cfg.envReset.r
    loopStart := 0, note := s.cfg.noteEnd
    trace := s.trace ++ [.rowOut 0, .columnsOff, .swScan false, .pwmEnable false] })
  ∧ ∀ c : Config, exec .init (State.resetWith c) = .next { State.resetWith c with
      run := true, trace := [.rowOut 0, .columnsOff, .swScan false, .pwmEnable false] }

/-! ### Drawing -/

/-- setColor takes bits 1..0 of its operand byte and writes COLOR alone; getColor replies the colour zero-extended to a
byte and changes no register (R290, R291). -/
def Obligations.ColourCommandsWriteAndRead : Prop :=
  ∀ (s : State) (b : Byte) (bs : List Byte),
    (∃ c : Colour, decodeCommand (0x10#8 :: b :: bs) = .command (.setColor c) bs ∧ c.toNat = b.toNat % 4
      ∧ exec (.setColor c) s = .next { s with color := c })
    ∧ ∃ v : Byte, v.toNat = s.color.toNat ∧ exec .getColor s = .next { s with replies := s.replies ++ [v] }

/-- clearDisplay writes 0x00 to the ten rows, FB[0] first and FB[9] last, one row a step, and changes nothing else; the
command is over after the tenth (R292). -/
def Obligations.ClearDisplayRowByRow : Prop :=
  ∀ (s : State) (k : Nat), k ≤ 9 → ∃ t₀ t, exec .clearDisplay s = .next t₀ ∧ hostTurns k t₀ = .next t
    ∧ t = { s with fb := t.fb, host := t.host }
    ∧ (∀ i : Fin 10, t.readRow i = if i.val ≤ k then 0 else s.readRow i)
    ∧ (t.host = .ready ↔ k = 9)

/-- drawPoint inside the grid: the green row is updated in its first step and the red row in its second, each to
`(row & ~(1 << x)) | (COLOR bit << x)`, and nothing else changes; the second step does so from whatever state it finds,
so also after ticks that fell between the two; outside x in 0..6, y in 0..4, the operands read as
signed bytes, it changes nothing (R293, R296, R298). The operand bytes of the grid's columns and lines are those numbers
themselves. -/
def Obligations.DrawPointWritesGreenThenRed : Prop :=
  ∀ s : State,
    (∀ (x : Fin 7) (y : Fin 5),
      let bit (on : Bool) (row : Byte) : Byte :=
        (row &&& ~~~(1#8 <<< x.val)) ||| ((BitVec.ofBool on).setWidth 8 <<< x.val)
      ∃ t₁ t₂, exec (.drawPoint (BitVec.ofNat 8 x.val) (BitVec.ofNat 8 y.val)) s = .next t₁ ∧ hostTurn t₁ = .next t₂
        ∧ t₁ = { s with
            fb := s.fb.set y.val (bit (s.color.getLsbD 1) s.fb[y.val])
            host := .drawing (.plot .red x y) [] }
        ∧ t₂ = { t₁ with
            fb := t₁.fb.set (5 + y.val) (bit (s.color.getLsbD 0) t₁.fb[5 + y.val])
            host := .ready }
        ∧ ∀ u : State, u.host = .drawing (.plot .red x y) [] → hostTurn u = .next { u with
            fb := u.fb.set (5 + y.val) (bit (u.color.getLsbD 0) u.fb[5 + y.val])
            host := .ready })
    ∧ ∀ x y : Coord, ¬((0 ≤ x.toInt ∧ x.toInt ≤ 6) ∧ (0 ≤ y.toInt ∧ y.toInt ≤ 4)) →
        exec (.drawPoint x y) s = .next s

/-- After both steps of drawPoint the pixel has the current colour, every other pixel keeps its own, and bit 7 of every
row is as it was (R293, R297). -/
def Obligations.DrawnPixelTakesColour : Prop :=
  ∀ (s : State) (x : Fin 7) (y : Fin 5), ∃ t₁ t,
    exec (.drawPoint (BitVec.ofNat 8 x.val) (BitVec.ofNat 8 y.val)) s = .next t₁ ∧ hostTurn t₁ = .next t
    ∧ (∀ (x' : Fin 7) (y' : Fin 5), t.pixel x' y' = if x' = x ∧ y' = y then s.color else s.pixel x' y')
    ∧ ∀ i : Fin 10, (t.readRow i).getLsbD 7 = (s.readRow i).getLsbD 7

/-- readPixel replies the pixel's colour, bit 1 its green row's bit and bit 0 its red row's bit, and changes no register
(R294); a clipped read replies the next free colour, one of 0..3, zero-extended, and changes no register. That the free
colours are drawn one after the other by the counter `draws`, which the read advances, is the model's own form of
`any(2)` (assumption log 4). -/
def Obligations.ReadPixelReplies : Prop :=
  ∀ s : State,
    (∀ (x : Fin 7) (y : Fin 5), ∃ v : Byte,
      exec (.readPixel (BitVec.ofNat 8 x.val) (BitVec.ofNat 8 y.val)) s = .next { s with replies := s.replies ++ [v] }
      ∧ v.toNat = 2 * (s.fb[y.val].getLsbD x.val).toNat + (s.fb[5 + y.val].getLsbD x.val).toNat)
    ∧ ∀ x y : Coord, ¬((0 ≤ x.toInt ∧ x.toInt ≤ 6) ∧ (0 ≤ y.toInt ∧ y.toInt ≤ 4)) → ∃ v : Byte, v.toNat ≤ 3
      ∧ v.toNat = (Config.freePixel s.draws).toNat
      ∧ exec (.readPixel x y) s = .next { s with replies := s.replies ++ [v], draws := s.draws + 1 }

/-- The integers from a to b, ascending; none if a > b. -/
def intsUpTo (a b : Int) : List Int := (List.range (b + 1 - a).toNat).map fun k => a + (k : Int)

/-- The row updates of the drawPoint calls of R295's two loops, in their order, the clipped points included. -/
def loopWrites (x1 y1 x2 y2 : Int) : List RowWrite :=
  (intsUpTo y1 y2).flatMap fun y => (intsUpTo x1 x2).flatMap fun x => pointWrites x y

/-- drawFilledRect takes the row updates of the drawPoint calls of R295's two loops in the loops' order, over every point of
the rectangle: with none it changes nothing, and otherwise its first step is the HOST turn that takes the first of them
and leaves the others, in that order, for the turns after it, whatever ticks fall between. A point of the grid has its
green and then its red row update, any other point none (R293). That the row updates to come are kept in the field `host`
is the model's own form (assumption log 10). -/
def Obligations.RectangleIsTheLoopOfPoints : Prop :=
  (∀ x1 y1 x2 y2 : Int, rectWrites x1 y1 x2 y2 = loopWrites x1 y1 x2 y2)
  ∧ (∀ (x : Fin 7) (y : Fin 5), pointWrites x.val y.val = [.plot .green x y, .plot .red x y])
  ∧ (∀ x y : Int, ¬((0 ≤ x ∧ x ≤ 6) ∧ (0 ≤ y ∧ y ≤ 4)) → pointWrites x y = [])
  ∧ ∀ (s : State) (x1 y1 x2 y2 : Coord),
    (loopWrites x1.toInt y1.toInt x2.toInt y2.toInt = [] → exec (.drawFilledRect x1 y1 x2 y2) s = .next s)
    ∧ ∀ w ws, loopWrites x1.toInt y1.toInt x2.toInt y2.toInt = w :: ws → ∃ t,
        exec (.drawFilledRect x1 y1 x2 y2) s = .next t ∧ hostTurn { s with host := .drawing w ws } = .next t

/-- drawFilledRect, run to its end with no tick in between: exactly the pixels with x1 <= x <= x2 and y1 <= y <= y2 take
the current colour, the operands read as signed bytes, in two row writes for each pixel inside the grid; nothing but the
framebuffer changes (R295). -/
def Obligations.RectangleColoursExactlyItsPixels : Prop :=
  ∀ (s : State) (x1 y1 x2 y2 : Coord), s.host = .ready →
    let xs := (List.finRange 7).filter fun x => x1.toInt ≤ (x.val : Int) ∧ (x.val : Int) ≤ x2.toInt
    let ys := (List.finRange 5).filter fun y => y1.toInt ≤ (y.val : Int) ∧ (y.val : Int) ≤ y2.toInt
    ∃ t₀ t, exec (.drawFilledRect x1 y1 x2 y2) s = .next t₀
      ∧ hostTurns (2 * xs.length * ys.length - 1) t₀ = .next t
      ∧ t = { s with fb := t.fb }
      ∧ ∀ (x : Fin 7) (y : Fin 5), t.pixel x y = if x ∈ xs ∧ y ∈ ys then s.color else s.pixel x y

/-! ### Frame synchronisation -/

/-- initSwapBuffers sets the interval and the cycle counter to the configured interval and clears READY; setSwapInterval
writes the interval alone, and an interval of 0 is refused by name (R303, R304, R113). -/
def Obligations.SwapIntervalCommands : Prop :=
  ∀ s : State,
    exec .initSwapBuffers s = .next { s with
      swapInterval := s.cfg.swapIntervalReset, swapCnt := s.cfg.swapIntervalReset, ready := false }
    ∧ (∀ n : Byte, n ≠ 0 → exec (.setSwapInterval n) s = .next { s with swapInterval := n })
    ∧ exec (.setSwapInterval 0) s = .refused .swapIntervalZero

/-! ### Audio control -/

/-- initAudio sets the audio defaults and nothing else (R310). -/
def Obligations.InitAudioSetsDefaults : Prop :=
  ∀ s : State, exec .initAudio s = .next { s with
    playing := false, pwmEn := false, loop := false, wsel := s.cfg.wselReset
    envA := s.cfg.envReset.a, envD := s.cfg.envReset.d, envS := s.cfg.envReset.s, envR := s.cfg.envReset.r
    loopStart := 0, note := s.cfg.noteEnd, trace := s.trace ++ [.pwmEnable false] }

/-- setWaveTable selects table id for id 0, 1, 2 and changes nothing for 3..255; PHASE and PWM_NEXT are not touched
(R311). -/
def Obligations.SetWaveTableSelectsOrIgnores : Prop :=
  ∀ (s : State) (id : Byte),
    (∀ w : Fin 3, id.toNat = w.val → exec (.setWaveTable id) s = .next { s with wsel := w })
    ∧ (3 ≤ id.toNat → exec (.setWaveTable id) s = .next s)

/-- setEnvelope: operands with a + d + r >= 256 (the sum not truncated) or d >= 64 change nothing; acceptable ones with
s < 64 write the four control bytes and nothing else; acceptable ones with s >= 64 are refused by name (R205, R206). -/
def Obligations.SetEnvelopeChecksOperands : Prop :=
  ∀ (s : State) (a d sus r : Byte),
    (256 ≤ a.toNat + d.toNat + r.toNat ∨ 64 ≤ d.toNat → exec (.setEnvelope a d sus r) s = .next s)
    ∧ (a.toNat + d.toNat + r.toNat < 256 → d.toNat < 64 → sus.toNat < 64 →
        exec (.setEnvelope a d sus r) s = .next { s with envA := a, envD := d, envS := sus, envR := r })
    ∧ (a.toNat + d.toNat + r.toNat < 256 → d.toNat < 64 → 64 ≤ sus.toNat →
        exec (.setEnvelope a d sus r) s = .refused (.envelopeSustainOutOfRange sus))

/-- loopSong writes LOOP alone: 1 for any non-zero operand byte, 0 for 0 (R227); isAudioPlaying replies 0x01 if
PLAYING = 1, else 0x00, and changes no register (R320). -/
def Obligations.LoopFlagAndPlayingStatus : Prop :=
  ∀ s : State,
    (∀ (b : Byte) (bs : List Byte), ∃ flag : Bool, (flag = true ↔ b ≠ 0)
      ∧ decodeCommand (0x24#8 :: b :: bs) = .command (.loopSong flag) bs
      ∧ exec (.loopSong flag) s = .next { s with loop := flag })
    ∧ (s.playing = true → exec .isAudioPlaying s = .next { s with replies := s.replies ++ [0x01] })
    ∧ (s.playing = false → exec .isAudioPlaying s = .next { s with replies := s.replies ++ [0x00] })

/-! ### Sequencer -/

/-- What loading a record of duration `dur` leaves in REM, the breakpoints and S_ACT, computed from the control bytes of
s (R191, R220). With control bytes that are not legal, which no run reaches (R50), a difference can be negative; that it
wraps at 16 bits there is the model's own choice (assumption log 14). -/
def DurationLoaded (s t : State) (dur : Word) : Prop :=
  t.rem = dur ∧ t.atkStart = dur
    ∧ t.decStart = t.atkStart - BitVec.ofNat 16 (dur.toNat * s.envA.toNat / 256)
    ∧ t.susStart = t.decStart - BitVec.ofNat 16 (dur.toNat * s.envD.toNat / 256)
    ∧ t.relStart = BitVec.ofNat 16 (dur.toNat * s.envR.toNat / 256)
    ∧ t.sAct = s.envS

/-- The end sentinel sets NOTE and advances CURSOR by 2, whatever its duration byte, and changes nothing else (R222). -/
def Obligations.EndSentinelOnlySetsNote : Prop :=
  ∀ (s : State) (d : Byte),
    exec (.endMark d) s = .next { s with note := s.cfg.noteEnd, cursor := s.cursor + 2 }

/-- A rest with a duration identifier 0..47 loads its duration; its delta is its note table entry when CFG.NOTE_REST is
at most 36 and the previous delta otherwise (R223); a larger duration byte is refused by name (R112). The breakpoints under illegal control bytes are the
model's own choice (assumption log 14). -/
def Obligations.RestLoadsDuration : Prop :=
  ∀ (s : State) (d : Byte),
    (∀ h : d.toNat < 48, ∃ t, exec (.rest d) s = .next t
      ∧ t.note = s.cfg.noteRest ∧ t.cursor = s.cursor + 2 ∧ DurationLoaded s t s.cfg.durTable[d.toNat]
      ∧ (∀ hn : s.cfg.noteRest.toNat < 37, t.pdelta = s.cfg.noteTable[s.cfg.noteRest.toNat])
      ∧ (37 ≤ s.cfg.noteRest.toNat → t.pdelta = s.pdelta)
      ∧ t = { s with note := t.note, cursor := t.cursor, pdelta := t.pdelta, rem := t.rem, atkStart := t.atkStart
                     decStart := t.decStart, susStart := t.susStart, relStart := t.relStart, sAct := t.sAct })
    ∧ (48 ≤ d.toNat → exec (.rest d) s = .refused (.reservedDuration d))

/-- A pitched note with a note identifier 0..36 and a duration identifier 0..47 loads its delta and its duration from
the two tables (R220, R224, R115); a note byte above 36 is refused before the duration byte is looked at, and a larger
duration byte is refused by name (R112, R221). The breakpoints under illegal control bytes are the model's own choice
(assumption log 14). -/
def Obligations.NoteLoadsDeltaAndDuration : Prop :=
  ∀ (s : State) (n d : Byte),
    (∀ (hn : n.toNat < 37) (hd : d.toNat < 48), ∃ t, exec (.note n d) s = .next t
      ∧ t.note = n ∧ t.cursor = s.cursor + 2 ∧ t.pdelta = s.cfg.noteTable[n.toNat]
      ∧ DurationLoaded s t s.cfg.durTable[d.toNat]
      ∧ t = { s with note := t.note, cursor := t.cursor, pdelta := t.pdelta, rem := t.rem, atkStart := t.atkStart
                     decStart := t.decStart, susStart := t.susStart, relStart := t.relStart, sAct := t.sAct })
    ∧ (37 ≤ n.toNat → exec (.note n d) s = .refused (.reservedNote n))
    ∧ (n.toNat < 37 → 48 ≤ d.toNat → exec (.note n d) s = .refused (.reservedDuration d))

/-- playSong: the null address changes nothing; any other address stops playback, records the address, loads the record
there, sets PHASE to 0 and PWM_NEXT to the active wavetable's first sample, and plays unless that record is the end
sentinel; nothing else changes (R225, R226). The record is the two bytes at the address (R110); a reserved note or duration byte
is refused by name, the note byte first (R112). The breakpoints under illegal control bytes are the model's own choice
(assumption log 14). -/
def Obligations.PlaySongStartsAtAddress : Prop :=
  ∀ (s : State) (seq : Word),
    let n := s.songByte seq
    let d := s.songByte (seq + 1)
    exec (.playSong 0) s = .next s
    ∧ (seq ≠ 0 → n = s.cfg.noteEnd → exec (.playSong seq) s = .next { s with
        playing := false, pwmEn := false, cursor := seq + 2, loopStart := seq, note := n, phase := 0
        pwmNext := s.cfg.wave[s.wsel.val][0]
        trace := s.trace ++ [.pwmEnable false, .songRead seq, .songRead (seq + 1)] })
    ∧ (seq ≠ 0 → n ≠ s.cfg.noteEnd → (n.toNat < 37 ∨ n = s.cfg.noteRest) → ∀ hd : d.toNat < 48,
        ∃ t, exec (.playSong seq) s = .next t
          ∧ t.playing = true ∧ t.pwmEn = false ∧ t.cursor = seq + 2 ∧ t.loopStart = seq ∧ t.note = n
          ∧ DurationLoaded s t s.cfg.durTable[d.toNat]
          ∧ (∀ hn : n.toNat < 37, t.pdelta = s.cfg.noteTable[n.toNat]) ∧ (37 ≤ n.toNat → t.pdelta = s.pdelta)
          ∧ t.phase = 0 ∧ t.pwmNext = s.cfg.wave[s.wsel.val][0]
          ∧ t = { s with
              note := t.note, cursor := t.cursor, pdelta := t.pdelta, rem := t.rem, atkStart := t.atkStart
              decStart := t.decStart, susStart := t.susStart, relStart := t.relStart, sAct := t.sAct
              playing := t.playing, pwmEn := t.pwmEn, loopStart := t.loopStart, phase := t.phase
              pwmNext := t.pwmNext
              trace := s.trace ++ [.pwmEnable false, .songRead seq, .songRead (seq + 1)] })
    ∧ (seq ≠ 0 → n ≠ s.cfg.noteEnd → n ≠ s.cfg.noteRest → 37 ≤ n.toNat →
        exec (.playSong seq) s = .refused (.reservedNote n))
    ∧ (seq ≠ 0 → n ≠ s.cfg.noteEnd → (n.toNat < 37 ∨ n = s.cfg.noteRest) → 48 ≤ d.toNat →
        exec (.playSong seq) s = .refused (.reservedDuration d))

/-- With the control bytes legal, the breakpoints of any note of at least one tick are in the order of R192, with at
least one sustain tick, and the four segments make up the note exactly. -/
def Obligations.BreakpointsInOrder : Prop :=
  ∀ s : State, (EnvBytes.mk s.envA s.envD s.envS s.envR).legal = true → 1 ≤ s.rem.toNat →
    let t := s.setBreakpoints
    t.atkStart.toNat = s.rem.toNat ∧ t.decStart.toNat ≤ t.atkStart.toNat ∧ t.susStart.toNat ≤ t.decStart.toNat
    ∧ t.relStart.toNat < t.susStart.toNat
    ∧ (t.atkStart.toNat - t.decStart.toNat) + (t.decStart.toNat - t.susStart.toNat)
        + (t.susStart.toNat - t.relStart.toNat) + t.relStart.toNat = s.rem.toNat

/-! ### Buttons -/

/-- handleButtons: the first button in the order A, B, C, D that is pressed and not held becomes held and has its event
flag set, and the lower-priority ones are left alone; with no such button the held flags are refreshed from the level
mask and the events stay (R275, R280). -/
def Obligations.HandleButtonsByPriority : Prop :=
  ∀ s : State,
    let fresh (i : Fin 4) : Prop := s.held.getLsbD i.val = false ∧ s.level.getLsbD i.val = true
    (∀ i : Fin 4, fresh i → (∀ j : Fin 4, j < i → ¬fresh j) → ∃ t, exec .handleButtons s = .next t
      ∧ t = { s with held := t.held, event := t.event }
      ∧ ∀ j : Fin 4, t.held.getLsbD j.val = (if j = i then true else s.held.getLsbD j.val)
          ∧ t.event.getLsbD j.val = (if j = i then true else s.event.getLsbD j.val))
    ∧ ((∀ i : Fin 4, ¬fresh i) → exec .handleButtons s = .next { s with held := s.level })

/-- readButtons replies {EVENT, HELD} and {EDGE, LEVEL} and changes no register; clearEvents and clearEdges clear the
chosen bits of their mask alone, the upper four bits of the operand byte ignored (R277, R278, R279). -/
def Obligations.ButtonFlagAccess : Prop :=
  ∀ s : State,
    (∃ b0 b1 : Byte, exec .readButtons s = .next { s with replies := s.replies ++ [b0, b1] }
      ∧ b0.toNat = 16 * s.event.toNat + s.held.toNat ∧ b1.toNat = 16 * s.edge.toNat + s.level.toNat)
    ∧ (∀ (b : Byte) (bs : List Byte), ∃ m : Mask, m.toNat = b.toNat % 16
        ∧ decodeCommand (0x32#8 :: b :: bs) = .command (.clearEvents m) bs
        ∧ decodeCommand (0x33#8 :: b :: bs) = .command (.clearEdges m) bs)
    ∧ ∀ m : Mask,
        (∃ t, exec (.clearEvents m) s = .next t ∧ t = { s with event := t.event }
          ∧ ∀ j : Fin 4, t.event.getLsbD j.val = (s.event.getLsbD j.val && !m.getLsbD j.val))
        ∧ ∃ t, exec (.clearEdges m) s = .next t ∧ t = { s with edge := t.edge }
          ∧ ∀ j : Fin 4, t.edge.getLsbD j.val = (s.edge.getLsbD j.val && !m.getLsbD j.val)

/-- BUTTON_LATCH samples the switches while SW_SCAN is 1, stores them as the level mask, and adds to EDGE exactly the
buttons pressed now and not at the previous sample; it clears no bit of EDGE (R270, R272). -/
def Obligations.ButtonLatchAddsRisingEdges : Prop :=
  ∀ (s : State) (sw : Mask),
    let t := s.buttonLatch sw
    t = { s with
      level := sw, edge := t.edge, swScan := false
      trace := s.trace ++ [.swScan true, .switchSample sw, .swScan false] }
    ∧ ∀ j : Fin 4, t.edge.getLsbD j.val = (s.edge.getLsbD j.val || (!s.level.getLsbD j.val && sw.getLsbD j.val))

/-! ### Tick scheduler and multiplexer -/

/-- Before init has set RUN a tick changes nothing (R141), and while Idle a tick changes nothing of the audio engine:
it is the row counter's work alone (R142, R161). -/
def Obligations.TicksBeforeInitAndWhileIdle : Prop :=
  ∀ (s : State) (sw : Mask),
    (s.run = false → tick sw s = .next s)
    ∧ (s.run = true → s.playing = false → tick sw s = .next (s.rowStep sw)
        ∧ s.rowStep sw = { s with
            ready := (s.rowStep sw).ready, rowdiv := (s.rowStep sw).rowdiv, rphase := (s.rowStep sw).rphase
            swapCnt := (s.rowStep sw).swapCnt, level := (s.rowStep sw).level, edge := (s.rowStep sw).edge
            rowOut := (s.rowStep sw).rowOut, colEn := (s.rowStep sw).colEn, swScan := (s.rowStep sw).swScan
            trace := (s.rowStep sw).trace })

/-- The row counter of a tick: above 1 it only counts down; at 1 it returns to 20 and one multiplexer step runs at the
phase held before the increment, which then advances by 1, from 9 to 0 (R140, R142, R143). At ROWDIV = 0, which no run
reaches (R54), the spec gives no value; that it wraps to 31 there is the model's own choice (assumption log 14). -/
def Obligations.EveryTwentiethTickDrivesNextPhase : Prop :=
  ∀ (s : State) (sw : Mask),
    (s.rowdiv.toNat ≠ 1 → s.rowStep sw = { s with rowdiv := s.rowdiv - 1 })
    ∧ (s.rowdiv.toNat = 1 → (s.rowStep sw).rowdiv = 20
        ∧ (s.rowStep sw).rphase.val = (s.rphase.val + 1) % 10
        ∧ (s.rowStep sw).trace = (s.muxStep sw s.rphase).trace
        ∧ (s.rowStep sw).rowOut = (s.muxStep sw s.rphase).rowOut
        ∧ (s.rowStep sw).colEn = (s.muxStep sw s.rphase).colEn
        ∧ (s.rowStep sw).level = (s.muxStep sw s.rphase).level
        ∧ (s.rowStep sw).edge = (s.muxStep sw s.rphase).edge
        ∧ (s.rphase.val ≠ 9 → (s.rowStep sw).swapCnt = s.swapCnt ∧ (s.rowStep sw).ready = s.ready))

/-- The end of a multiplex cycle: the cycle counter counts down; at zero it is reloaded with the interval and READY is
set, and otherwise READY keeps its value (R144). -/
def Obligations.CycleEndCountsAndSignals : Prop :=
  ∀ (s : State) (sw : Mask), s.rowdiv.toNat = 1 → s.rphase.val = 9 →
    (s.swapCnt.toNat = 1 → (s.rowStep sw).swapCnt = s.swapInterval ∧ (s.rowStep sw).ready = true)
    ∧ (s.swapCnt.toNat ≠ 1 → (s.rowStep sw).swapCnt = s.swapCnt - 1 ∧ (s.rowStep sw).ready = s.ready)

/-- MUX_STEP's port actions and their order: the previous driver off; on phase 0 the rows dark and BUTTON_LATCH, and on
no other phase; the row pattern of FB[p], with bit 7 also set when bit 0 is; driver p on. It reads one framebuffer row and
writes none (R250, R253). -/
def Obligations.MuxStepPortOrder : Prop :=
  ∀ (s : State) (sw : Mask) (p prev : Fin 10), prev.val = (p.val + 9) % 10 →
    let out : Byte := s.fb[p.val] ||| (if s.fb[p.val].getLsbD 0 then 0x80#8 else 0x00#8)
    let t := s.muxStep sw p
    t.trace = s.trace ++ [.columnOff prev]
        ++ (if p.val = 0 then [.rowOut 0, .swScan true, .switchSample sw, .swScan false] else [])
        ++ [.rowOut out, .columnOn p]
    ∧ t.rowOut = out
    ∧ (∀ q : Fin 10, t.colEn.getLsbD q.val = (if q = p then true else if q = prev then false else s.colEn.getLsbD q.val))
    ∧ (p.val = 0 → t.level = (s.buttonLatch sw).level ∧ t.edge = (s.buttonLatch sw).edge
        ∧ t.swScan = (s.buttonLatch sw).swScan)
    ∧ (p.val ≠ 0 → t.level = s.level ∧ t.edge = s.edge ∧ t.swScan = s.swScan)
    ∧ t = { s with
        rowOut := t.rowOut, colEn := t.colEn, level := t.level, edge := t.edge, swScan := t.swScan, trace := t.trace }

/-- From the start of a cycle with one cycle to go, whatever plays and whatever the switches read, 200 ticks bring the
row-phase counter back to 0 and set READY, and no earlier tick changes READY (R147). -/
def Obligations.TwoHundredTicksMakeOneCycle : Prop :=
  ∀ (s : State) (sws : List Mask), s.run = true → s.rowdiv = 20 → s.rphase = 0 → s.swapCnt = 1 →
    (∀ t, sws.length = 200 → ticks sws s = .next t →
      t.rphase = 0 ∧ t.rowdiv = 20 ∧ t.swapCnt = t.swapInterval ∧ t.ready = true)
    ∧ (∀ t, sws.length < 200 → ticks sws s = .next t → t.ready = s.ready)

/-! ### Audio arithmetic -/

/-- The phase advance, as one number, is the sum modulo 8192: the fraction carries into the integer part, which wraps
modulo 32 (R167). So the accumulator never leaves the 32 samples of the table, whatever it and the delta hold, and 32
advances by a delta whose fraction is 0 bring it back to where it started (R175). -/
def Obligations.PhaseAdvanceWrapsInTable : Prop :=
  (∀ p d : Fixed, (phaseAdvance p d).toNat = (p.toNat + d.toNat) % 8192)
  ∧ (∀ p d : Fixed, (intPart (phaseAdvance p d)).toNat ≤ 31)
  ∧ ∀ p d : Fixed, (intPart p).toNat ≤ 31 → fracPart d = 0 → (fun q => phaseAdvance q d)^[32] p = p

/-- Interpolation of two samples of 0..49: the exact value lies between 256 times the smaller and 256 times the larger,
so the clamp at 0 changes nothing; the rounded sample is the nearest integer, half up, and lies between the two samples
(R168, R169, R170). -/
def Obligations.InterpolationRoundsBetweenSamples : Prop :=
  ∀ s0 s1 f : Byte, s0.toNat ≤ 49 → s1.toNat ≤ 49 →
    let t : Int := s0.toNat * 256 + ((s1.toNat : Int) - s0.toNat) * f.toNat
    256 * (min s0.toNat s1.toNat : Int) ≤ t ∧ t ≤ 256 * (max s0.toNat s1.toNat : Int)
    ∧ (256 * (interpolate s0 s1 f : Int) - 128 ≤ t ∧ t < 256 * (interpolate s0 s1 f : Int) + 128)
    ∧ min s0.toNat s1.toNat ≤ interpolate s0 s1 f ∧ interpolate s0 s1 f ≤ max s0.toNat s1.toNat

/-- The level never exceeds the PWM top of 49; it is the sample itself at full scale and 0 at envelope 0 (R171, R172). -/
def Obligations.LevelStaysBelowTop : Prop :=
  ∀ interp e : Nat, interp ≤ 49 → e ≤ 64 →
    (levelProduct interp e).toNat = interp * e / 64 ∧ (levelProduct interp e).toNat ≤ 49
    ∧ (levelProduct interp 64).toNat = interp ∧ (levelProduct interp 0).toNat = 0

/-- Steps 2 to 5 of AUDIO_STEP from s to t: a pitched note enables the PWM and outputs the level computed in the previous
tick, a rest disables it and keeps the level; the two samples are those at the position before the advance and the
weight is the fraction after it; the new level is computed with this tick's envelope (R160, R163 to R166, R171). -/
def Synthesised (s t : State) : Prop :=
  (s.note ≠ s.cfg.noteRest → t.pwmEn = true ∧ t.pwmLevel = s.pwmNext)
    ∧ (s.note = s.cfg.noteRest → t.pwmEn = false ∧ t.pwmLevel = s.pwmLevel)
    ∧ t.phase = phaseAdvance s.phase s.pdelta
    ∧ t.env = s.envStep.env ∧ t.envDelta = s.envStep.envDelta
    ∧ ∀ i0 i1 : Fin 32, i0.val = (intPart s.phase).toNat % 32 → i1.val = (i0.val + 1) % 32 →
        t.pwmNext = levelProduct
          (interpolate s.cfg.wave[s.wsel.val][i0.val] s.cfg.wave[s.wsel.val][i1.val] (fracPart t.phase))
          (round8_8 t.env)

/-- The port actions of those steps: a pitched note enables the PWM and then outputs the level, a rest disables it
(R163 to R165). -/
def pwmActions (s : State) : List PortEvent :=
  if s.note = s.cfg.noteRest then [.pwmEnable false] else [.pwmEnable true, .pwmLevel s.pwmNext]

/-- A tick inside a note, with at least two ticks to go: AUDIO_STEP is the synthesis, its level not yet output, and the
counter down by one, and the row counter's work follows on the state it leaves; the note, its delta and the cursor stay
(R160, R163 to R166, R174, R140, R142). -/
def Obligations.SynthesisTickIsPipelined : Prop :=
  ∀ (s : State) (sw : Mask), s.run = true → s.playing = true → s.note ≠ s.cfg.noteEnd → 2 ≤ s.rem.toNat →
    ∃ u t, Synthesised s u
      ∧ u = { s with
          phase := u.phase, env := u.env, envDelta := u.envDelta, pwmNext := u.pwmNext, pwmLevel := u.pwmLevel
          pwmEn := u.pwmEn, rem := s.rem - 1, trace := s.trace ++ pwmActions s }
      ∧ tick sw s = .next t ∧ t = u.rowStep sw ∧ Synthesised s t
      ∧ t.rem = s.rem - 1 ∧ t.playing = true ∧ t.note = s.note ∧ t.pdelta = s.pdelta ∧ t.cursor = s.cursor

/-- The tick whose counter reaches zero: the synthesis, the counter at zero, then LOADNOTE in the same tick, and then the
row counter's work (R160 step 6, R173). -/
def Obligations.TickLoadsNextRecord : Prop :=
  ∀ (s : State) (sw : Mask), s.run = true → s.playing = true → s.note ≠ s.cfg.noteEnd → s.rem = 1 →
    ∃ u, Synthesised s u
      ∧ u = { s with
          phase := u.phase, env := u.env, envDelta := u.envDelta, pwmNext := u.pwmNext, pwmLevel := u.pwmLevel
          pwmEn := u.pwmEn, rem := 0, trace := s.trace ++ pwmActions s }
      ∧ tick sw s = andThen (loadNote u) fun t => .next (t.rowStep sw)

/-- The tick that finds the end sentinel as the current note: with LOOP = 1 and a known start address the song is started
again from that address, as playSong starts it, and otherwise PLAYING and PWM_EN are cleared; no synthesis (R162). -/
def Obligations.EndOfSongRestartsOrStops : Prop :=
  ∀ (s : State) (sw : Mask), s.run = true → s.playing = true → s.note = s.cfg.noteEnd →
    (s.loop = true → s.loopStart ≠ 0 →
      tick sw s = andThen (exec (.playSong s.loopStart) s) fun t => .next (t.rowStep sw))
    ∧ (s.loop = false ∨ s.loopStart = 0 →
      tick sw s = .next
        ({ s with playing := false, pwmEn := false, trace := s.trace ++ [PortEvent.pwmEnable false] }.rowStep sw))

/-! ### Envelope -/

/-- The envelope of a whole note: with legal control bytes and the breakpoints just computed for a note of `rem` ticks,
the value after tick k (the first is tick 0) is k + 1 attack slopes, or full scale less the decay slopes so far, or
exactly S, or S less the release slopes so far, each slope a quotient rounded toward zero (R194, R195, R197); rounded, it
is at most 64 (R202). -/
def Obligations.EnvelopeFollowsFourSegments : Prop :=
  ∀ (s : State) (k : Nat), (EnvBytes.mk s.envA s.envD s.envS s.envR).legal = true → k < s.rem.toNat →
    let b := s.setBreakpoints
    let t := envTicks (k + 1) b
    let atk := b.atkStart.toNat
    let dec := b.decStart.toNat
    let sus := b.susStart.toNat
    let rel := b.relStart.toNat
    let c := s.rem.toNat - k
    (dec < c → t.env.toNat = (atk - c + 1) * (16384 / (atk - dec)))
    ∧ (sus < c → c ≤ dec →
        t.env.toNat + (dec - c + 1) * ((64 - s.envS.toNat) * 256 / (dec - sus)) = 16384)
    ∧ (rel < c → c ≤ sus → t.env.toNat = s.envS.toNat * 256)
    ∧ (c ≤ rel → t.env.toNat + (rel - c + 1) * (s.envS.toNat * 256 / rel) = s.envS.toNat * 256)
    ∧ round8_8 t.env ≤ 64

/-- Tick by tick, in any state of the invariant with a note sounding: the rounded envelope does not fall inside the
attack, does not rise inside the decay and the release, is exactly S in the sustain, and never exceeds 64 (R202). -/
def Obligations.EnvelopeIsMonotone : Prop :=
  ∀ s : State, Inv s → s.playing = true → s.note ≠ s.cfg.noteEnd →
    let c := s.rem.toNat
    let t := s.envStep
    (s.decStart.toNat < c → c < s.atkStart.toNat → round8_8 s.env ≤ round8_8 t.env)
    ∧ (s.susStart.toNat < c → c < s.decStart.toNat → round8_8 t.env ≤ round8_8 s.env)
    ∧ (s.relStart.toNat < c → c ≤ s.susStart.toNat → round8_8 t.env = s.sAct.toNat)
    ∧ (c ≤ s.relStart.toNat → round8_8 t.env ≤ round8_8 s.env)
    ∧ round8_8 t.env ≤ 64

/-! ### Songs -/

/-- A song of one note or rest and the end sentinel, loop off: with T its duration in ticks, playback is active from
playSong on; after each of the ticks 1 to T it is still active and the PWM is enabled exactly if the record is no rest;
tick T loads the sentinel; and both are off after tick T + 1, whatever the switches read (R229). -/
def Obligations.SingleNoteSongLastsItsDuration : Prop :=
  ∀ (s : State) (seq : Word),
    let n := s.songByte seq
    let d := s.songByte (seq + 1)
    s.run = true → s.loop = false → seq ≠ 0 → n ≠ s.cfg.noteEnd → (n.toNat < 37 ∨ n = s.cfg.noteRest) →
    s.songByte (seq + 2) = s.cfg.noteEnd → ∀ hd : d.toNat < 48,
    ∃ t₀, exec (.playSong seq) s = .next t₀ ∧ t₀.playing = true ∧ ∀ sws : List Mask,
      (1 ≤ sws.length → sws.length ≤ s.cfg.durTable[d.toNat].toNat →
        ∃ t, ticks sws t₀ = .next t ∧ t.playing = true ∧ (t.pwmEn = true ↔ n ≠ s.cfg.noteRest)
          ∧ (t.note = s.cfg.noteEnd ↔ sws.length = s.cfg.durTable[d.toNat].toNat))
      ∧ (sws.length = s.cfg.durTable[d.toNat].toNat + 1 →
        ∃ t, ticks sws t₀ = .next t ∧ t.playing = false ∧ t.pwmEn = false)

/-- A song of two notes or rests and the end sentinel, loop on: one pass takes T1 + T2 + 1 ticks, the restart tick
included, and leaves the sequencer and the phase exactly as the start of the song left them, so that every pass
decodes the same records with no drift (R230). The delta too is as at the start, unless the first record is a rest with
no entry in the note table: such a rest keeps the delta of the note before it (R223), so the delta is then the one left
by the second record. -/
def Obligations.LoopedSongRepeatsWithoutDrift : Prop :=
  ∀ (s : State) (seq : Word),
    let n1 := s.songByte seq
    let d1 := s.songByte (seq + 1)
    let n2 := s.songByte (seq + 2)
    let d2 := s.songByte (seq + 3)
    s.run = true → s.loop = true → seq ≠ 0 →
    n1 ≠ s.cfg.noteEnd → (n1.toNat < 37 ∨ n1 = s.cfg.noteRest) →
    n2 ≠ s.cfg.noteEnd → (n2.toNat < 37 ∨ n2 = s.cfg.noteRest) →
    s.songByte (seq + 4) = s.cfg.noteEnd → ∀ (h1 : d1.toNat < 48) (h2 : d2.toNat < 48),
    ∃ t₀, exec (.playSong seq) s = .next t₀ ∧ ∀ sws : List Mask,
      sws.length = s.cfg.durTable[d1.toNat].toNat + s.cfg.durTable[d2.toNat].toNat + 1 →
      ∃ t, ticks sws t₀ = .next t
        ∧ t.note = t₀.note ∧ t.rem = t₀.rem ∧ t.cursor = t₀.cursor
        ∧ t.loopStart = t₀.loopStart ∧ t.playing = t₀.playing ∧ t.phase = t₀.phase ∧ t.pwmNext = t₀.pwmNext
        ∧ t.atkStart = t₀.atkStart ∧ t.decStart = t₀.decStart ∧ t.susStart = t₀.susStart
        ∧ t.relStart = t₀.relStart ∧ t.sAct = t₀.sAct
        ∧ (n1.toNat < 37 → t.pdelta = t₀.pdelta)
        ∧ (37 ≤ n1.toNat → ∀ h : n2.toNat < 37, t.pdelta = s.cfg.noteTable[n2.toNat])
        ∧ (37 ≤ n1.toNat → 37 ≤ n2.toNat → t.pdelta = t₀.pdelta)

/-! ### Invariants -/

/-- The invariants of R69, with what makes them inductive, hold after reset under every legal configuration. -/
def Obligations.InvariantAfterReset : Prop := ∀ c : Config, Inv (State.resetWith c)

/-- Every step of the machine, whatever its input, keeps the invariants of R69 and what makes them inductive: R69 holds
at every boundary between steps. -/
def Obligations.EveryStepKeepsInvariant : Prop := ∀ s t : State, Inv s → step s = .next t → Inv t

/-! ### Drawing between ticks -/

/-- A turn of the HOST agent inside a drawing command, from any state, so whatever ticks fell before it: one row update
and nothing else, after which it stands before the next one, or after the last one between two commands (R90 c, R293,
R295). Clearing a row leaves it 0x00 (R292); plotting a pixel sets bit x of row y (green) or 5 + y (red) to that plane's
bit of COLOR as it is now; every other bit of every row stays (R77, R93). That the HOST agent's place is kept in the field
`host` is the model's own form (assumption log 10). -/
def Obligations.DrawingTurnTakesNextRowWrite : Prop :=
  ∀ (s : State) (w : RowWrite) (ws : List RowWrite), s.host = .drawing w ws → ∃ t, hostTurn s = .next t
    ∧ t = { s with fb := t.fb, host := t.host }
    ∧ (ws = [] → t.host = .ready)
    ∧ (∀ v vs, ws = v :: vs → t.host = .drawing v vs)
    ∧ (∀ row, w = .clear row → ∀ i : Fin 10, t.fb[i.val] = if i = row then 0x00#8 else s.fb[i.val])
    ∧ (∀ x y, w = .plot .green x y → ∀ (i : Fin 10) (b : Nat), t.fb[i.val].getLsbD b =
        if i.val = y.val ∧ b = x.val then s.color.getLsbD 1 else s.fb[i.val].getLsbD b)
    ∧ (∀ x y, w = .plot .red x y → ∀ (i : Fin 10) (b : Nat), t.fb[i.val].getLsbD b =
        if i.val = 5 + y.val ∧ b = x.val then s.color.getLsbD 0 else s.fb[i.val].getLsbD b)
end

