-- ==== Sys2Proof/Laws/State.lean ====
section
/-! SUPPORT. For every named update of State, what each field is after it: one lemma per field and update, true by rfl.
A proof about fields cites these through simp and never unfolds an update. -/

namespace Sys2Proof.Machine

/-! ### readSong -/

@[simp] theorem State.readSong_phase (s : State) (a : Word) : (s.readSong a).phase = s.phase := rfl
@[simp] theorem State.readSong_pdelta (s : State) (a : Word) : (s.readSong a).pdelta = s.pdelta := rfl
@[simp] theorem State.readSong_pwmNext (s : State) (a : Word) : (s.readSong a).pwmNext = s.pwmNext := rfl
@[simp] theorem State.readSong_pwmLevel (s : State) (a : Word) : (s.readSong a).pwmLevel = s.pwmLevel := rfl
@[simp] theorem State.readSong_env (s : State) (a : Word) : (s.readSong a).env = s.env := rfl
@[simp] theorem State.readSong_envDelta (s : State) (a : Word) : (s.readSong a).envDelta = s.envDelta := rfl
@[simp] theorem State.readSong_atkStart (s : State) (a : Word) : (s.readSong a).atkStart = s.atkStart := rfl
@[simp] theorem State.readSong_decStart (s : State) (a : Word) : (s.readSong a).decStart = s.decStart := rfl
@[simp] theorem State.readSong_susStart (s : State) (a : Word) : (s.readSong a).susStart = s.susStart := rfl
@[simp] theorem State.readSong_relStart (s : State) (a : Word) : (s.readSong a).relStart = s.relStart := rfl
@[simp] theorem State.readSong_sAct (s : State) (a : Word) : (s.readSong a).sAct = s.sAct := rfl
@[simp] theorem State.readSong_rem (s : State) (a : Word) : (s.readSong a).rem = s.rem := rfl
@[simp] theorem State.readSong_note (s : State) (a : Word) : (s.readSong a).note = s.note := rfl
@[simp] theorem State.readSong_cursor (s : State) (a : Word) : (s.readSong a).cursor = s.cursor := rfl
@[simp] theorem State.readSong_loopStart (s : State) (a : Word) : (s.readSong a).loopStart = s.loopStart := rfl
@[simp] theorem State.readSong_playing (s : State) (a : Word) : (s.readSong a).playing = s.playing := rfl
@[simp] theorem State.readSong_loop (s : State) (a : Word) : (s.readSong a).loop = s.loop := rfl
@[simp] theorem State.readSong_ready (s : State) (a : Word) : (s.readSong a).ready = s.ready := rfl
@[simp] theorem State.readSong_pwmEn (s : State) (a : Word) : (s.readSong a).pwmEn = s.pwmEn := rfl
@[simp] theorem State.readSong_run (s : State) (a : Word) : (s.readSong a).run = s.run := rfl
@[simp] theorem State.readSong_envA (s : State) (a : Word) : (s.readSong a).envA = s.envA := rfl
@[simp] theorem State.readSong_envD (s : State) (a : Word) : (s.readSong a).envD = s.envD := rfl
@[simp] theorem State.readSong_envS (s : State) (a : Word) : (s.readSong a).envS = s.envS := rfl
@[simp] theorem State.readSong_envR (s : State) (a : Word) : (s.readSong a).envR = s.envR := rfl
@[simp] theorem State.readSong_wsel (s : State) (a : Word) : (s.readSong a).wsel = s.wsel := rfl
@[simp] theorem State.readSong_swapInterval (s : State) (a : Word) : (s.readSong a).swapInterval = s.swapInterval := rfl
@[simp] theorem State.readSong_color (s : State) (a : Word) : (s.readSong a).color = s.color := rfl
@[simp] theorem State.readSong_rowdiv (s : State) (a : Word) : (s.readSong a).rowdiv = s.rowdiv := rfl
@[simp] theorem State.readSong_rphase (s : State) (a : Word) : (s.readSong a).rphase = s.rphase := rfl
@[simp] theorem State.readSong_swapCnt (s : State) (a : Word) : (s.readSong a).swapCnt = s.swapCnt := rfl
@[simp] theorem State.readSong_fb (s : State) (a : Word) : (s.readSong a).fb = s.fb := rfl
@[simp] theorem State.readSong_level (s : State) (a : Word) : (s.readSong a).level = s.level := rfl
@[simp] theorem State.readSong_edge (s : State) (a : Word) : (s.readSong a).edge = s.edge := rfl
@[simp] theorem State.readSong_held (s : State) (a : Word) : (s.readSong a).held = s.held := rfl
@[simp] theorem State.readSong_event (s : State) (a : Word) : (s.readSong a).event = s.event := rfl
@[simp] theorem State.readSong_rowOut (s : State) (a : Word) : (s.readSong a).rowOut = s.rowOut := rfl
@[simp] theorem State.readSong_colEn (s : State) (a : Word) : (s.readSong a).colEn = s.colEn := rfl
@[simp] theorem State.readSong_swScan (s : State) (a : Word) : (s.readSong a).swScan = s.swScan := rfl
@[simp] theorem State.readSong_cfg (s : State) (a : Word) : (s.readSong a).cfg = s.cfg := rfl
@[simp] theorem State.readSong_song (s : State) (a : Word) : (s.readSong a).song = s.song := rfl
@[simp] theorem State.readSong_host (s : State) (a : Word) : (s.readSong a).host = s.host := rfl
@[simp] theorem State.readSong_hostIn (s : State) (a : Word) : (s.readSong a).hostIn = s.hostIn := rfl
@[simp] theorem State.readSong_replies (s : State) (a : Word) : (s.readSong a).replies = s.replies := rfl
@[simp] theorem State.readSong_trace (s : State) (a : Word) : (s.readSong a).trace = s.trace ++ [.songRead a] := rfl
@[simp] theorem State.readSong_inputs (s : State) (a : Word) : (s.readSong a).inputs = s.inputs := rfl
@[simp] theorem State.readSong_draws (s : State) (a : Word) : (s.readSong a).draws = s.draws := rfl

/-! ### writeSong -/

@[simp] theorem State.writeSong_phase (s : State) (a : Word) (b : Byte) : (s.writeSong a b).phase = s.phase := rfl
@[simp] theorem State.writeSong_pdelta (s : State) (a : Word) (b : Byte) : (s.writeSong a b).pdelta = s.pdelta := rfl
@[simp] theorem State.writeSong_pwmNext (s : State) (a : Word) (b : Byte) : (s.writeSong a b).pwmNext = s.pwmNext := rfl
@[simp] theorem State.writeSong_pwmLevel (s : State) (a : Word) (b : Byte) : (s.writeSong a b).pwmLevel = s.pwmLevel := rfl
@[simp] theorem State.writeSong_env (s : State) (a : Word) (b : Byte) : (s.writeSong a b).env = s.env := rfl
@[simp] theorem State.writeSong_envDelta (s : State) (a : Word) (b : Byte) : (s.writeSong a b).envDelta = s.envDelta := rfl
@[simp] theorem State.writeSong_atkStart (s : State) (a : Word) (b : Byte) : (s.writeSong a b).atkStart = s.atkStart := rfl
@[simp] theorem State.writeSong_decStart (s : State) (a : Word) (b : Byte) : (s.writeSong a b).decStart = s.decStart := rfl
@[simp] theorem State.writeSong_susStart (s : State) (a : Word) (b : Byte) : (s.writeSong a b).susStart = s.susStart := rfl
@[simp] theorem State.writeSong_relStart (s : State) (a : Word) (b : Byte) : (s.writeSong a b).relStart = s.relStart := rfl
@[simp] theorem State.writeSong_sAct (s : State) (a : Word) (b : Byte) : (s.writeSong a b).sAct = s.sAct := rfl
@[simp] theorem State.writeSong_rem (s : State) (a : Word) (b : Byte) : (s.writeSong a b).rem = s.rem := rfl
@[simp] theorem State.writeSong_note (s : State) (a : Word) (b : Byte) : (s.writeSong a b).note = s.note := rfl
@[simp] theorem State.writeSong_cursor (s : State) (a : Word) (b : Byte) : (s.writeSong a b).cursor = s.cursor := rfl
@[simp] theorem State.writeSong_loopStart (s : State) (a : Word) (b : Byte) : (s.writeSong a b).loopStart = s.loopStart := rfl
@[simp] theorem State.writeSong_playing (s : State) (a : Word) (b : Byte) : (s.writeSong a b).playing = s.playing := rfl
@[simp] theorem State.writeSong_loop (s : State) (a : Word) (b : Byte) : (s.writeSong a b).loop = s.loop := rfl
@[simp] theorem State.writeSong_ready (s : State) (a : Word) (b : Byte) : (s.writeSong a b).ready = s.ready := rfl
@[simp] theorem State.writeSong_pwmEn (s : State) (a : Word) (b : Byte) : (s.writeSong a b).pwmEn = s.pwmEn := rfl
@[simp] theorem State.writeSong_run (s : State) (a : Word) (b : Byte) : (s.writeSong a b).run = s.run := rfl
@[simp] theorem State.writeSong_envA (s : State) (a : Word) (b : Byte) : (s.writeSong a b).envA = s.envA := rfl
@[simp] theorem State.writeSong_envD (s : State) (a : Word) (b : Byte) : (s.writeSong a b).envD = s.envD := rfl
@[simp] theorem State.writeSong_envS (s : State) (a : Word) (b : Byte) : (s.writeSong a b).envS = s.envS := rfl
@[simp] theorem State.writeSong_envR (s : State) (a : Word) (b : Byte) : (s.writeSong a b).envR = s.envR := rfl
@[simp] theorem State.writeSong_wsel (s : State) (a : Word) (b : Byte) : (s.writeSong a b).wsel = s.wsel := rfl
@[simp] theorem State.writeSong_swapInterval (s : State) (a : Word) (b : Byte) : (s.writeSong a b).swapInterval = s.swapInterval := rfl
@[simp] theorem State.writeSong_color (s : State) (a : Word) (b : Byte) : (s.writeSong a b).color = s.color := rfl
@[simp] theorem State.writeSong_rowdiv (s : State) (a : Word) (b : Byte) : (s.writeSong a b).rowdiv = s.rowdiv := rfl
@[simp] theorem State.writeSong_rphase (s : State) (a : Word) (b : Byte) : (s.writeSong a b).rphase = s.rphase := rfl
@[simp] theorem State.writeSong_swapCnt (s : State) (a : Word) (b : Byte) : (s.writeSong a b).swapCnt = s.swapCnt := rfl
@[simp] theorem State.writeSong_fb (s : State) (a : Word) (b : Byte) : (s.writeSong a b).fb = s.fb := rfl
@[simp] theorem State.writeSong_level (s : State) (a : Word) (b : Byte) : (s.writeSong a b).level = s.level := rfl
@[simp] theorem State.writeSong_edge (s : State) (a : Word) (b : Byte) : (s.writeSong a b).edge = s.edge := rfl
@[simp] theorem State.writeSong_held (s : State) (a : Word) (b : Byte) : (s.writeSong a b).held = s.held := rfl
@[simp] theorem State.writeSong_event (s : State) (a : Word) (b : Byte) : (s.writeSong a b).event = s.event := rfl
@[simp] theorem State.writeSong_rowOut (s : State) (a : Word) (b : Byte) : (s.writeSong a b).rowOut = s.rowOut := rfl
@[simp] theorem State.writeSong_colEn (s : State) (a : Word) (b : Byte) : (s.writeSong a b).colEn = s.colEn := rfl
@[simp] theorem State.writeSong_swScan (s : State) (a : Word) (b : Byte) : (s.writeSong a b).swScan = s.swScan := rfl
@[simp] theorem State.writeSong_cfg (s : State) (a : Word) (b : Byte) : (s.writeSong a b).cfg = s.cfg := rfl
@[simp] theorem State.writeSong_song (s : State) (a : Word) (b : Byte) : (s.writeSong a b).song = s.song.write a.toNat b := rfl
@[simp] theorem State.writeSong_host (s : State) (a : Word) (b : Byte) : (s.writeSong a b).host = s.host := rfl
@[simp] theorem State.writeSong_hostIn (s : State) (a : Word) (b : Byte) : (s.writeSong a b).hostIn = s.hostIn := rfl
@[simp] theorem State.writeSong_replies (s : State) (a : Word) (b : Byte) : (s.writeSong a b).replies = s.replies := rfl
@[simp] theorem State.writeSong_trace (s : State) (a : Word) (b : Byte) : (s.writeSong a b).trace = s.trace := rfl
@[simp] theorem State.writeSong_inputs (s : State) (a : Word) (b : Byte) : (s.writeSong a b).inputs = s.inputs := rfl
@[simp] theorem State.writeSong_draws (s : State) (a : Word) (b : Byte) : (s.writeSong a b).draws = s.draws := rfl

/-! ### setRowBits -/

@[simp] theorem State.setRowBits_phase (s : State) (v : Byte) : (s.setRowBits v).phase = s.phase := rfl
@[simp] theorem State.setRowBits_pdelta (s : State) (v : Byte) : (s.setRowBits v).pdelta = s.pdelta := rfl
@[simp] theorem State.setRowBits_pwmNext (s : State) (v : Byte) : (s.setRowBits v).pwmNext = s.pwmNext := rfl
@[simp] theorem State.setRowBits_pwmLevel (s : State) (v : Byte) : (s.setRowBits v).pwmLevel = s.pwmLevel := rfl
@[simp] theorem State.setRowBits_env (s : State) (v : Byte) : (s.setRowBits v).env = s.env := rfl
@[simp] theorem State.setRowBits_envDelta (s : State) (v : Byte) : (s.setRowBits v).envDelta = s.envDelta := rfl
@[simp] theorem State.setRowBits_atkStart (s : State) (v : Byte) : (s.setRowBits v).atkStart = s.atkStart := rfl
@[simp] theorem State.setRowBits_decStart (s : State) (v : Byte) : (s.setRowBits v).decStart = s.decStart := rfl
@[simp] theorem State.setRowBits_susStart (s : State) (v : Byte) : (s.setRowBits v).susStart = s.susStart := rfl
@[simp] theorem State.setRowBits_relStart (s : State) (v : Byte) : (s.setRowBits v).relStart = s.relStart := rfl
@[simp] theorem State.setRowBits_sAct (s : State) (v : Byte) : (s.setRowBits v).sAct = s.sAct := rfl
@[simp] theorem State.setRowBits_rem (s : State) (v : Byte) : (s.setRowBits v).rem = s.rem := rfl
@[simp] theorem State.setRowBits_note (s : State) (v : Byte) : (s.setRowBits v).note = s.note := rfl
@[simp] theorem State.setRowBits_cursor (s : State) (v : Byte) : (s.setRowBits v).cursor = s.cursor := rfl
@[simp] theorem State.setRowBits_loopStart (s : State) (v : Byte) : (s.setRowBits v).loopStart = s.loopStart := rfl
@[simp] theorem State.setRowBits_playing (s : State) (v : Byte) : (s.setRowBits v).playing = s.playing := rfl
@[simp] theorem State.setRowBits_loop (s : State) (v : Byte) : (s.setRowBits v).loop = s.loop := rfl
@[simp] theorem State.setRowBits_ready (s : State) (v : Byte) : (s.setRowBits v).ready = s.ready := rfl
@[simp] theorem State.setRowBits_pwmEn (s : State) (v : Byte) : (s.setRowBits v).pwmEn = s.pwmEn := rfl
@[simp] theorem State.setRowBits_run (s : State) (v : Byte) : (s.setRowBits v).run = s.run := rfl
@[simp] theorem State.setRowBits_envA (s : State) (v : Byte) : (s.setRowBits v).envA = s.envA := rfl
@[simp] theorem State.setRowBits_envD (s : State) (v : Byte) : (s.setRowBits v).envD = s.envD := rfl
@[simp] theorem State.setRowBits_envS (s : State) (v : Byte) : (s.setRowBits v).envS = s.envS := rfl
@[simp] theorem State.setRowBits_envR (s : State) (v : Byte) : (s.setRowBits v).envR = s.envR := rfl
@[simp] theorem State.setRowBits_wsel (s : State) (v : Byte) : (s.setRowBits v).wsel = s.wsel := rfl
@[simp] theorem State.setRowBits_swapInterval (s : State) (v : Byte) : (s.setRowBits v).swapInterval = s.swapInterval := rfl
@[simp] theorem State.setRowBits_color (s : State) (v : Byte) : (s.setRowBits v).color = s.color := rfl
@[simp] theorem State.setRowBits_rowdiv (s : State) (v : Byte) : (s.setRowBits v).rowdiv = s.rowdiv := rfl
@[simp] theorem State.setRowBits_rphase (s : State) (v : Byte) : (s.setRowBits v).rphase = s.rphase := rfl
@[simp] theorem State.setRowBits_swapCnt (s : State) (v : Byte) : (s.setRowBits v).swapCnt = s.swapCnt := rfl
@[simp] theorem State.setRowBits_fb (s : State) (v : Byte) : (s.setRowBits v).fb = s.fb := rfl
@[simp] theorem State.setRowBits_level (s : State) (v : Byte) : (s.setRowBits v).level = s.level := rfl
@[simp] theorem State.setRowBits_edge (s : State) (v : Byte) : (s.setRowBits v).edge = s.edge := rfl
@[simp] theorem State.setRowBits_held (s : State) (v : Byte) : (s.setRowBits v).held = s.held := rfl
@[simp] theorem State.setRowBits_event (s : State) (v : Byte) : (s.setRowBits v).event = s.event := rfl
@[simp] theorem State.setRowBits_rowOut (s : State) (v : Byte) : (s.setRowBits v).rowOut = v := rfl
@[simp] theorem State.setRowBits_colEn (s : State) (v : Byte) : (s.setRowBits v).colEn = s.colEn := rfl
@[simp] theorem State.setRowBits_swScan (s : State) (v : Byte) : (s.setRowBits v).swScan = s.swScan := rfl
@[simp] theorem State.setRowBits_cfg (s : State) (v : Byte) : (s.setRowBits v).cfg = s.cfg := rfl
@[simp] theorem State.setRowBits_song (s : State) (v : Byte) : (s.setRowBits v).song = s.song := rfl
@[simp] theorem State.setRowBits_host (s : State) (v : Byte) : (s.setRowBits v).host = s.host := rfl
@[simp] theorem State.setRowBits_hostIn (s : State) (v : Byte) : (s.setRowBits v).hostIn = s.hostIn := rfl
@[simp] theorem State.setRowBits_replies (s : State) (v : Byte) : (s.setRowBits v).replies = s.replies := rfl
@[simp] theorem State.setRowBits_trace (s : State) (v : Byte) : (s.setRowBits v).trace = s.trace ++ [.rowOut v] := rfl
@[simp] theorem State.setRowBits_inputs (s : State) (v : Byte) : (s.setRowBits v).inputs = s.inputs := rfl
@[simp] theorem State.setRowBits_draws (s : State) (v : Byte) : (s.setRowBits v).draws = s.draws := rfl

/-! ### activateColumn -/

@[simp] theorem State.activateColumn_phase (s : State) (p : Fin 10) : (s.activateColumn p).phase = s.phase := rfl
@[simp] theorem State.activateColumn_pdelta (s : State) (p : Fin 10) : (s.activateColumn p).pdelta = s.pdelta := rfl
@[simp] theorem State.activateColumn_pwmNext (s : State) (p : Fin 10) : (s.activateColumn p).pwmNext = s.pwmNext := rfl
@[simp] theorem State.activateColumn_pwmLevel (s : State) (p : Fin 10) : (s.activateColumn p).pwmLevel = s.pwmLevel := rfl
@[simp] theorem State.activateColumn_env (s : State) (p : Fin 10) : (s.activateColumn p).env = s.env := rfl
@[simp] theorem State.activateColumn_envDelta (s : State) (p : Fin 10) : (s.activateColumn p).envDelta = s.envDelta := rfl
@[simp] theorem State.activateColumn_atkStart (s : State) (p : Fin 10) : (s.activateColumn p).atkStart = s.atkStart := rfl
@[simp] theorem State.activateColumn_decStart (s : State) (p : Fin 10) : (s.activateColumn p).decStart = s.decStart := rfl
@[simp] theorem State.activateColumn_susStart (s : State) (p : Fin 10) : (s.activateColumn p).susStart = s.susStart := rfl
@[simp] theorem State.activateColumn_relStart (s : State) (p : Fin 10) : (s.activateColumn p).relStart = s.relStart := rfl
@[simp] theorem State.activateColumn_sAct (s : State) (p : Fin 10) : (s.activateColumn p).sAct = s.sAct := rfl
@[simp] theorem State.activateColumn_rem (s : State) (p : Fin 10) : (s.activateColumn p).rem = s.rem := rfl
@[simp] theorem State.activateColumn_note (s : State) (p : Fin 10) : (s.activateColumn p).note = s.note := rfl
@[simp] theorem State.activateColumn_cursor (s : State) (p : Fin 10) : (s.activateColumn p).cursor = s.cursor := rfl
@[simp] theorem State.activateColumn_loopStart (s : State) (p : Fin 10) : (s.activateColumn p).loopStart = s.loopStart := rfl
@[simp] theorem State.activateColumn_playing (s : State) (p : Fin 10) : (s.activateColumn p).playing = s.playing := rfl
@[simp] theorem State.activateColumn_loop (s : State) (p : Fin 10) : (s.activateColumn p).loop = s.loop := rfl
@[simp] theorem State.activateColumn_ready (s : State) (p : Fin 10) : (s.activateColumn p).ready = s.ready := rfl
@[simp] theorem State.activateColumn_pwmEn (s : State) (p : Fin 10) : (s.activateColumn p).pwmEn = s.pwmEn := rfl
@[simp] theorem State.activateColumn_run (s : State) (p : Fin 10) : (s.activateColumn p).run = s.run := rfl
@[simp] theorem State.activateColumn_envA (s : State) (p : Fin 10) : (s.activateColumn p).envA = s.envA := rfl
@[simp] theorem State.activateColumn_envD (s : State) (p : Fin 10) : (s.activateColumn p).envD = s.envD := rfl
@[simp] theorem State.activateColumn_envS (s : State) (p : Fin 10) : (s.activateColumn p).envS = s.envS := rfl
@[simp] theorem State.activateColumn_envR (s : State) (p : Fin 10) : (s.activateColumn p).envR = s.envR := rfl
@[simp] theorem State.activateColumn_wsel (s : State) (p : Fin 10) : (s.activateColumn p).wsel = s.wsel := rfl
@[simp] theorem State.activateColumn_swapInterval (s : State) (p : Fin 10) : (s.activateColumn p).swapInterval = s.swapInterval := rfl
@[simp] theorem State.activateColumn_color (s : State) (p : Fin 10) : (s.activateColumn p).color = s.color := rfl
@[simp] theorem State.activateColumn_rowdiv (s : State) (p : Fin 10) : (s.activateColumn p).rowdiv = s.rowdiv := rfl
@[simp] theorem State.activateColumn_rphase (s : State) (p : Fin 10) : (s.activateColumn p).rphase = s.rphase := rfl
@[simp] theorem State.activateColumn_swapCnt (s : State) (p : Fin 10) : (s.activateColumn p).swapCnt = s.swapCnt := rfl
@[simp] theorem State.activateColumn_fb (s : State) (p : Fin 10) : (s.activateColumn p).fb = s.fb := rfl
@[simp] theorem State.activateColumn_level (s : State) (p : Fin 10) : (s.activateColumn p).level = s.level := rfl
@[simp] theorem State.activateColumn_edge (s : State) (p : Fin 10) : (s.activateColumn p).edge = s.edge := rfl
@[simp] theorem State.activateColumn_held (s : State) (p : Fin 10) : (s.activateColumn p).held = s.held := rfl
@[simp] theorem State.activateColumn_event (s : State) (p : Fin 10) : (s.activateColumn p).event = s.event := rfl
@[simp] theorem State.activateColumn_rowOut (s : State) (p : Fin 10) : (s.activateColumn p).rowOut = s.rowOut := rfl
@[simp] theorem State.activateColumn_colEn (s : State) (p : Fin 10) : (s.activateColumn p).colEn = s.colEn ||| columnBit p := rfl
@[simp] theorem State.activateColumn_swScan (s : State) (p : Fin 10) : (s.activateColumn p).swScan = s.swScan := rfl
@[simp] theorem State.activateColumn_cfg (s : State) (p : Fin 10) : (s.activateColumn p).cfg = s.cfg := rfl
@[simp] theorem State.activateColumn_song (s : State) (p : Fin 10) : (s.activateColumn p).song = s.song := rfl
@[simp] theorem State.activateColumn_host (s : State) (p : Fin 10) : (s.activateColumn p).host = s.host := rfl
@[simp] theorem State.activateColumn_hostIn (s : State) (p : Fin 10) : (s.activateColumn p).hostIn = s.hostIn := rfl
@[simp] theorem State.activateColumn_replies (s : State) (p : Fin 10) : (s.activateColumn p).replies = s.replies := rfl
@[simp] theorem State.activateColumn_trace (s : State) (p : Fin 10) : (s.activateColumn p).trace = s.trace ++ [.columnOn p] := rfl
@[simp] theorem State.activateColumn_inputs (s : State) (p : Fin 10) : (s.activateColumn p).inputs = s.inputs := rfl
@[simp] theorem State.activateColumn_draws (s : State) (p : Fin 10) : (s.activateColumn p).draws = s.draws := rfl

/-! ### deactivateColumn -/

@[simp] theorem State.deactivateColumn_phase (s : State) (p : Fin 10) : (s.deactivateColumn p).phase = s.phase := rfl
@[simp] theorem State.deactivateColumn_pdelta (s : State) (p : Fin 10) : (s.deactivateColumn p).pdelta = s.pdelta := rfl
@[simp] theorem State.deactivateColumn_pwmNext (s : State) (p : Fin 10) : (s.deactivateColumn p).pwmNext = s.pwmNext := rfl
@[simp] theorem State.deactivateColumn_pwmLevel (s : State) (p : Fin 10) : (s.deactivateColumn p).pwmLevel = s.pwmLevel := rfl
@[simp] theorem State.deactivateColumn_env (s : State) (p : Fin 10) : (s.deactivateColumn p).env = s.env := rfl
@[simp] theorem State.deactivateColumn_envDelta (s : State) (p : Fin 10) : (s.deactivateColumn p).envDelta = s.envDelta := rfl
@[simp] theorem State.deactivateColumn_atkStart (s : State) (p : Fin 10) : (s.deactivateColumn p).atkStart = s.atkStart := rfl
@[simp] theorem State.deactivateColumn_decStart (s : State) (p : Fin 10) : (s.deactivateColumn p).decStart = s.decStart := rfl
@[simp] theorem State.deactivateColumn_susStart (s : State) (p : Fin 10) : (s.deactivateColumn p).susStart = s.susStart := rfl
@[simp] theorem State.deactivateColumn_relStart (s : State) (p : Fin 10) : (s.deactivateColumn p).relStart = s.relStart := rfl
@[simp] theorem State.deactivateColumn_sAct (s : State) (p : Fin 10) : (s.deactivateColumn p).sAct = s.sAct := rfl
@[simp] theorem State.deactivateColumn_rem (s : State) (p : Fin 10) : (s.deactivateColumn p).rem = s.rem := rfl
@[simp] theorem State.deactivateColumn_note (s : State) (p : Fin 10) : (s.deactivateColumn p).note = s.note := rfl
@[simp] theorem State.deactivateColumn_cursor (s : State) (p : Fin 10) : (s.deactivateColumn p).cursor = s.cursor := rfl
@[simp] theorem State.deactivateColumn_loopStart (s : State) (p : Fin 10) : (s.deactivateColumn p).loopStart = s.loopStart := rfl
@[simp] theorem State.deactivateColumn_playing (s : State) (p : Fin 10) : (s.deactivateColumn p).playing = s.playing := rfl
@[simp] theorem State.deactivateColumn_loop (s : State) (p : Fin 10) : (s.deactivateColumn p).loop = s.loop := rfl
@[simp] theorem State.deactivateColumn_ready (s : State) (p : Fin 10) : (s.deactivateColumn p).ready = s.ready := rfl
@[simp] theorem State.deactivateColumn_pwmEn (s : State) (p : Fin 10) : (s.deactivateColumn p).pwmEn = s.pwmEn := rfl
@[simp] theorem State.deactivateColumn_run (s : State) (p : Fin 10) : (s.deactivateColumn p).run = s.run := rfl
@[simp] theorem State.deactivateColumn_envA (s : State) (p : Fin 10) : (s.deactivateColumn p).envA = s.envA := rfl
@[simp] theorem State.deactivateColumn_envD (s : State) (p : Fin 10) : (s.deactivateColumn p).envD = s.envD := rfl
@[simp] theorem State.deactivateColumn_envS (s : State) (p : Fin 10) : (s.deactivateColumn p).envS = s.envS := rfl
@[simp] theorem State.deactivateColumn_envR (s : State) (p : Fin 10) : (s.deactivateColumn p).envR = s.envR := rfl
@[simp] theorem State.deactivateColumn_wsel (s : State) (p : Fin 10) : (s.deactivateColumn p).wsel = s.wsel := rfl
@[simp] theorem State.deactivateColumn_swapInterval (s : State) (p : Fin 10) : (s.deactivateColumn p).swapInterval = s.swapInterval := rfl
@[simp] theorem State.deactivateColumn_color (s : State) (p : Fin 10) : (s.deactivateColumn p).color = s.color := rfl
@[simp] theorem State.deactivateColumn_rowdiv (s : State) (p : Fin 10) : (s.deactivateColumn p).rowdiv = s.rowdiv := rfl
@[simp] theorem State.deactivateColumn_rphase (s : State) (p : Fin 10) : (s.deactivateColumn p).rphase = s.rphase := rfl
@[simp] theorem State.deactivateColumn_swapCnt (s : State) (p : Fin 10) : (s.deactivateColumn p).swapCnt = s.swapCnt := rfl
@[simp] theorem State.deactivateColumn_fb (s : State) (p : Fin 10) : (s.deactivateColumn p).fb = s.fb := rfl
@[simp] theorem State.deactivateColumn_level (s : State) (p : Fin 10) : (s.deactivateColumn p).level = s.level := rfl
@[simp] theorem State.deactivateColumn_edge (s : State) (p : Fin 10) : (s.deactivateColumn p).edge = s.edge := rfl
@[simp] theorem State.deactivateColumn_held (s : State) (p : Fin 10) : (s.deactivateColumn p).held = s.held := rfl
@[simp] theorem State.deactivateColumn_event (s : State) (p : Fin 10) : (s.deactivateColumn p).event = s.event := rfl
@[simp] theorem State.deactivateColumn_rowOut (s : State) (p : Fin 10) : (s.deactivateColumn p).rowOut = s.rowOut := rfl
@[simp] theorem State.deactivateColumn_colEn (s : State) (p : Fin 10) : (s.deactivateColumn p).colEn = s.colEn &&& ~~~columnBit p := rfl
@[simp] theorem State.deactivateColumn_swScan (s : State) (p : Fin 10) : (s.deactivateColumn p).swScan = s.swScan := rfl
@[simp] theorem State.deactivateColumn_cfg (s : State) (p : Fin 10) : (s.deactivateColumn p).cfg = s.cfg := rfl
@[simp] theorem State.deactivateColumn_song (s : State) (p : Fin 10) : (s.deactivateColumn p).song = s.song := rfl
@[simp] theorem State.deactivateColumn_host (s : State) (p : Fin 10) : (s.deactivateColumn p).host = s.host := rfl
@[simp] theorem State.deactivateColumn_hostIn (s : State) (p : Fin 10) : (s.deactivateColumn p).hostIn = s.hostIn := rfl
@[simp] theorem State.deactivateColumn_replies (s : State) (p : Fin 10) : (s.deactivateColumn p).replies = s.replies := rfl
@[simp] theorem State.deactivateColumn_trace (s : State) (p : Fin 10) : (s.deactivateColumn p).trace = s.trace ++ [.columnOff p] := rfl
@[simp] theorem State.deactivateColumn_inputs (s : State) (p : Fin 10) : (s.deactivateColumn p).inputs = s.inputs := rfl
@[simp] theorem State.deactivateColumn_draws (s : State) (p : Fin 10) : (s.deactivateColumn p).draws = s.draws := rfl

/-! ### columnsOff -/

@[simp] theorem State.columnsOff_phase (s : State) : s.columnsOff.phase = s.phase := rfl
@[simp] theorem State.columnsOff_pdelta (s : State) : s.columnsOff.pdelta = s.pdelta := rfl
@[simp] theorem State.columnsOff_pwmNext (s : State) : s.columnsOff.pwmNext = s.pwmNext := rfl
@[simp] theorem State.columnsOff_pwmLevel (s : State) : s.columnsOff.pwmLevel = s.pwmLevel := rfl
@[simp] theorem State.columnsOff_env (s : State) : s.columnsOff.env = s.env := rfl
@[simp] theorem State.columnsOff_envDelta (s : State) : s.columnsOff.envDelta = s.envDelta := rfl
@[simp] theorem State.columnsOff_atkStart (s : State) : s.columnsOff.atkStart = s.atkStart := rfl
@[simp] theorem State.columnsOff_decStart (s : State) : s.columnsOff.decStart = s.decStart := rfl
@[simp] theorem State.columnsOff_susStart (s : State) : s.columnsOff.susStart = s.susStart := rfl
@[simp] theorem State.columnsOff_relStart (s : State) : s.columnsOff.relStart = s.relStart := rfl
@[simp] theorem State.columnsOff_sAct (s : State) : s.columnsOff.sAct = s.sAct := rfl
@[simp] theorem State.columnsOff_rem (s : State) : s.columnsOff.rem = s.rem := rfl
@[simp] theorem State.columnsOff_note (s : State) : s.columnsOff.note = s.note := rfl
@[simp] theorem State.columnsOff_cursor (s : State) : s.columnsOff.cursor = s.cursor := rfl
@[simp] theorem State.columnsOff_loopStart (s : State) : s.columnsOff.loopStart = s.loopStart := rfl
@[simp] theorem State.columnsOff_playing (s : State) : s.columnsOff.playing = s.playing := rfl
@[simp] theorem State.columnsOff_loop (s : State) : s.columnsOff.loop = s.loop := rfl
@[simp] theorem State.columnsOff_ready (s : State) : s.columnsOff.ready = s.ready := rfl
@[simp] theorem State.columnsOff_pwmEn (s : State) : s.columnsOff.pwmEn = s.pwmEn := rfl
@[simp] theorem State.columnsOff_run (s : State) : s.columnsOff.run = s.run := rfl
@[simp] theorem State.columnsOff_envA (s : State) : s.columnsOff.envA = s.envA := rfl
@[simp] theorem State.columnsOff_envD (s : State) : s.columnsOff.envD = s.envD := rfl
@[simp] theorem State.columnsOff_envS (s : State) : s.columnsOff.envS = s.envS := rfl
@[simp] theorem State.columnsOff_envR (s : State) : s.columnsOff.envR = s.envR := rfl
@[simp] theorem State.columnsOff_wsel (s : State) : s.columnsOff.wsel = s.wsel := rfl
@[simp] theorem State.columnsOff_swapInterval (s : State) : s.columnsOff.swapInterval = s.swapInterval := rfl
@[simp] theorem State.columnsOff_color (s : State) : s.columnsOff.color = s.color := rfl
@[simp] theorem State.columnsOff_rowdiv (s : State) : s.columnsOff.rowdiv = s.rowdiv := rfl
@[simp] theorem State.columnsOff_rphase (s : State) : s.columnsOff.rphase = s.rphase := rfl
@[simp] theorem State.columnsOff_swapCnt (s : State) : s.columnsOff.swapCnt = s.swapCnt := rfl
@[simp] theorem State.columnsOff_fb (s : State) : s.columnsOff.fb = s.fb := rfl
@[simp] theorem State.columnsOff_level (s : State) : s.columnsOff.level = s.level := rfl
@[simp] theorem State.columnsOff_edge (s : State) : s.columnsOff.edge = s.edge := rfl
@[simp] theorem State.columnsOff_held (s : State) : s.columnsOff.held = s.held := rfl
@[simp] theorem State.columnsOff_event (s : State) : s.columnsOff.event = s.event := rfl
@[simp] theorem State.columnsOff_rowOut (s : State) : s.columnsOff.rowOut = s.rowOut := rfl
@[simp] theorem State.columnsOff_colEn (s : State) : s.columnsOff.colEn = 0 := rfl
@[simp] theorem State.columnsOff_swScan (s : State) : s.columnsOff.swScan = s.swScan := rfl
@[simp] theorem State.columnsOff_cfg (s : State) : s.columnsOff.cfg = s.cfg := rfl
@[simp] theorem State.columnsOff_song (s : State) : s.columnsOff.song = s.song := rfl
@[simp] theorem State.columnsOff_host (s : State) : s.columnsOff.host = s.host := rfl
@[simp] theorem State.columnsOff_hostIn (s : State) : s.columnsOff.hostIn = s.hostIn := rfl
@[simp] theorem State.columnsOff_replies (s : State) : s.columnsOff.replies = s.replies := rfl
@[simp] theorem State.columnsOff_trace (s : State) : s.columnsOff.trace = s.trace ++ [.columnsOff] := rfl
@[simp] theorem State.columnsOff_inputs (s : State) : s.columnsOff.inputs = s.inputs := rfl
@[simp] theorem State.columnsOff_draws (s : State) : s.columnsOff.draws = s.draws := rfl

/-! ### setSwScan -/

@[simp] theorem State.setSwScan_phase (s : State) (b : Bool) : (s.setSwScan b).phase = s.phase := rfl
@[simp] theorem State.setSwScan_pdelta (s : State) (b : Bool) : (s.setSwScan b).pdelta = s.pdelta := rfl
@[simp] theorem State.setSwScan_pwmNext (s : State) (b : Bool) : (s.setSwScan b).pwmNext = s.pwmNext := rfl
@[simp] theorem State.setSwScan_pwmLevel (s : State) (b : Bool) : (s.setSwScan b).pwmLevel = s.pwmLevel := rfl
@[simp] theorem State.setSwScan_env (s : State) (b : Bool) : (s.setSwScan b).env = s.env := rfl
@[simp] theorem State.setSwScan_envDelta (s : State) (b : Bool) : (s.setSwScan b).envDelta = s.envDelta := rfl
@[simp] theorem State.setSwScan_atkStart (s : State) (b : Bool) : (s.setSwScan b).atkStart = s.atkStart := rfl
@[simp] theorem State.setSwScan_decStart (s : State) (b : Bool) : (s.setSwScan b).decStart = s.decStart := rfl
@[simp] theorem State.setSwScan_susStart (s : State) (b : Bool) : (s.setSwScan b).susStart = s.susStart := rfl
@[simp] theorem State.setSwScan_relStart (s : State) (b : Bool) : (s.setSwScan b).relStart = s.relStart := rfl
@[simp] theorem State.setSwScan_sAct (s : State) (b : Bool) : (s.setSwScan b).sAct = s.sAct := rfl
@[simp] theorem State.setSwScan_rem (s : State) (b : Bool) : (s.setSwScan b).rem = s.rem := rfl
@[simp] theorem State.setSwScan_note (s : State) (b : Bool) : (s.setSwScan b).note = s.note := rfl
@[simp] theorem State.setSwScan_cursor (s : State) (b : Bool) : (s.setSwScan b).cursor = s.cursor := rfl
@[simp] theorem State.setSwScan_loopStart (s : State) (b : Bool) : (s.setSwScan b).loopStart = s.loopStart := rfl
@[simp] theorem State.setSwScan_playing (s : State) (b : Bool) : (s.setSwScan b).playing = s.playing := rfl
@[simp] theorem State.setSwScan_loop (s : State) (b : Bool) : (s.setSwScan b).loop = s.loop := rfl
@[simp] theorem State.setSwScan_ready (s : State) (b : Bool) : (s.setSwScan b).ready = s.ready := rfl
@[simp] theorem State.setSwScan_pwmEn (s : State) (b : Bool) : (s.setSwScan b).pwmEn = s.pwmEn := rfl
@[simp] theorem State.setSwScan_run (s : State) (b : Bool) : (s.setSwScan b).run = s.run := rfl
@[simp] theorem State.setSwScan_envA (s : State) (b : Bool) : (s.setSwScan b).envA = s.envA := rfl
@[simp] theorem State.setSwScan_envD (s : State) (b : Bool) : (s.setSwScan b).envD = s.envD := rfl
@[simp] theorem State.setSwScan_envS (s : State) (b : Bool) : (s.setSwScan b).envS = s.envS := rfl
@[simp] theorem State.setSwScan_envR (s : State) (b : Bool) : (s.setSwScan b).envR = s.envR := rfl
@[simp] theorem State.setSwScan_wsel (s : State) (b : Bool) : (s.setSwScan b).wsel = s.wsel := rfl
@[simp] theorem State.setSwScan_swapInterval (s : State) (b : Bool) : (s.setSwScan b).swapInterval = s.swapInterval := rfl
@[simp] theorem State.setSwScan_color (s : State) (b : Bool) : (s.setSwScan b).color = s.color := rfl
@[simp] theorem State.setSwScan_rowdiv (s : State) (b : Bool) : (s.setSwScan b).rowdiv = s.rowdiv := rfl
@[simp] theorem State.setSwScan_rphase (s : State) (b : Bool) : (s.setSwScan b).rphase = s.rphase := rfl
@[simp] theorem State.setSwScan_swapCnt (s : State) (b : Bool) : (s.setSwScan b).swapCnt = s.swapCnt := rfl
@[simp] theorem State.setSwScan_fb (s : State) (b : Bool) : (s.setSwScan b).fb = s.fb := rfl
@[simp] theorem State.setSwScan_level (s : State) (b : Bool) : (s.setSwScan b).level = s.level := rfl
@[simp] theorem State.setSwScan_edge (s : State) (b : Bool) : (s.setSwScan b).edge = s.edge := rfl
@[simp] theorem State.setSwScan_held (s : State) (b : Bool) : (s.setSwScan b).held = s.held := rfl
@[simp] theorem State.setSwScan_event (s : State) (b : Bool) : (s.setSwScan b).event = s.event := rfl
@[simp] theorem State.setSwScan_rowOut (s : State) (b : Bool) : (s.setSwScan b).rowOut = s.rowOut := rfl
@[simp] theorem State.setSwScan_colEn (s : State) (b : Bool) : (s.setSwScan b).colEn = s.colEn := rfl
@[simp] theorem State.setSwScan_swScan (s : State) (b : Bool) : (s.setSwScan b).swScan = b := rfl
@[simp] theorem State.setSwScan_cfg (s : State) (b : Bool) : (s.setSwScan b).cfg = s.cfg := rfl
@[simp] theorem State.setSwScan_song (s : State) (b : Bool) : (s.setSwScan b).song = s.song := rfl
@[simp] theorem State.setSwScan_host (s : State) (b : Bool) : (s.setSwScan b).host = s.host := rfl
@[simp] theorem State.setSwScan_hostIn (s : State) (b : Bool) : (s.setSwScan b).hostIn = s.hostIn := rfl
@[simp] theorem State.setSwScan_replies (s : State) (b : Bool) : (s.setSwScan b).replies = s.replies := rfl
@[simp] theorem State.setSwScan_trace (s : State) (b : Bool) : (s.setSwScan b).trace = s.trace ++ [.swScan b] := rfl
@[simp] theorem State.setSwScan_inputs (s : State) (b : Bool) : (s.setSwScan b).inputs = s.inputs := rfl
@[simp] theorem State.setSwScan_draws (s : State) (b : Bool) : (s.setSwScan b).draws = s.draws := rfl

/-! ### sampleSwitches -/

@[simp] theorem State.sampleSwitches_phase (s : State) (sw : Mask) : (s.sampleSwitches sw).phase = s.phase := rfl
@[simp] theorem State.sampleSwitches_pdelta (s : State) (sw : Mask) : (s.sampleSwitches sw).pdelta = s.pdelta := rfl
@[simp] theorem State.sampleSwitches_pwmNext (s : State) (sw : Mask) : (s.sampleSwitches sw).pwmNext = s.pwmNext := rfl
@[simp] theorem State.sampleSwitches_pwmLevel (s : State) (sw : Mask) : (s.sampleSwitches sw).pwmLevel = s.pwmLevel := rfl
@[simp] theorem State.sampleSwitches_env (s : State) (sw : Mask) : (s.sampleSwitches sw).env = s.env := rfl
@[simp] theorem State.sampleSwitches_envDelta (s : State) (sw : Mask) : (s.sampleSwitches sw).envDelta = s.envDelta := rfl
@[simp] theorem State.sampleSwitches_atkStart (s : State) (sw : Mask) : (s.sampleSwitches sw).atkStart = s.atkStart := rfl
@[simp] theorem State.sampleSwitches_decStart (s : State) (sw : Mask) : (s.sampleSwitches sw).decStart = s.decStart := rfl
@[simp] theorem State.sampleSwitches_susStart (s : State) (sw : Mask) : (s.sampleSwitches sw).susStart = s.susStart := rfl
@[simp] theorem State.sampleSwitches_relStart (s : State) (sw : Mask) : (s.sampleSwitches sw).relStart = s.relStart := rfl
@[simp] theorem State.sampleSwitches_sAct (s : State) (sw : Mask) : (s.sampleSwitches sw).sAct = s.sAct := rfl
@[simp] theorem State.sampleSwitches_rem (s : State) (sw : Mask) : (s.sampleSwitches sw).rem = s.rem := rfl
@[simp] theorem State.sampleSwitches_note (s : State) (sw : Mask) : (s.sampleSwitches sw).note = s.note := rfl
@[simp] theorem State.sampleSwitches_cursor (s : State) (sw : Mask) : (s.sampleSwitches sw).cursor = s.cursor := rfl
@[simp] theorem State.sampleSwitches_loopStart (s : State) (sw : Mask) : (s.sampleSwitches sw).loopStart = s.loopStart := rfl
@[simp] theorem State.sampleSwitches_playing (s : State) (sw : Mask) : (s.sampleSwitches sw).playing = s.playing := rfl
@[simp] theorem State.sampleSwitches_loop (s : State) (sw : Mask) : (s.sampleSwitches sw).loop = s.loop := rfl
@[simp] theorem State.sampleSwitches_ready (s : State) (sw : Mask) : (s.sampleSwitches sw).ready = s.ready := rfl
@[simp] theorem State.sampleSwitches_pwmEn (s : State) (sw : Mask) : (s.sampleSwitches sw).pwmEn = s.pwmEn := rfl
@[simp] theorem State.sampleSwitches_run (s : State) (sw : Mask) : (s.sampleSwitches sw).run = s.run := rfl
@[simp] theorem State.sampleSwitches_envA (s : State) (sw : Mask) : (s.sampleSwitches sw).envA = s.envA := rfl
@[simp] theorem State.sampleSwitches_envD (s : State) (sw : Mask) : (s.sampleSwitches sw).envD = s.envD := rfl
@[simp] theorem State.sampleSwitches_envS (s : State) (sw : Mask) : (s.sampleSwitches sw).envS = s.envS := rfl
@[simp] theorem State.sampleSwitches_envR (s : State) (sw : Mask) : (s.sampleSwitches sw).envR = s.envR := rfl
@[simp] theorem State.sampleSwitches_wsel (s : State) (sw : Mask) : (s.sampleSwitches sw).wsel = s.wsel := rfl
@[simp] theorem State.sampleSwitches_swapInterval (s : State) (sw : Mask) : (s.sampleSwitches sw).swapInterval = s.swapInterval := rfl
@[simp] theorem State.sampleSwitches_color (s : State) (sw : Mask) : (s.sampleSwitches sw).color = s.color := rfl
@[simp] theorem State.sampleSwitches_rowdiv (s : State) (sw : Mask) : (s.sampleSwitches sw).rowdiv = s.rowdiv := rfl
@[simp] theorem State.sampleSwitches_rphase (s : State) (sw : Mask) : (s.sampleSwitches sw).rphase = s.rphase := rfl
@[simp] theorem State.sampleSwitches_swapCnt (s : State) (sw : Mask) : (s.sampleSwitches sw).swapCnt = s.swapCnt := rfl
@[simp] theorem State.sampleSwitches_fb (s : State) (sw : Mask) : (s.sampleSwitches sw).fb = s.fb := rfl
@[simp] theorem State.sampleSwitches_level (s : State) (sw : Mask) : (s.sampleSwitches sw).level = s.level := rfl
@[simp] theorem State.sampleSwitches_edge (s : State) (sw : Mask) : (s.sampleSwitches sw).edge = s.edge := rfl
@[simp] theorem State.sampleSwitches_held (s : State) (sw : Mask) : (s.sampleSwitches sw).held = s.held := rfl
@[simp] theorem State.sampleSwitches_event (s : State) (sw : Mask) : (s.sampleSwitches sw).event = s.event := rfl
@[simp] theorem State.sampleSwitches_rowOut (s : State) (sw : Mask) : (s.sampleSwitches sw).rowOut = s.rowOut := rfl
@[simp] theorem State.sampleSwitches_colEn (s : State) (sw : Mask) : (s.sampleSwitches sw).colEn = s.colEn := rfl
@[simp] theorem State.sampleSwitches_swScan (s : State) (sw : Mask) : (s.sampleSwitches sw).swScan = s.swScan := rfl
@[simp] theorem State.sampleSwitches_cfg (s : State) (sw : Mask) : (s.sampleSwitches sw).cfg = s.cfg := rfl
@[simp] theorem State.sampleSwitches_song (s : State) (sw : Mask) : (s.sampleSwitches sw).song = s.song := rfl
@[simp] theorem State.sampleSwitches_host (s : State) (sw : Mask) : (s.sampleSwitches sw).host = s.host := rfl
@[simp] theorem State.sampleSwitches_hostIn (s : State) (sw : Mask) : (s.sampleSwitches sw).hostIn = s.hostIn := rfl
@[simp] theorem State.sampleSwitches_replies (s : State) (sw : Mask) : (s.sampleSwitches sw).replies = s.replies := rfl
@[simp] theorem State.sampleSwitches_trace (s : State) (sw : Mask) : (s.sampleSwitches sw).trace = s.trace ++ [.switchSample sw] := rfl
@[simp] theorem State.sampleSwitches_inputs (s : State) (sw : Mask) : (s.sampleSwitches sw).inputs = s.inputs := rfl
@[simp] theorem State.sampleSwitches_draws (s : State) (sw : Mask) : (s.sampleSwitches sw).draws = s.draws := rfl

/-! ### setPwmLevel -/

@[simp] theorem State.setPwmLevel_phase (s : State) (v : Byte) : (s.setPwmLevel v).phase = s.phase := rfl
@[simp] theorem State.setPwmLevel_pdelta (s : State) (v : Byte) : (s.setPwmLevel v).pdelta = s.pdelta := rfl
@[simp] theorem State.setPwmLevel_pwmNext (s : State) (v : Byte) : (s.setPwmLevel v).pwmNext = s.pwmNext := rfl
@[simp] theorem State.setPwmLevel_pwmLevel (s : State) (v : Byte) : (s.setPwmLevel v).pwmLevel = v := rfl
@[simp] theorem State.setPwmLevel_env (s : State) (v : Byte) : (s.setPwmLevel v).env = s.env := rfl
@[simp] theorem State.setPwmLevel_envDelta (s : State) (v : Byte) : (s.setPwmLevel v).envDelta = s.envDelta := rfl
@[simp] theorem State.setPwmLevel_atkStart (s : State) (v : Byte) : (s.setPwmLevel v).atkStart = s.atkStart := rfl
@[simp] theorem State.setPwmLevel_decStart (s : State) (v : Byte) : (s.setPwmLevel v).decStart = s.decStart := rfl
@[simp] theorem State.setPwmLevel_susStart (s : State) (v : Byte) : (s.setPwmLevel v).susStart = s.susStart := rfl
@[simp] theorem State.setPwmLevel_relStart (s : State) (v : Byte) : (s.setPwmLevel v).relStart = s.relStart := rfl
@[simp] theorem State.setPwmLevel_sAct (s : State) (v : Byte) : (s.setPwmLevel v).sAct = s.sAct := rfl
@[simp] theorem State.setPwmLevel_rem (s : State) (v : Byte) : (s.setPwmLevel v).rem = s.rem := rfl
@[simp] theorem State.setPwmLevel_note (s : State) (v : Byte) : (s.setPwmLevel v).note = s.note := rfl
@[simp] theorem State.setPwmLevel_cursor (s : State) (v : Byte) : (s.setPwmLevel v).cursor = s.cursor := rfl
@[simp] theorem State.setPwmLevel_loopStart (s : State) (v : Byte) : (s.setPwmLevel v).loopStart = s.loopStart := rfl
@[simp] theorem State.setPwmLevel_playing (s : State) (v : Byte) : (s.setPwmLevel v).playing = s.playing := rfl
@[simp] theorem State.setPwmLevel_loop (s : State) (v : Byte) : (s.setPwmLevel v).loop = s.loop := rfl
@[simp] theorem State.setPwmLevel_ready (s : State) (v : Byte) : (s.setPwmLevel v).ready = s.ready := rfl
@[simp] theorem State.setPwmLevel_pwmEn (s : State) (v : Byte) : (s.setPwmLevel v).pwmEn = s.pwmEn := rfl
@[simp] theorem State.setPwmLevel_run (s : State) (v : Byte) : (s.setPwmLevel v).run = s.run := rfl
@[simp] theorem State.setPwmLevel_envA (s : State) (v : Byte) : (s.setPwmLevel v).envA = s.envA := rfl
@[simp] theorem State.setPwmLevel_envD (s : State) (v : Byte) : (s.setPwmLevel v).envD = s.envD := rfl
@[simp] theorem State.setPwmLevel_envS (s : State) (v : Byte) : (s.setPwmLevel v).envS = s.envS := rfl
@[simp] theorem State.setPwmLevel_envR (s : State) (v : Byte) : (s.setPwmLevel v).envR = s.envR := rfl
@[simp] theorem State.setPwmLevel_wsel (s : State) (v : Byte) : (s.setPwmLevel v).wsel = s.wsel := rfl
@[simp] theorem State.setPwmLevel_swapInterval (s : State) (v : Byte) : (s.setPwmLevel v).swapInterval = s.swapInterval := rfl
@[simp] theorem State.setPwmLevel_color (s : State) (v : Byte) : (s.setPwmLevel v).color = s.color := rfl
@[simp] theorem State.setPwmLevel_rowdiv (s : State) (v : Byte) : (s.setPwmLevel v).rowdiv = s.rowdiv := rfl
@[simp] theorem State.setPwmLevel_rphase (s : State) (v : Byte) : (s.setPwmLevel v).rphase = s.rphase := rfl
@[simp] theorem State.setPwmLevel_swapCnt (s : State) (v : Byte) : (s.setPwmLevel v).swapCnt = s.swapCnt := rfl
@[simp] theorem State.setPwmLevel_fb (s : State) (v : Byte) : (s.setPwmLevel v).fb = s.fb := rfl
@[simp] theorem State.setPwmLevel_level (s : State) (v : Byte) : (s.setPwmLevel v).level = s.level := rfl
@[simp] theorem State.setPwmLevel_edge (s : State) (v : Byte) : (s.setPwmLevel v).edge = s.edge := rfl
@[simp] theorem State.setPwmLevel_held (s : State) (v : Byte) : (s.setPwmLevel v).held = s.held := rfl
@[simp] theorem State.setPwmLevel_event (s : State) (v : Byte) : (s.setPwmLevel v).event = s.event := rfl
@[simp] theorem State.setPwmLevel_rowOut (s : State) (v : Byte) : (s.setPwmLevel v).rowOut = s.rowOut := rfl
@[simp] theorem State.setPwmLevel_colEn (s : State) (v : Byte) : (s.setPwmLevel v).colEn = s.colEn := rfl
@[simp] theorem State.setPwmLevel_swScan (s : State) (v : Byte) : (s.setPwmLevel v).swScan = s.swScan := rfl
@[simp] theorem State.setPwmLevel_cfg (s : State) (v : Byte) : (s.setPwmLevel v).cfg = s.cfg := rfl
@[simp] theorem State.setPwmLevel_song (s : State) (v : Byte) : (s.setPwmLevel v).song = s.song := rfl
@[simp] theorem State.setPwmLevel_host (s : State) (v : Byte) : (s.setPwmLevel v).host = s.host := rfl
@[simp] theorem State.setPwmLevel_hostIn (s : State) (v : Byte) : (s.setPwmLevel v).hostIn = s.hostIn := rfl
@[simp] theorem State.setPwmLevel_replies (s : State) (v : Byte) : (s.setPwmLevel v).replies = s.replies := rfl
@[simp] theorem State.setPwmLevel_trace (s : State) (v : Byte) : (s.setPwmLevel v).trace = s.trace ++ [.pwmLevel v] := rfl
@[simp] theorem State.setPwmLevel_inputs (s : State) (v : Byte) : (s.setPwmLevel v).inputs = s.inputs := rfl
@[simp] theorem State.setPwmLevel_draws (s : State) (v : Byte) : (s.setPwmLevel v).draws = s.draws := rfl

/-! ### writeRow -/

@[simp] theorem State.writeRow_phase (s : State) (i : Fin 10) (v : Byte) : (s.writeRow i v).phase = s.phase := rfl
@[simp] theorem State.writeRow_pdelta (s : State) (i : Fin 10) (v : Byte) : (s.writeRow i v).pdelta = s.pdelta := rfl
@[simp] theorem State.writeRow_pwmNext (s : State) (i : Fin 10) (v : Byte) : (s.writeRow i v).pwmNext = s.pwmNext := rfl
@[simp] theorem State.writeRow_pwmLevel (s : State) (i : Fin 10) (v : Byte) : (s.writeRow i v).pwmLevel = s.pwmLevel := rfl
@[simp] theorem State.writeRow_env (s : State) (i : Fin 10) (v : Byte) : (s.writeRow i v).env = s.env := rfl
@[simp] theorem State.writeRow_envDelta (s : State) (i : Fin 10) (v : Byte) : (s.writeRow i v).envDelta = s.envDelta := rfl
@[simp] theorem State.writeRow_atkStart (s : State) (i : Fin 10) (v : Byte) : (s.writeRow i v).atkStart = s.atkStart := rfl
@[simp] theorem State.writeRow_decStart (s : State) (i : Fin 10) (v : Byte) : (s.writeRow i v).decStart = s.decStart := rfl
@[simp] theorem State.writeRow_susStart (s : State) (i : Fin 10) (v : Byte) : (s.writeRow i v).susStart = s.susStart := rfl
@[simp] theorem State.writeRow_relStart (s : State) (i : Fin 10) (v : Byte) : (s.writeRow i v).relStart = s.relStart := rfl
@[simp] theorem State.writeRow_sAct (s : State) (i : Fin 10) (v : Byte) : (s.writeRow i v).sAct = s.sAct := rfl
@[simp] theorem State.writeRow_rem (s : State) (i : Fin 10) (v : Byte) : (s.writeRow i v).rem = s.rem := rfl
@[simp] theorem State.writeRow_note (s : State) (i : Fin 10) (v : Byte) : (s.writeRow i v).note = s.note := rfl
@[simp] theorem State.writeRow_cursor (s : State) (i : Fin 10) (v : Byte) : (s.writeRow i v).cursor = s.cursor := rfl
@[simp] theorem State.writeRow_loopStart (s : State) (i : Fin 10) (v : Byte) : (s.writeRow i v).loopStart = s.loopStart := rfl
@[simp] theorem State.writeRow_playing (s : State) (i : Fin 10) (v : Byte) : (s.writeRow i v).playing = s.playing := rfl
@[simp] theorem State.writeRow_loop (s : State) (i : Fin 10) (v : Byte) : (s.writeRow i v).loop = s.loop := rfl
@[simp] theorem State.writeRow_ready (s : State) (i : Fin 10) (v : Byte) : (s.writeRow i v).ready = s.ready := rfl
@[simp] theorem State.writeRow_pwmEn (s : State) (i : Fin 10) (v : Byte) : (s.writeRow i v).pwmEn = s.pwmEn := rfl
@[simp] theorem State.writeRow_run (s : State) (i : Fin 10) (v : Byte) : (s.writeRow i v).run = s.run := rfl
@[simp] theorem State.writeRow_envA (s : State) (i : Fin 10) (v : Byte) : (s.writeRow i v).envA = s.envA := rfl
@[simp] theorem State.writeRow_envD (s : State) (i : Fin 10) (v : Byte) : (s.writeRow i v).envD = s.envD := rfl
@[simp] theorem State.writeRow_envS (s : State) (i : Fin 10) (v : Byte) : (s.writeRow i v).envS = s.envS := rfl
@[simp] theorem State.writeRow_envR (s : State) (i : Fin 10) (v : Byte) : (s.writeRow i v).envR = s.envR := rfl
@[simp] theorem State.writeRow_wsel (s : State) (i : Fin 10) (v : Byte) : (s.writeRow i v).wsel = s.wsel := rfl
@[simp] theorem State.writeRow_swapInterval (s : State) (i : Fin 10) (v : Byte) : (s.writeRow i v).swapInterval = s.swapInterval := rfl
@[simp] theorem State.writeRow_color (s : State) (i : Fin 10) (v : Byte) : (s.writeRow i v).color = s.color := rfl
@[simp] theorem State.writeRow_rowdiv (s : State) (i : Fin 10) (v : Byte) : (s.writeRow i v).rowdiv = s.rowdiv := rfl
@[simp] theorem State.writeRow_rphase (s : State) (i : Fin 10) (v : Byte) : (s.writeRow i v).rphase = s.rphase := rfl
@[simp] theorem State.writeRow_swapCnt (s : State) (i : Fin 10) (v : Byte) : (s.writeRow i v).swapCnt = s.swapCnt := rfl
@[simp] theorem State.writeRow_fb (s : State) (i : Fin 10) (v : Byte) : (s.writeRow i v).fb = s.fb.set i.val v := rfl
@[simp] theorem State.writeRow_level (s : State) (i : Fin 10) (v : Byte) : (s.writeRow i v).level = s.level := rfl
@[simp] theorem State.writeRow_edge (s : State) (i : Fin 10) (v : Byte) : (s.writeRow i v).edge = s.edge := rfl
@[simp] theorem State.writeRow_held (s : State) (i : Fin 10) (v : Byte) : (s.writeRow i v).held = s.held := rfl
@[simp] theorem State.writeRow_event (s : State) (i : Fin 10) (v : Byte) : (s.writeRow i v).event = s.event := rfl
@[simp] theorem State.writeRow_rowOut (s : State) (i : Fin 10) (v : Byte) : (s.writeRow i v).rowOut = s.rowOut := rfl
@[simp] theorem State.writeRow_colEn (s : State) (i : Fin 10) (v : Byte) : (s.writeRow i v).colEn = s.colEn := rfl
@[simp] theorem State.writeRow_swScan (s : State) (i : Fin 10) (v : Byte) : (s.writeRow i v).swScan = s.swScan := rfl
@[simp] theorem State.writeRow_cfg (s : State) (i : Fin 10) (v : Byte) : (s.writeRow i v).cfg = s.cfg := rfl
@[simp] theorem State.writeRow_song (s : State) (i : Fin 10) (v : Byte) : (s.writeRow i v).song = s.song := rfl
@[simp] theorem State.writeRow_host (s : State) (i : Fin 10) (v : Byte) : (s.writeRow i v).host = s.host := rfl
@[simp] theorem State.writeRow_hostIn (s : State) (i : Fin 10) (v : Byte) : (s.writeRow i v).hostIn = s.hostIn := rfl
@[simp] theorem State.writeRow_replies (s : State) (i : Fin 10) (v : Byte) : (s.writeRow i v).replies = s.replies := rfl
@[simp] theorem State.writeRow_trace (s : State) (i : Fin 10) (v : Byte) : (s.writeRow i v).trace = s.trace := rfl
@[simp] theorem State.writeRow_inputs (s : State) (i : Fin 10) (v : Byte) : (s.writeRow i v).inputs = s.inputs := rfl
@[simp] theorem State.writeRow_draws (s : State) (i : Fin 10) (v : Byte) : (s.writeRow i v).draws = s.draws := rfl

/-! ### reply -/

@[simp] theorem State.reply_phase (s : State) (bs : List Byte) : (s.reply bs).phase = s.phase := rfl
@[simp] theorem State.reply_pdelta (s : State) (bs : List Byte) : (s.reply bs).pdelta = s.pdelta := rfl
@[simp] theorem State.reply_pwmNext (s : State) (bs : List Byte) : (s.reply bs).pwmNext = s.pwmNext := rfl
@[simp] theorem State.reply_pwmLevel (s : State) (bs : List Byte) : (s.reply bs).pwmLevel = s.pwmLevel := rfl
@[simp] theorem State.reply_env (s : State) (bs : List Byte) : (s.reply bs).env = s.env := rfl
@[simp] theorem State.reply_envDelta (s : State) (bs : List Byte) : (s.reply bs).envDelta = s.envDelta := rfl
@[simp] theorem State.reply_atkStart (s : State) (bs : List Byte) : (s.reply bs).atkStart = s.atkStart := rfl
@[simp] theorem State.reply_decStart (s : State) (bs : List Byte) : (s.reply bs).decStart = s.decStart := rfl
@[simp] theorem State.reply_susStart (s : State) (bs : List Byte) : (s.reply bs).susStart = s.susStart := rfl
@[simp] theorem State.reply_relStart (s : State) (bs : List Byte) : (s.reply bs).relStart = s.relStart := rfl
@[simp] theorem State.reply_sAct (s : State) (bs : List Byte) : (s.reply bs).sAct = s.sAct := rfl
@[simp] theorem State.reply_rem (s : State) (bs : List Byte) : (s.reply bs).rem = s.rem := rfl
@[simp] theorem State.reply_note (s : State) (bs : List Byte) : (s.reply bs).note = s.note := rfl
@[simp] theorem State.reply_cursor (s : State) (bs : List Byte) : (s.reply bs).cursor = s.cursor := rfl
@[simp] theorem State.reply_loopStart (s : State) (bs : List Byte) : (s.reply bs).loopStart = s.loopStart := rfl
@[simp] theorem State.reply_playing (s : State) (bs : List Byte) : (s.reply bs).playing = s.playing := rfl
@[simp] theorem State.reply_loop (s : State) (bs : List Byte) : (s.reply bs).loop = s.loop := rfl
@[simp] theorem State.reply_ready (s : State) (bs : List Byte) : (s.reply bs).ready = s.ready := rfl
@[simp] theorem State.reply_pwmEn (s : State) (bs : List Byte) : (s.reply bs).pwmEn = s.pwmEn := rfl
@[simp] theorem State.reply_run (s : State) (bs : List Byte) : (s.reply bs).run = s.run := rfl
@[simp] theorem State.reply_envA (s : State) (bs : List Byte) : (s.reply bs).envA = s.envA := rfl
@[simp] theorem State.reply_envD (s : State) (bs : List Byte) : (s.reply bs).envD = s.envD := rfl
@[simp] theorem State.reply_envS (s : State) (bs : List Byte) : (s.reply bs).envS = s.envS := rfl
@[simp] theorem State.reply_envR (s : State) (bs : List Byte) : (s.reply bs).envR = s.envR := rfl
@[simp] theorem State.reply_wsel (s : State) (bs : List Byte) : (s.reply bs).wsel = s.wsel := rfl
@[simp] theorem State.reply_swapInterval (s : State) (bs : List Byte) : (s.reply bs).swapInterval = s.swapInterval := rfl
@[simp] theorem State.reply_color (s : State) (bs : List Byte) : (s.reply bs).color = s.color := rfl
@[simp] theorem State.reply_rowdiv (s : State) (bs : List Byte) : (s.reply bs).rowdiv = s.rowdiv := rfl
@[simp] theorem State.reply_rphase (s : State) (bs : List Byte) : (s.reply bs).rphase = s.rphase := rfl
@[simp] theorem State.reply_swapCnt (s : State) (bs : List Byte) : (s.reply bs).swapCnt = s.swapCnt := rfl
@[simp] theorem State.reply_fb (s : State) (bs : List Byte) : (s.reply bs).fb = s.fb := rfl
@[simp] theorem State.reply_level (s : State) (bs : List Byte) : (s.reply bs).level = s.level := rfl
@[simp] theorem State.reply_edge (s : State) (bs : List Byte) : (s.reply bs).edge = s.edge := rfl
@[simp] theorem State.reply_held (s : State) (bs : List Byte) : (s.reply bs).held = s.held := rfl
@[simp] theorem State.reply_event (s : State) (bs : List Byte) : (s.reply bs).event = s.event := rfl
@[simp] theorem State.reply_rowOut (s : State) (bs : List Byte) : (s.reply bs).rowOut = s.rowOut := rfl
@[simp] theorem State.reply_colEn (s : State) (bs : List Byte) : (s.reply bs).colEn = s.colEn := rfl
@[simp] theorem State.reply_swScan (s : State) (bs : List Byte) : (s.reply bs).swScan = s.swScan := rfl
@[simp] theorem State.reply_cfg (s : State) (bs : List Byte) : (s.reply bs).cfg = s.cfg := rfl
@[simp] theorem State.reply_song (s : State) (bs : List Byte) : (s.reply bs).song = s.song := rfl
@[simp] theorem State.reply_host (s : State) (bs : List Byte) : (s.reply bs).host = s.host := rfl
@[simp] theorem State.reply_hostIn (s : State) (bs : List Byte) : (s.reply bs).hostIn = s.hostIn := rfl
@[simp] theorem State.reply_replies (s : State) (bs : List Byte) : (s.reply bs).replies = s.replies ++ bs := rfl
@[simp] theorem State.reply_trace (s : State) (bs : List Byte) : (s.reply bs).trace = s.trace := rfl
@[simp] theorem State.reply_inputs (s : State) (bs : List Byte) : (s.reply bs).inputs = s.inputs := rfl
@[simp] theorem State.reply_draws (s : State) (bs : List Byte) : (s.reply bs).draws = s.draws := rfl

/-! ### drawn -/

@[simp] theorem State.drawn_phase (s : State) : s.drawn.phase = s.phase := rfl
@[simp] theorem State.drawn_pdelta (s : State) : s.drawn.pdelta = s.pdelta := rfl
@[simp] theorem State.drawn_pwmNext (s : State) : s.drawn.pwmNext = s.pwmNext := rfl
@[simp] theorem State.drawn_pwmLevel (s : State) : s.drawn.pwmLevel = s.pwmLevel := rfl
@[simp] theorem State.drawn_env (s : State) : s.drawn.env = s.env := rfl
@[simp] theorem State.drawn_envDelta (s : State) : s.drawn.envDelta = s.envDelta := rfl
@[simp] theorem State.drawn_atkStart (s : State) : s.drawn.atkStart = s.atkStart := rfl
@[simp] theorem State.drawn_decStart (s : State) : s.drawn.decStart = s.decStart := rfl
@[simp] theorem State.drawn_susStart (s : State) : s.drawn.susStart = s.susStart := rfl
@[simp] theorem State.drawn_relStart (s : State) : s.drawn.relStart = s.relStart := rfl
@[simp] theorem State.drawn_sAct (s : State) : s.drawn.sAct = s.sAct := rfl
@[simp] theorem State.drawn_rem (s : State) : s.drawn.rem = s.rem := rfl
@[simp] theorem State.drawn_note (s : State) : s.drawn.note = s.note := rfl
@[simp] theorem State.drawn_cursor (s : State) : s.drawn.cursor = s.cursor := rfl
@[simp] theorem State.drawn_loopStart (s : State) : s.drawn.loopStart = s.loopStart := rfl
@[simp] theorem State.drawn_playing (s : State) : s.drawn.playing = s.playing := rfl
@[simp] theorem State.drawn_loop (s : State) : s.drawn.loop = s.loop := rfl
@[simp] theorem State.drawn_ready (s : State) : s.drawn.ready = s.ready := rfl
@[simp] theorem State.drawn_pwmEn (s : State) : s.drawn.pwmEn = s.pwmEn := rfl
@[simp] theorem State.drawn_run (s : State) : s.drawn.run = s.run := rfl
@[simp] theorem State.drawn_envA (s : State) : s.drawn.envA = s.envA := rfl
@[simp] theorem State.drawn_envD (s : State) : s.drawn.envD = s.envD := rfl
@[simp] theorem State.drawn_envS (s : State) : s.drawn.envS = s.envS := rfl
@[simp] theorem State.drawn_envR (s : State) : s.drawn.envR = s.envR := rfl
@[simp] theorem State.drawn_wsel (s : State) : s.drawn.wsel = s.wsel := rfl
@[simp] theorem State.drawn_swapInterval (s : State) : s.drawn.swapInterval = s.swapInterval := rfl
@[simp] theorem State.drawn_color (s : State) : s.drawn.color = s.color := rfl
@[simp] theorem State.drawn_rowdiv (s : State) : s.drawn.rowdiv = s.rowdiv := rfl
@[simp] theorem State.drawn_rphase (s : State) : s.drawn.rphase = s.rphase := rfl
@[simp] theorem State.drawn_swapCnt (s : State) : s.drawn.swapCnt = s.swapCnt := rfl
@[simp] theorem State.drawn_fb (s : State) : s.drawn.fb = s.fb := rfl
@[simp] theorem State.drawn_level (s : State) : s.drawn.level = s.level := rfl
@[simp] theorem State.drawn_edge (s : State) : s.drawn.edge = s.edge := rfl
@[simp] theorem State.drawn_held (s : State) : s.drawn.held = s.held := rfl
@[simp] theorem State.drawn_event (s : State) : s.drawn.event = s.event := rfl
@[simp] theorem State.drawn_rowOut (s : State) : s.drawn.rowOut = s.rowOut := rfl
@[simp] theorem State.drawn_colEn (s : State) : s.drawn.colEn = s.colEn := rfl
@[simp] theorem State.drawn_swScan (s : State) : s.drawn.swScan = s.swScan := rfl
@[simp] theorem State.drawn_cfg (s : State) : s.drawn.cfg = s.cfg := rfl
@[simp] theorem State.drawn_song (s : State) : s.drawn.song = s.song := rfl
@[simp] theorem State.drawn_host (s : State) : s.drawn.host = s.host := rfl
@[simp] theorem State.drawn_hostIn (s : State) : s.drawn.hostIn = s.hostIn := rfl
@[simp] theorem State.drawn_replies (s : State) : s.drawn.replies = s.replies := rfl
@[simp] theorem State.drawn_trace (s : State) : s.drawn.trace = s.trace := rfl
@[simp] theorem State.drawn_inputs (s : State) : s.drawn.inputs = s.inputs := rfl
@[simp] theorem State.drawn_draws (s : State) : s.drawn.draws = s.draws + 1 := rfl

/-! ### enablePwm -/

@[simp] theorem State.enablePwm_phase (s : State) : s.enablePwm.phase = s.phase := rfl
@[simp] theorem State.enablePwm_pdelta (s : State) : s.enablePwm.pdelta = s.pdelta := rfl
@[simp] theorem State.enablePwm_pwmNext (s : State) : s.enablePwm.pwmNext = s.pwmNext := rfl
@[simp] theorem State.enablePwm_pwmLevel (s : State) : s.enablePwm.pwmLevel = s.pwmLevel := rfl
@[simp] theorem State.enablePwm_env (s : State) : s.enablePwm.env = s.env := rfl
@[simp] theorem State.enablePwm_envDelta (s : State) : s.enablePwm.envDelta = s.envDelta := rfl
@[simp] theorem State.enablePwm_atkStart (s : State) : s.enablePwm.atkStart = s.atkStart := rfl
@[simp] theorem State.enablePwm_decStart (s : State) : s.enablePwm.decStart = s.decStart := rfl
@[simp] theorem State.enablePwm_susStart (s : State) : s.enablePwm.susStart = s.susStart := rfl
@[simp] theorem State.enablePwm_relStart (s : State) : s.enablePwm.relStart = s.relStart := rfl
@[simp] theorem State.enablePwm_sAct (s : State) : s.enablePwm.sAct = s.sAct := rfl
@[simp] theorem State.enablePwm_rem (s : State) : s.enablePwm.rem = s.rem := rfl
@[simp] theorem State.enablePwm_note (s : State) : s.enablePwm.note = s.note := rfl
@[simp] theorem State.enablePwm_cursor (s : State) : s.enablePwm.cursor = s.cursor := rfl
@[simp] theorem State.enablePwm_loopStart (s : State) : s.enablePwm.loopStart = s.loopStart := rfl
@[simp] theorem State.enablePwm_playing (s : State) : s.enablePwm.playing = s.playing := rfl
@[simp] theorem State.enablePwm_loop (s : State) : s.enablePwm.loop = s.loop := rfl
@[simp] theorem State.enablePwm_ready (s : State) : s.enablePwm.ready = s.ready := rfl
@[simp] theorem State.enablePwm_pwmEn (s : State) : s.enablePwm.pwmEn = true := rfl
@[simp] theorem State.enablePwm_run (s : State) : s.enablePwm.run = s.run := rfl
@[simp] theorem State.enablePwm_envA (s : State) : s.enablePwm.envA = s.envA := rfl
@[simp] theorem State.enablePwm_envD (s : State) : s.enablePwm.envD = s.envD := rfl
@[simp] theorem State.enablePwm_envS (s : State) : s.enablePwm.envS = s.envS := rfl
@[simp] theorem State.enablePwm_envR (s : State) : s.enablePwm.envR = s.envR := rfl
@[simp] theorem State.enablePwm_wsel (s : State) : s.enablePwm.wsel = s.wsel := rfl
@[simp] theorem State.enablePwm_swapInterval (s : State) : s.enablePwm.swapInterval = s.swapInterval := rfl
@[simp] theorem State.enablePwm_color (s : State) : s.enablePwm.color = s.color := rfl
@[simp] theorem State.enablePwm_rowdiv (s : State) : s.enablePwm.rowdiv = s.rowdiv := rfl
@[simp] theorem State.enablePwm_rphase (s : State) : s.enablePwm.rphase = s.rphase := rfl
@[simp] theorem State.enablePwm_swapCnt (s : State) : s.enablePwm.swapCnt = s.swapCnt := rfl
@[simp] theorem State.enablePwm_fb (s : State) : s.enablePwm.fb = s.fb := rfl
@[simp] theorem State.enablePwm_level (s : State) : s.enablePwm.level = s.level := rfl
@[simp] theorem State.enablePwm_edge (s : State) : s.enablePwm.edge = s.edge := rfl
@[simp] theorem State.enablePwm_held (s : State) : s.enablePwm.held = s.held := rfl
@[simp] theorem State.enablePwm_event (s : State) : s.enablePwm.event = s.event := rfl
@[simp] theorem State.enablePwm_rowOut (s : State) : s.enablePwm.rowOut = s.rowOut := rfl
@[simp] theorem State.enablePwm_colEn (s : State) : s.enablePwm.colEn = s.colEn := rfl
@[simp] theorem State.enablePwm_swScan (s : State) : s.enablePwm.swScan = s.swScan := rfl
@[simp] theorem State.enablePwm_cfg (s : State) : s.enablePwm.cfg = s.cfg := rfl
@[simp] theorem State.enablePwm_song (s : State) : s.enablePwm.song = s.song := rfl
@[simp] theorem State.enablePwm_host (s : State) : s.enablePwm.host = s.host := rfl
@[simp] theorem State.enablePwm_hostIn (s : State) : s.enablePwm.hostIn = s.hostIn := rfl
@[simp] theorem State.enablePwm_replies (s : State) : s.enablePwm.replies = s.replies := rfl
@[simp] theorem State.enablePwm_trace (s : State) : s.enablePwm.trace = s.trace ++ [.pwmEnable true] := rfl
@[simp] theorem State.enablePwm_inputs (s : State) : s.enablePwm.inputs = s.inputs := rfl
@[simp] theorem State.enablePwm_draws (s : State) : s.enablePwm.draws = s.draws := rfl

/-! ### disablePwm -/

@[simp] theorem State.disablePwm_phase (s : State) : s.disablePwm.phase = s.phase := rfl
@[simp] theorem State.disablePwm_pdelta (s : State) : s.disablePwm.pdelta = s.pdelta := rfl
@[simp] theorem State.disablePwm_pwmNext (s : State) : s.disablePwm.pwmNext = s.pwmNext := rfl
@[simp] theorem State.disablePwm_pwmLevel (s : State) : s.disablePwm.pwmLevel = s.pwmLevel := rfl
@[simp] theorem State.disablePwm_env (s : State) : s.disablePwm.env = s.env := rfl
@[simp] theorem State.disablePwm_envDelta (s : State) : s.disablePwm.envDelta = s.envDelta := rfl
@[simp] theorem State.disablePwm_atkStart (s : State) : s.disablePwm.atkStart = s.atkStart := rfl
@[simp] theorem State.disablePwm_decStart (s : State) : s.disablePwm.decStart = s.decStart := rfl
@[simp] theorem State.disablePwm_susStart (s : State) : s.disablePwm.susStart = s.susStart := rfl
@[simp] theorem State.disablePwm_relStart (s : State) : s.disablePwm.relStart = s.relStart := rfl
@[simp] theorem State.disablePwm_sAct (s : State) : s.disablePwm.sAct = s.sAct := rfl
@[simp] theorem State.disablePwm_rem (s : State) : s.disablePwm.rem = s.rem := rfl
@[simp] theorem State.disablePwm_note (s : State) : s.disablePwm.note = s.note := rfl
@[simp] theorem State.disablePwm_cursor (s : State) : s.disablePwm.cursor = s.cursor := rfl
@[simp] theorem State.disablePwm_loopStart (s : State) : s.disablePwm.loopStart = s.loopStart := rfl
@[simp] theorem State.disablePwm_playing (s : State) : s.disablePwm.playing = s.playing := rfl
@[simp] theorem State.disablePwm_loop (s : State) : s.disablePwm.loop = s.loop := rfl
@[simp] theorem State.disablePwm_ready (s : State) : s.disablePwm.ready = s.ready := rfl
@[simp] theorem State.disablePwm_pwmEn (s : State) : s.disablePwm.pwmEn = false := rfl
@[simp] theorem State.disablePwm_run (s : State) : s.disablePwm.run = s.run := rfl
@[simp] theorem State.disablePwm_envA (s : State) : s.disablePwm.envA = s.envA := rfl
@[simp] theorem State.disablePwm_envD (s : State) : s.disablePwm.envD = s.envD := rfl
@[simp] theorem State.disablePwm_envS (s : State) : s.disablePwm.envS = s.envS := rfl
@[simp] theorem State.disablePwm_envR (s : State) : s.disablePwm.envR = s.envR := rfl
@[simp] theorem State.disablePwm_wsel (s : State) : s.disablePwm.wsel = s.wsel := rfl
@[simp] theorem State.disablePwm_swapInterval (s : State) : s.disablePwm.swapInterval = s.swapInterval := rfl
@[simp] theorem State.disablePwm_color (s : State) : s.disablePwm.color = s.color := rfl
@[simp] theorem State.disablePwm_rowdiv (s : State) : s.disablePwm.rowdiv = s.rowdiv := rfl
@[simp] theorem State.disablePwm_rphase (s : State) : s.disablePwm.rphase = s.rphase := rfl
@[simp] theorem State.disablePwm_swapCnt (s : State) : s.disablePwm.swapCnt = s.swapCnt := rfl
@[simp] theorem State.disablePwm_fb (s : State) : s.disablePwm.fb = s.fb := rfl
@[simp] theorem State.disablePwm_level (s : State) : s.disablePwm.level = s.level := rfl
@[simp] theorem State.disablePwm_edge (s : State) : s.disablePwm.edge = s.edge := rfl
@[simp] theorem State.disablePwm_held (s : State) : s.disablePwm.held = s.held := rfl
@[simp] theorem State.disablePwm_event (s : State) : s.disablePwm.event = s.event := rfl
@[simp] theorem State.disablePwm_rowOut (s : State) : s.disablePwm.rowOut = s.rowOut := rfl
@[simp] theorem State.disablePwm_colEn (s : State) : s.disablePwm.colEn = s.colEn := rfl
@[simp] theorem State.disablePwm_swScan (s : State) : s.disablePwm.swScan = s.swScan := rfl
@[simp] theorem State.disablePwm_cfg (s : State) : s.disablePwm.cfg = s.cfg := rfl
@[simp] theorem State.disablePwm_song (s : State) : s.disablePwm.song = s.song := rfl
@[simp] theorem State.disablePwm_host (s : State) : s.disablePwm.host = s.host := rfl
@[simp] theorem State.disablePwm_hostIn (s : State) : s.disablePwm.hostIn = s.hostIn := rfl
@[simp] theorem State.disablePwm_replies (s : State) : s.disablePwm.replies = s.replies := rfl
@[simp] theorem State.disablePwm_trace (s : State) : s.disablePwm.trace = s.trace ++ [.pwmEnable false] := rfl
@[simp] theorem State.disablePwm_inputs (s : State) : s.disablePwm.inputs = s.inputs := rfl
@[simp] theorem State.disablePwm_draws (s : State) : s.disablePwm.draws = s.draws := rfl

/-! ### stopPlayback -/

@[simp] theorem State.stopPlayback_phase (s : State) : s.stopPlayback.phase = s.phase := rfl
@[simp] theorem State.stopPlayback_pdelta (s : State) : s.stopPlayback.pdelta = s.pdelta := rfl
@[simp] theorem State.stopPlayback_pwmNext (s : State) : s.stopPlayback.pwmNext = s.pwmNext := rfl
@[simp] theorem State.stopPlayback_pwmLevel (s : State) : s.stopPlayback.pwmLevel = s.pwmLevel := rfl
@[simp] theorem State.stopPlayback_env (s : State) : s.stopPlayback.env = s.env := rfl
@[simp] theorem State.stopPlayback_envDelta (s : State) : s.stopPlayback.envDelta = s.envDelta := rfl
@[simp] theorem State.stopPlayback_atkStart (s : State) : s.stopPlayback.atkStart = s.atkStart := rfl
@[simp] theorem State.stopPlayback_decStart (s : State) : s.stopPlayback.decStart = s.decStart := rfl
@[simp] theorem State.stopPlayback_susStart (s : State) : s.stopPlayback.susStart = s.susStart := rfl
@[simp] theorem State.stopPlayback_relStart (s : State) : s.stopPlayback.relStart = s.relStart := rfl
@[simp] theorem State.stopPlayback_sAct (s : State) : s.stopPlayback.sAct = s.sAct := rfl
@[simp] theorem State.stopPlayback_rem (s : State) : s.stopPlayback.rem = s.rem := rfl
@[simp] theorem State.stopPlayback_note (s : State) : s.stopPlayback.note = s.note := rfl
@[simp] theorem State.stopPlayback_cursor (s : State) : s.stopPlayback.cursor = s.cursor := rfl
@[simp] theorem State.stopPlayback_loopStart (s : State) : s.stopPlayback.loopStart = s.loopStart := rfl
@[simp] theorem State.stopPlayback_playing (s : State) : s.stopPlayback.playing = false := rfl
@[simp] theorem State.stopPlayback_loop (s : State) : s.stopPlayback.loop = s.loop := rfl
@[simp] theorem State.stopPlayback_ready (s : State) : s.stopPlayback.ready = s.ready := rfl
@[simp] theorem State.stopPlayback_pwmEn (s : State) : s.stopPlayback.pwmEn = false := rfl
@[simp] theorem State.stopPlayback_run (s : State) : s.stopPlayback.run = s.run := rfl
@[simp] theorem State.stopPlayback_envA (s : State) : s.stopPlayback.envA = s.envA := rfl
@[simp] theorem State.stopPlayback_envD (s : State) : s.stopPlayback.envD = s.envD := rfl
@[simp] theorem State.stopPlayback_envS (s : State) : s.stopPlayback.envS = s.envS := rfl
@[simp] theorem State.stopPlayback_envR (s : State) : s.stopPlayback.envR = s.envR := rfl
@[simp] theorem State.stopPlayback_wsel (s : State) : s.stopPlayback.wsel = s.wsel := rfl
@[simp] theorem State.stopPlayback_swapInterval (s : State) : s.stopPlayback.swapInterval = s.swapInterval := rfl
@[simp] theorem State.stopPlayback_color (s : State) : s.stopPlayback.color = s.color := rfl
@[simp] theorem State.stopPlayback_rowdiv (s : State) : s.stopPlayback.rowdiv = s.rowdiv := rfl
@[simp] theorem State.stopPlayback_rphase (s : State) : s.stopPlayback.rphase = s.rphase := rfl
@[simp] theorem State.stopPlayback_swapCnt (s : State) : s.stopPlayback.swapCnt = s.swapCnt := rfl
@[simp] theorem State.stopPlayback_fb (s : State) : s.stopPlayback.fb = s.fb := rfl
@[simp] theorem State.stopPlayback_level (s : State) : s.stopPlayback.level = s.level := rfl
@[simp] theorem State.stopPlayback_edge (s : State) : s.stopPlayback.edge = s.edge := rfl
@[simp] theorem State.stopPlayback_held (s : State) : s.stopPlayback.held = s.held := rfl
@[simp] theorem State.stopPlayback_event (s : State) : s.stopPlayback.event = s.event := rfl
@[simp] theorem State.stopPlayback_rowOut (s : State) : s.stopPlayback.rowOut = s.rowOut := rfl
@[simp] theorem State.stopPlayback_colEn (s : State) : s.stopPlayback.colEn = s.colEn := rfl
@[simp] theorem State.stopPlayback_swScan (s : State) : s.stopPlayback.swScan = s.swScan := rfl
@[simp] theorem State.stopPlayback_cfg (s : State) : s.stopPlayback.cfg = s.cfg := rfl
@[simp] theorem State.stopPlayback_song (s : State) : s.stopPlayback.song = s.song := rfl
@[simp] theorem State.stopPlayback_host (s : State) : s.stopPlayback.host = s.host := rfl
@[simp] theorem State.stopPlayback_hostIn (s : State) : s.stopPlayback.hostIn = s.hostIn := rfl
@[simp] theorem State.stopPlayback_replies (s : State) : s.stopPlayback.replies = s.replies := rfl
@[simp] theorem State.stopPlayback_trace (s : State) : s.stopPlayback.trace = s.trace ++ [.pwmEnable false] := rfl
@[simp] theorem State.stopPlayback_inputs (s : State) : s.stopPlayback.inputs = s.inputs := rfl
@[simp] theorem State.stopPlayback_draws (s : State) : s.stopPlayback.draws = s.draws := rfl

/-! ### setLoop -/

@[simp] theorem State.setLoop_phase (s : State) (flag : Bool) : (s.setLoop flag).phase = s.phase := rfl
@[simp] theorem State.setLoop_pdelta (s : State) (flag : Bool) : (s.setLoop flag).pdelta = s.pdelta := rfl
@[simp] theorem State.setLoop_pwmNext (s : State) (flag : Bool) : (s.setLoop flag).pwmNext = s.pwmNext := rfl
@[simp] theorem State.setLoop_pwmLevel (s : State) (flag : Bool) : (s.setLoop flag).pwmLevel = s.pwmLevel := rfl
@[simp] theorem State.setLoop_env (s : State) (flag : Bool) : (s.setLoop flag).env = s.env := rfl
@[simp] theorem State.setLoop_envDelta (s : State) (flag : Bool) : (s.setLoop flag).envDelta = s.envDelta := rfl
@[simp] theorem State.setLoop_atkStart (s : State) (flag : Bool) : (s.setLoop flag).atkStart = s.atkStart := rfl
@[simp] theorem State.setLoop_decStart (s : State) (flag : Bool) : (s.setLoop flag).decStart = s.decStart := rfl
@[simp] theorem State.setLoop_susStart (s : State) (flag : Bool) : (s.setLoop flag).susStart = s.susStart := rfl
@[simp] theorem State.setLoop_relStart (s : State) (flag : Bool) : (s.setLoop flag).relStart = s.relStart := rfl
@[simp] theorem State.setLoop_sAct (s : State) (flag : Bool) : (s.setLoop flag).sAct = s.sAct := rfl
@[simp] theorem State.setLoop_rem (s : State) (flag : Bool) : (s.setLoop flag).rem = s.rem := rfl
@[simp] theorem State.setLoop_note (s : State) (flag : Bool) : (s.setLoop flag).note = s.note := rfl
@[simp] theorem State.setLoop_cursor (s : State) (flag : Bool) : (s.setLoop flag).cursor = s.cursor := rfl
@[simp] theorem State.setLoop_loopStart (s : State) (flag : Bool) : (s.setLoop flag).loopStart = s.loopStart := rfl
@[simp] theorem State.setLoop_playing (s : State) (flag : Bool) : (s.setLoop flag).playing = s.playing := rfl
@[simp] theorem State.setLoop_loop (s : State) (flag : Bool) : (s.setLoop flag).loop = flag := rfl
@[simp] theorem State.setLoop_ready (s : State) (flag : Bool) : (s.setLoop flag).ready = s.ready := rfl
@[simp] theorem State.setLoop_pwmEn (s : State) (flag : Bool) : (s.setLoop flag).pwmEn = s.pwmEn := rfl
@[simp] theorem State.setLoop_run (s : State) (flag : Bool) : (s.setLoop flag).run = s.run := rfl
@[simp] theorem State.setLoop_envA (s : State) (flag : Bool) : (s.setLoop flag).envA = s.envA := rfl
@[simp] theorem State.setLoop_envD (s : State) (flag : Bool) : (s.setLoop flag).envD = s.envD := rfl
@[simp] theorem State.setLoop_envS (s : State) (flag : Bool) : (s.setLoop flag).envS = s.envS := rfl
@[simp] theorem State.setLoop_envR (s : State) (flag : Bool) : (s.setLoop flag).envR = s.envR := rfl
@[simp] theorem State.setLoop_wsel (s : State) (flag : Bool) : (s.setLoop flag).wsel = s.wsel := rfl
@[simp] theorem State.setLoop_swapInterval (s : State) (flag : Bool) : (s.setLoop flag).swapInterval = s.swapInterval := rfl
@[simp] theorem State.setLoop_color (s : State) (flag : Bool) : (s.setLoop flag).color = s.color := rfl
@[simp] theorem State.setLoop_rowdiv (s : State) (flag : Bool) : (s.setLoop flag).rowdiv = s.rowdiv := rfl
@[simp] theorem State.setLoop_rphase (s : State) (flag : Bool) : (s.setLoop flag).rphase = s.rphase := rfl
@[simp] theorem State.setLoop_swapCnt (s : State) (flag : Bool) : (s.setLoop flag).swapCnt = s.swapCnt := rfl
@[simp] theorem State.setLoop_fb (s : State) (flag : Bool) : (s.setLoop flag).fb = s.fb := rfl
@[simp] theorem State.setLoop_level (s : State) (flag : Bool) : (s.setLoop flag).level = s.level := rfl
@[simp] theorem State.setLoop_edge (s : State) (flag : Bool) : (s.setLoop flag).edge = s.edge := rfl
@[simp] theorem State.setLoop_held (s : State) (flag : Bool) : (s.setLoop flag).held = s.held := rfl
@[simp] theorem State.setLoop_event (s : State) (flag : Bool) : (s.setLoop flag).event = s.event := rfl
@[simp] theorem State.setLoop_rowOut (s : State) (flag : Bool) : (s.setLoop flag).rowOut = s.rowOut := rfl
@[simp] theorem State.setLoop_colEn (s : State) (flag : Bool) : (s.setLoop flag).colEn = s.colEn := rfl
@[simp] theorem State.setLoop_swScan (s : State) (flag : Bool) : (s.setLoop flag).swScan = s.swScan := rfl
@[simp] theorem State.setLoop_cfg (s : State) (flag : Bool) : (s.setLoop flag).cfg = s.cfg := rfl
@[simp] theorem State.setLoop_song (s : State) (flag : Bool) : (s.setLoop flag).song = s.song := rfl
@[simp] theorem State.setLoop_host (s : State) (flag : Bool) : (s.setLoop flag).host = s.host := rfl
@[simp] theorem State.setLoop_hostIn (s : State) (flag : Bool) : (s.setLoop flag).hostIn = s.hostIn := rfl
@[simp] theorem State.setLoop_replies (s : State) (flag : Bool) : (s.setLoop flag).replies = s.replies := rfl
@[simp] theorem State.setLoop_trace (s : State) (flag : Bool) : (s.setLoop flag).trace = s.trace := rfl
@[simp] theorem State.setLoop_inputs (s : State) (flag : Bool) : (s.setLoop flag).inputs = s.inputs := rfl
@[simp] theorem State.setLoop_draws (s : State) (flag : Bool) : (s.setLoop flag).draws = s.draws := rfl

/-! ### setReady -/

@[simp] theorem State.setReady_phase (s : State) : s.setReady.phase = s.phase := rfl
@[simp] theorem State.setReady_pdelta (s : State) : s.setReady.pdelta = s.pdelta := rfl
@[simp] theorem State.setReady_pwmNext (s : State) : s.setReady.pwmNext = s.pwmNext := rfl
@[simp] theorem State.setReady_pwmLevel (s : State) : s.setReady.pwmLevel = s.pwmLevel := rfl
@[simp] theorem State.setReady_env (s : State) : s.setReady.env = s.env := rfl
@[simp] theorem State.setReady_envDelta (s : State) : s.setReady.envDelta = s.envDelta := rfl
@[simp] theorem State.setReady_atkStart (s : State) : s.setReady.atkStart = s.atkStart := rfl
@[simp] theorem State.setReady_decStart (s : State) : s.setReady.decStart = s.decStart := rfl
@[simp] theorem State.setReady_susStart (s : State) : s.setReady.susStart = s.susStart := rfl
@[simp] theorem State.setReady_relStart (s : State) : s.setReady.relStart = s.relStart := rfl
@[simp] theorem State.setReady_sAct (s : State) : s.setReady.sAct = s.sAct := rfl
@[simp] theorem State.setReady_rem (s : State) : s.setReady.rem = s.rem := rfl
@[simp] theorem State.setReady_note (s : State) : s.setReady.note = s.note := rfl
@[simp] theorem State.setReady_cursor (s : State) : s.setReady.cursor = s.cursor := rfl
@[simp] theorem State.setReady_loopStart (s : State) : s.setReady.loopStart = s.loopStart := rfl
@[simp] theorem State.setReady_playing (s : State) : s.setReady.playing = s.playing := rfl
@[simp] theorem State.setReady_loop (s : State) : s.setReady.loop = s.loop := rfl
@[simp] theorem State.setReady_ready (s : State) : s.setReady.ready = true := rfl
@[simp] theorem State.setReady_pwmEn (s : State) : s.setReady.pwmEn = s.pwmEn := rfl
@[simp] theorem State.setReady_run (s : State) : s.setReady.run = s.run := rfl
@[simp] theorem State.setReady_envA (s : State) : s.setReady.envA = s.envA := rfl
@[simp] theorem State.setReady_envD (s : State) : s.setReady.envD = s.envD := rfl
@[simp] theorem State.setReady_envS (s : State) : s.setReady.envS = s.envS := rfl
@[simp] theorem State.setReady_envR (s : State) : s.setReady.envR = s.envR := rfl
@[simp] theorem State.setReady_wsel (s : State) : s.setReady.wsel = s.wsel := rfl
@[simp] theorem State.setReady_swapInterval (s : State) : s.setReady.swapInterval = s.swapInterval := rfl
@[simp] theorem State.setReady_color (s : State) : s.setReady.color = s.color := rfl
@[simp] theorem State.setReady_rowdiv (s : State) : s.setReady.rowdiv = s.rowdiv := rfl
@[simp] theorem State.setReady_rphase (s : State) : s.setReady.rphase = s.rphase := rfl
@[simp] theorem State.setReady_swapCnt (s : State) : s.setReady.swapCnt = s.swapCnt := rfl
@[simp] theorem State.setReady_fb (s : State) : s.setReady.fb = s.fb := rfl
@[simp] theorem State.setReady_level (s : State) : s.setReady.level = s.level := rfl
@[simp] theorem State.setReady_edge (s : State) : s.setReady.edge = s.edge := rfl
@[simp] theorem State.setReady_held (s : State) : s.setReady.held = s.held := rfl
@[simp] theorem State.setReady_event (s : State) : s.setReady.event = s.event := rfl
@[simp] theorem State.setReady_rowOut (s : State) : s.setReady.rowOut = s.rowOut := rfl
@[simp] theorem State.setReady_colEn (s : State) : s.setReady.colEn = s.colEn := rfl
@[simp] theorem State.setReady_swScan (s : State) : s.setReady.swScan = s.swScan := rfl
@[simp] theorem State.setReady_cfg (s : State) : s.setReady.cfg = s.cfg := rfl
@[simp] theorem State.setReady_song (s : State) : s.setReady.song = s.song := rfl
@[simp] theorem State.setReady_host (s : State) : s.setReady.host = s.host := rfl
@[simp] theorem State.setReady_hostIn (s : State) : s.setReady.hostIn = s.hostIn := rfl
@[simp] theorem State.setReady_replies (s : State) : s.setReady.replies = s.replies := rfl
@[simp] theorem State.setReady_trace (s : State) : s.setReady.trace = s.trace := rfl
@[simp] theorem State.setReady_inputs (s : State) : s.setReady.inputs = s.inputs := rfl
@[simp] theorem State.setReady_draws (s : State) : s.setReady.draws = s.draws := rfl

/-! ### clearReady -/

@[simp] theorem State.clearReady_phase (s : State) : s.clearReady.phase = s.phase := rfl
@[simp] theorem State.clearReady_pdelta (s : State) : s.clearReady.pdelta = s.pdelta := rfl
@[simp] theorem State.clearReady_pwmNext (s : State) : s.clearReady.pwmNext = s.pwmNext := rfl
@[simp] theorem State.clearReady_pwmLevel (s : State) : s.clearReady.pwmLevel = s.pwmLevel := rfl
@[simp] theorem State.clearReady_env (s : State) : s.clearReady.env = s.env := rfl
@[simp] theorem State.clearReady_envDelta (s : State) : s.clearReady.envDelta = s.envDelta := rfl
@[simp] theorem State.clearReady_atkStart (s : State) : s.clearReady.atkStart = s.atkStart := rfl
@[simp] theorem State.clearReady_decStart (s : State) : s.clearReady.decStart = s.decStart := rfl
@[simp] theorem State.clearReady_susStart (s : State) : s.clearReady.susStart = s.susStart := rfl
@[simp] theorem State.clearReady_relStart (s : State) : s.clearReady.relStart = s.relStart := rfl
@[simp] theorem State.clearReady_sAct (s : State) : s.clearReady.sAct = s.sAct := rfl
@[simp] theorem State.clearReady_rem (s : State) : s.clearReady.rem = s.rem := rfl
@[simp] theorem State.clearReady_note (s : State) : s.clearReady.note = s.note := rfl
@[simp] theorem State.clearReady_cursor (s : State) : s.clearReady.cursor = s.cursor := rfl
@[simp] theorem State.clearReady_loopStart (s : State) : s.clearReady.loopStart = s.loopStart := rfl
@[simp] theorem State.clearReady_playing (s : State) : s.clearReady.playing = s.playing := rfl
@[simp] theorem State.clearReady_loop (s : State) : s.clearReady.loop = s.loop := rfl
@[simp] theorem State.clearReady_ready (s : State) : s.clearReady.ready = false := rfl
@[simp] theorem State.clearReady_pwmEn (s : State) : s.clearReady.pwmEn = s.pwmEn := rfl
@[simp] theorem State.clearReady_run (s : State) : s.clearReady.run = s.run := rfl
@[simp] theorem State.clearReady_envA (s : State) : s.clearReady.envA = s.envA := rfl
@[simp] theorem State.clearReady_envD (s : State) : s.clearReady.envD = s.envD := rfl
@[simp] theorem State.clearReady_envS (s : State) : s.clearReady.envS = s.envS := rfl
@[simp] theorem State.clearReady_envR (s : State) : s.clearReady.envR = s.envR := rfl
@[simp] theorem State.clearReady_wsel (s : State) : s.clearReady.wsel = s.wsel := rfl
@[simp] theorem State.clearReady_swapInterval (s : State) : s.clearReady.swapInterval = s.swapInterval := rfl
@[simp] theorem State.clearReady_color (s : State) : s.clearReady.color = s.color := rfl
@[simp] theorem State.clearReady_rowdiv (s : State) : s.clearReady.rowdiv = s.rowdiv := rfl
@[simp] theorem State.clearReady_rphase (s : State) : s.clearReady.rphase = s.rphase := rfl
@[simp] theorem State.clearReady_swapCnt (s : State) : s.clearReady.swapCnt = s.swapCnt := rfl
@[simp] theorem State.clearReady_fb (s : State) : s.clearReady.fb = s.fb := rfl
@[simp] theorem State.clearReady_level (s : State) : s.clearReady.level = s.level := rfl
@[simp] theorem State.clearReady_edge (s : State) : s.clearReady.edge = s.edge := rfl
@[simp] theorem State.clearReady_held (s : State) : s.clearReady.held = s.held := rfl
@[simp] theorem State.clearReady_event (s : State) : s.clearReady.event = s.event := rfl
@[simp] theorem State.clearReady_rowOut (s : State) : s.clearReady.rowOut = s.rowOut := rfl
@[simp] theorem State.clearReady_colEn (s : State) : s.clearReady.colEn = s.colEn := rfl
@[simp] theorem State.clearReady_swScan (s : State) : s.clearReady.swScan = s.swScan := rfl
@[simp] theorem State.clearReady_cfg (s : State) : s.clearReady.cfg = s.cfg := rfl
@[simp] theorem State.clearReady_song (s : State) : s.clearReady.song = s.song := rfl
@[simp] theorem State.clearReady_host (s : State) : s.clearReady.host = s.host := rfl
@[simp] theorem State.clearReady_hostIn (s : State) : s.clearReady.hostIn = s.hostIn := rfl
@[simp] theorem State.clearReady_replies (s : State) : s.clearReady.replies = s.replies := rfl
@[simp] theorem State.clearReady_trace (s : State) : s.clearReady.trace = s.trace := rfl
@[simp] theorem State.clearReady_inputs (s : State) : s.clearReady.inputs = s.inputs := rfl
@[simp] theorem State.clearReady_draws (s : State) : s.clearReady.draws = s.draws := rfl

/-! ### startTicks -/

@[simp] theorem State.startTicks_phase (s : State) : s.startTicks.phase = s.phase := rfl
@[simp] theorem State.startTicks_pdelta (s : State) : s.startTicks.pdelta = s.pdelta := rfl
@[simp] theorem State.startTicks_pwmNext (s : State) : s.startTicks.pwmNext = s.pwmNext := rfl
@[simp] theorem State.startTicks_pwmLevel (s : State) : s.startTicks.pwmLevel = s.pwmLevel := rfl
@[simp] theorem State.startTicks_env (s : State) : s.startTicks.env = s.env := rfl
@[simp] theorem State.startTicks_envDelta (s : State) : s.startTicks.envDelta = s.envDelta := rfl
@[simp] theorem State.startTicks_atkStart (s : State) : s.startTicks.atkStart = s.atkStart := rfl
@[simp] theorem State.startTicks_decStart (s : State) : s.startTicks.decStart = s.decStart := rfl
@[simp] theorem State.startTicks_susStart (s : State) : s.startTicks.susStart = s.susStart := rfl
@[simp] theorem State.startTicks_relStart (s : State) : s.startTicks.relStart = s.relStart := rfl
@[simp] theorem State.startTicks_sAct (s : State) : s.startTicks.sAct = s.sAct := rfl
@[simp] theorem State.startTicks_rem (s : State) : s.startTicks.rem = s.rem := rfl
@[simp] theorem State.startTicks_note (s : State) : s.startTicks.note = s.note := rfl
@[simp] theorem State.startTicks_cursor (s : State) : s.startTicks.cursor = s.cursor := rfl
@[simp] theorem State.startTicks_loopStart (s : State) : s.startTicks.loopStart = s.loopStart := rfl
@[simp] theorem State.startTicks_playing (s : State) : s.startTicks.playing = s.playing := rfl
@[simp] theorem State.startTicks_loop (s : State) : s.startTicks.loop = s.loop := rfl
@[simp] theorem State.startTicks_ready (s : State) : s.startTicks.ready = s.ready := rfl
@[simp] theorem State.startTicks_pwmEn (s : State) : s.startTicks.pwmEn = s.pwmEn := rfl
@[simp] theorem State.startTicks_run (s : State) : s.startTicks.run = true := rfl
@[simp] theorem State.startTicks_envA (s : State) : s.startTicks.envA = s.envA := rfl
@[simp] theorem State.startTicks_envD (s : State) : s.startTicks.envD = s.envD := rfl
@[simp] theorem State.startTicks_envS (s : State) : s.startTicks.envS = s.envS := rfl
@[simp] theorem State.startTicks_envR (s : State) : s.startTicks.envR = s.envR := rfl
@[simp] theorem State.startTicks_wsel (s : State) : s.startTicks.wsel = s.wsel := rfl
@[simp] theorem State.startTicks_swapInterval (s : State) : s.startTicks.swapInterval = s.swapInterval := rfl
@[simp] theorem State.startTicks_color (s : State) : s.startTicks.color = s.color := rfl
@[simp] theorem State.startTicks_rowdiv (s : State) : s.startTicks.rowdiv = s.rowdiv := rfl
@[simp] theorem State.startTicks_rphase (s : State) : s.startTicks.rphase = s.rphase := rfl
@[simp] theorem State.startTicks_swapCnt (s : State) : s.startTicks.swapCnt = s.swapCnt := rfl
@[simp] theorem State.startTicks_fb (s : State) : s.startTicks.fb = s.fb := rfl
@[simp] theorem State.startTicks_level (s : State) : s.startTicks.level = s.level := rfl
@[simp] theorem State.startTicks_edge (s : State) : s.startTicks.edge = s.edge := rfl
@[simp] theorem State.startTicks_held (s : State) : s.startTicks.held = s.held := rfl
@[simp] theorem State.startTicks_event (s : State) : s.startTicks.event = s.event := rfl
@[simp] theorem State.startTicks_rowOut (s : State) : s.startTicks.rowOut = s.rowOut := rfl
@[simp] theorem State.startTicks_colEn (s : State) : s.startTicks.colEn = s.colEn := rfl
@[simp] theorem State.startTicks_swScan (s : State) : s.startTicks.swScan = s.swScan := rfl
@[simp] theorem State.startTicks_cfg (s : State) : s.startTicks.cfg = s.cfg := rfl
@[simp] theorem State.startTicks_song (s : State) : s.startTicks.song = s.song := rfl
@[simp] theorem State.startTicks_host (s : State) : s.startTicks.host = s.host := rfl
@[simp] theorem State.startTicks_hostIn (s : State) : s.startTicks.hostIn = s.hostIn := rfl
@[simp] theorem State.startTicks_replies (s : State) : s.startTicks.replies = s.replies := rfl
@[simp] theorem State.startTicks_trace (s : State) : s.startTicks.trace = s.trace := rfl
@[simp] theorem State.startTicks_inputs (s : State) : s.startTicks.inputs = s.inputs := rfl
@[simp] theorem State.startTicks_draws (s : State) : s.startTicks.draws = s.draws := rfl

/-! ### acceptRecord -/

@[simp] theorem State.acceptRecord_phase (s : State) (n : Byte) : (s.acceptRecord n).phase = s.phase := rfl
@[simp] theorem State.acceptRecord_pdelta (s : State) (n : Byte) : (s.acceptRecord n).pdelta = s.pdelta := rfl
@[simp] theorem State.acceptRecord_pwmNext (s : State) (n : Byte) : (s.acceptRecord n).pwmNext = s.pwmNext := rfl
@[simp] theorem State.acceptRecord_pwmLevel (s : State) (n : Byte) : (s.acceptRecord n).pwmLevel = s.pwmLevel := rfl
@[simp] theorem State.acceptRecord_env (s : State) (n : Byte) : (s.acceptRecord n).env = s.env := rfl
@[simp] theorem State.acceptRecord_envDelta (s : State) (n : Byte) : (s.acceptRecord n).envDelta = s.envDelta := rfl
@[simp] theorem State.acceptRecord_atkStart (s : State) (n : Byte) : (s.acceptRecord n).atkStart = s.atkStart := rfl
@[simp] theorem State.acceptRecord_decStart (s : State) (n : Byte) : (s.acceptRecord n).decStart = s.decStart := rfl
@[simp] theorem State.acceptRecord_susStart (s : State) (n : Byte) : (s.acceptRecord n).susStart = s.susStart := rfl
@[simp] theorem State.acceptRecord_relStart (s : State) (n : Byte) : (s.acceptRecord n).relStart = s.relStart := rfl
@[simp] theorem State.acceptRecord_sAct (s : State) (n : Byte) : (s.acceptRecord n).sAct = s.sAct := rfl
@[simp] theorem State.acceptRecord_rem (s : State) (n : Byte) : (s.acceptRecord n).rem = s.rem := rfl
@[simp] theorem State.acceptRecord_note (s : State) (n : Byte) : (s.acceptRecord n).note = n := rfl
@[simp] theorem State.acceptRecord_cursor (s : State) (n : Byte) : (s.acceptRecord n).cursor = s.cursor + 2 := rfl
@[simp] theorem State.acceptRecord_loopStart (s : State) (n : Byte) : (s.acceptRecord n).loopStart = s.loopStart := rfl
@[simp] theorem State.acceptRecord_playing (s : State) (n : Byte) : (s.acceptRecord n).playing = s.playing := rfl
@[simp] theorem State.acceptRecord_loop (s : State) (n : Byte) : (s.acceptRecord n).loop = s.loop := rfl
@[simp] theorem State.acceptRecord_ready (s : State) (n : Byte) : (s.acceptRecord n).ready = s.ready := rfl
@[simp] theorem State.acceptRecord_pwmEn (s : State) (n : Byte) : (s.acceptRecord n).pwmEn = s.pwmEn := rfl
@[simp] theorem State.acceptRecord_run (s : State) (n : Byte) : (s.acceptRecord n).run = s.run := rfl
@[simp] theorem State.acceptRecord_envA (s : State) (n : Byte) : (s.acceptRecord n).envA = s.envA := rfl
@[simp] theorem State.acceptRecord_envD (s : State) (n : Byte) : (s.acceptRecord n).envD = s.envD := rfl
@[simp] theorem State.acceptRecord_envS (s : State) (n : Byte) : (s.acceptRecord n).envS = s.envS := rfl
@[simp] theorem State.acceptRecord_envR (s : State) (n : Byte) : (s.acceptRecord n).envR = s.envR := rfl
@[simp] theorem State.acceptRecord_wsel (s : State) (n : Byte) : (s.acceptRecord n).wsel = s.wsel := rfl
@[simp] theorem State.acceptRecord_swapInterval (s : State) (n : Byte) : (s.acceptRecord n).swapInterval = s.swapInterval := rfl
@[simp] theorem State.acceptRecord_color (s : State) (n : Byte) : (s.acceptRecord n).color = s.color := rfl
@[simp] theorem State.acceptRecord_rowdiv (s : State) (n : Byte) : (s.acceptRecord n).rowdiv = s.rowdiv := rfl
@[simp] theorem State.acceptRecord_rphase (s : State) (n : Byte) : (s.acceptRecord n).rphase = s.rphase := rfl
@[simp] theorem State.acceptRecord_swapCnt (s : State) (n : Byte) : (s.acceptRecord n).swapCnt = s.swapCnt := rfl
@[simp] theorem State.acceptRecord_fb (s : State) (n : Byte) : (s.acceptRecord n).fb = s.fb := rfl
@[simp] theorem State.acceptRecord_level (s : State) (n : Byte) : (s.acceptRecord n).level = s.level := rfl
@[simp] theorem State.acceptRecord_edge (s : State) (n : Byte) : (s.acceptRecord n).edge = s.edge := rfl
@[simp] theorem State.acceptRecord_held (s : State) (n : Byte) : (s.acceptRecord n).held = s.held := rfl
@[simp] theorem State.acceptRecord_event (s : State) (n : Byte) : (s.acceptRecord n).event = s.event := rfl
@[simp] theorem State.acceptRecord_rowOut (s : State) (n : Byte) : (s.acceptRecord n).rowOut = s.rowOut := rfl
@[simp] theorem State.acceptRecord_colEn (s : State) (n : Byte) : (s.acceptRecord n).colEn = s.colEn := rfl
@[simp] theorem State.acceptRecord_swScan (s : State) (n : Byte) : (s.acceptRecord n).swScan = s.swScan := rfl
@[simp] theorem State.acceptRecord_cfg (s : State) (n : Byte) : (s.acceptRecord n).cfg = s.cfg := rfl
@[simp] theorem State.acceptRecord_song (s : State) (n : Byte) : (s.acceptRecord n).song = s.song := rfl
@[simp] theorem State.acceptRecord_host (s : State) (n : Byte) : (s.acceptRecord n).host = s.host := rfl
@[simp] theorem State.acceptRecord_hostIn (s : State) (n : Byte) : (s.acceptRecord n).hostIn = s.hostIn := rfl
@[simp] theorem State.acceptRecord_replies (s : State) (n : Byte) : (s.acceptRecord n).replies = s.replies := rfl
@[simp] theorem State.acceptRecord_trace (s : State) (n : Byte) : (s.acceptRecord n).trace = s.trace := rfl
@[simp] theorem State.acceptRecord_inputs (s : State) (n : Byte) : (s.acceptRecord n).inputs = s.inputs := rfl
@[simp] theorem State.acceptRecord_draws (s : State) (n : Byte) : (s.acceptRecord n).draws = s.draws := rfl

/-! ### swapDefaults -/

@[simp] theorem State.swapDefaults_phase (s : State) : s.swapDefaults.phase = s.phase := rfl
@[simp] theorem State.swapDefaults_pdelta (s : State) : s.swapDefaults.pdelta = s.pdelta := rfl
@[simp] theorem State.swapDefaults_pwmNext (s : State) : s.swapDefaults.pwmNext = s.pwmNext := rfl
@[simp] theorem State.swapDefaults_pwmLevel (s : State) : s.swapDefaults.pwmLevel = s.pwmLevel := rfl
@[simp] theorem State.swapDefaults_env (s : State) : s.swapDefaults.env = s.env := rfl
@[simp] theorem State.swapDefaults_envDelta (s : State) : s.swapDefaults.envDelta = s.envDelta := rfl
@[simp] theorem State.swapDefaults_atkStart (s : State) : s.swapDefaults.atkStart = s.atkStart := rfl
@[simp] theorem State.swapDefaults_decStart (s : State) : s.swapDefaults.decStart = s.decStart := rfl
@[simp] theorem State.swapDefaults_susStart (s : State) : s.swapDefaults.susStart = s.susStart := rfl
@[simp] theorem State.swapDefaults_relStart (s : State) : s.swapDefaults.relStart = s.relStart := rfl
@[simp] theorem State.swapDefaults_sAct (s : State) : s.swapDefaults.sAct = s.sAct := rfl
@[simp] theorem State.swapDefaults_rem (s : State) : s.swapDefaults.rem = s.rem := rfl
@[simp] theorem State.swapDefaults_note (s : State) : s.swapDefaults.note = s.note := rfl
@[simp] theorem State.swapDefaults_cursor (s : State) : s.swapDefaults.cursor = s.cursor := rfl
@[simp] theorem State.swapDefaults_loopStart (s : State) : s.swapDefaults.loopStart = s.loopStart := rfl
@[simp] theorem State.swapDefaults_playing (s : State) : s.swapDefaults.playing = s.playing := rfl
@[simp] theorem State.swapDefaults_loop (s : State) : s.swapDefaults.loop = s.loop := rfl
@[simp] theorem State.swapDefaults_ready (s : State) : s.swapDefaults.ready = false := rfl
@[simp] theorem State.swapDefaults_pwmEn (s : State) : s.swapDefaults.pwmEn = s.pwmEn := rfl
@[simp] theorem State.swapDefaults_run (s : State) : s.swapDefaults.run = s.run := rfl
@[simp] theorem State.swapDefaults_envA (s : State) : s.swapDefaults.envA = s.envA := rfl
@[simp] theorem State.swapDefaults_envD (s : State) : s.swapDefaults.envD = s.envD := rfl
@[simp] theorem State.swapDefaults_envS (s : State) : s.swapDefaults.envS = s.envS := rfl
@[simp] theorem State.swapDefaults_envR (s : State) : s.swapDefaults.envR = s.envR := rfl
@[simp] theorem State.swapDefaults_wsel (s : State) : s.swapDefaults.wsel = s.wsel := rfl
@[simp] theorem State.swapDefaults_swapInterval (s : State) : s.swapDefaults.swapInterval = s.cfg.swapIntervalReset := rfl
@[simp] theorem State.swapDefaults_color (s : State) : s.swapDefaults.color = s.color := rfl
@[simp] theorem State.swapDefaults_rowdiv (s : State) : s.swapDefaults.rowdiv = s.rowdiv := rfl
@[simp] theorem State.swapDefaults_rphase (s : State) : s.swapDefaults.rphase = s.rphase := rfl
@[simp] theorem State.swapDefaults_swapCnt (s : State) : s.swapDefaults.swapCnt = s.cfg.swapIntervalReset := rfl
@[simp] theorem State.swapDefaults_fb (s : State) : s.swapDefaults.fb = s.fb := rfl
@[simp] theorem State.swapDefaults_level (s : State) : s.swapDefaults.level = s.level := rfl
@[simp] theorem State.swapDefaults_edge (s : State) : s.swapDefaults.edge = s.edge := rfl
@[simp] theorem State.swapDefaults_held (s : State) : s.swapDefaults.held = s.held := rfl
@[simp] theorem State.swapDefaults_event (s : State) : s.swapDefaults.event = s.event := rfl
@[simp] theorem State.swapDefaults_rowOut (s : State) : s.swapDefaults.rowOut = s.rowOut := rfl
@[simp] theorem State.swapDefaults_colEn (s : State) : s.swapDefaults.colEn = s.colEn := rfl
@[simp] theorem State.swapDefaults_swScan (s : State) : s.swapDefaults.swScan = s.swScan := rfl
@[simp] theorem State.swapDefaults_cfg (s : State) : s.swapDefaults.cfg = s.cfg := rfl
@[simp] theorem State.swapDefaults_song (s : State) : s.swapDefaults.song = s.song := rfl
@[simp] theorem State.swapDefaults_host (s : State) : s.swapDefaults.host = s.host := rfl
@[simp] theorem State.swapDefaults_hostIn (s : State) : s.swapDefaults.hostIn = s.hostIn := rfl
@[simp] theorem State.swapDefaults_replies (s : State) : s.swapDefaults.replies = s.replies := rfl
@[simp] theorem State.swapDefaults_trace (s : State) : s.swapDefaults.trace = s.trace := rfl
@[simp] theorem State.swapDefaults_inputs (s : State) : s.swapDefaults.inputs = s.inputs := rfl
@[simp] theorem State.swapDefaults_draws (s : State) : s.swapDefaults.draws = s.draws := rfl

/-! ### clearFramebuffer -/

@[simp] theorem State.clearFramebuffer_phase (s : State) : s.clearFramebuffer.phase = s.phase := rfl
@[simp] theorem State.clearFramebuffer_pdelta (s : State) : s.clearFramebuffer.pdelta = s.pdelta := rfl
@[simp] theorem State.clearFramebuffer_pwmNext (s : State) : s.clearFramebuffer.pwmNext = s.pwmNext := rfl
@[simp] theorem State.clearFramebuffer_pwmLevel (s : State) : s.clearFramebuffer.pwmLevel = s.pwmLevel := rfl
@[simp] theorem State.clearFramebuffer_env (s : State) : s.clearFramebuffer.env = s.env := rfl
@[simp] theorem State.clearFramebuffer_envDelta (s : State) : s.clearFramebuffer.envDelta = s.envDelta := rfl
@[simp] theorem State.clearFramebuffer_atkStart (s : State) : s.clearFramebuffer.atkStart = s.atkStart := rfl
@[simp] theorem State.clearFramebuffer_decStart (s : State) : s.clearFramebuffer.decStart = s.decStart := rfl
@[simp] theorem State.clearFramebuffer_susStart (s : State) : s.clearFramebuffer.susStart = s.susStart := rfl
@[simp] theorem State.clearFramebuffer_relStart (s : State) : s.clearFramebuffer.relStart = s.relStart := rfl
@[simp] theorem State.clearFramebuffer_sAct (s : State) : s.clearFramebuffer.sAct = s.sAct := rfl
@[simp] theorem State.clearFramebuffer_rem (s : State) : s.clearFramebuffer.rem = s.rem := rfl
@[simp] theorem State.clearFramebuffer_note (s : State) : s.clearFramebuffer.note = s.note := rfl
@[simp] theorem State.clearFramebuffer_cursor (s : State) : s.clearFramebuffer.cursor = s.cursor := rfl
@[simp] theorem State.clearFramebuffer_loopStart (s : State) : s.clearFramebuffer.loopStart = s.loopStart := rfl
@[simp] theorem State.clearFramebuffer_playing (s : State) : s.clearFramebuffer.playing = s.playing := rfl
@[simp] theorem State.clearFramebuffer_loop (s : State) : s.clearFramebuffer.loop = s.loop := rfl
@[simp] theorem State.clearFramebuffer_ready (s : State) : s.clearFramebuffer.ready = s.ready := rfl
@[simp] theorem State.clearFramebuffer_pwmEn (s : State) : s.clearFramebuffer.pwmEn = s.pwmEn := rfl
@[simp] theorem State.clearFramebuffer_run (s : State) : s.clearFramebuffer.run = s.run := rfl
@[simp] theorem State.clearFramebuffer_envA (s : State) : s.clearFramebuffer.envA = s.envA := rfl
@[simp] theorem State.clearFramebuffer_envD (s : State) : s.clearFramebuffer.envD = s.envD := rfl
@[simp] theorem State.clearFramebuffer_envS (s : State) : s.clearFramebuffer.envS = s.envS := rfl
@[simp] theorem State.clearFramebuffer_envR (s : State) : s.clearFramebuffer.envR = s.envR := rfl
@[simp] theorem State.clearFramebuffer_wsel (s : State) : s.clearFramebuffer.wsel = s.wsel := rfl
@[simp] theorem State.clearFramebuffer_swapInterval (s : State) : s.clearFramebuffer.swapInterval = s.swapInterval := rfl
@[simp] theorem State.clearFramebuffer_color (s : State) : s.clearFramebuffer.color = s.color := rfl
@[simp] theorem State.clearFramebuffer_rowdiv (s : State) : s.clearFramebuffer.rowdiv = s.rowdiv := rfl
@[simp] theorem State.clearFramebuffer_rphase (s : State) : s.clearFramebuffer.rphase = s.rphase := rfl
@[simp] theorem State.clearFramebuffer_swapCnt (s : State) : s.clearFramebuffer.swapCnt = s.swapCnt := rfl
@[simp] theorem State.clearFramebuffer_fb (s : State) : s.clearFramebuffer.fb = Vector.replicate 10 0x00 := rfl
@[simp] theorem State.clearFramebuffer_level (s : State) : s.clearFramebuffer.level = s.level := rfl
@[simp] theorem State.clearFramebuffer_edge (s : State) : s.clearFramebuffer.edge = s.edge := rfl
@[simp] theorem State.clearFramebuffer_held (s : State) : s.clearFramebuffer.held = s.held := rfl
@[simp] theorem State.clearFramebuffer_event (s : State) : s.clearFramebuffer.event = s.event := rfl
@[simp] theorem State.clearFramebuffer_rowOut (s : State) : s.clearFramebuffer.rowOut = s.rowOut := rfl
@[simp] theorem State.clearFramebuffer_colEn (s : State) : s.clearFramebuffer.colEn = s.colEn := rfl
@[simp] theorem State.clearFramebuffer_swScan (s : State) : s.clearFramebuffer.swScan = s.swScan := rfl
@[simp] theorem State.clearFramebuffer_cfg (s : State) : s.clearFramebuffer.cfg = s.cfg := rfl
@[simp] theorem State.clearFramebuffer_song (s : State) : s.clearFramebuffer.song = s.song := rfl
@[simp] theorem State.clearFramebuffer_host (s : State) : s.clearFramebuffer.host = s.host := rfl
@[simp] theorem State.clearFramebuffer_hostIn (s : State) : s.clearFramebuffer.hostIn = s.hostIn := rfl
@[simp] theorem State.clearFramebuffer_replies (s : State) : s.clearFramebuffer.replies = s.replies := rfl
@[simp] theorem State.clearFramebuffer_trace (s : State) : s.clearFramebuffer.trace = s.trace := rfl
@[simp] theorem State.clearFramebuffer_inputs (s : State) : s.clearFramebuffer.inputs = s.inputs := rfl
@[simp] theorem State.clearFramebuffer_draws (s : State) : s.clearFramebuffer.draws = s.draws := rfl

/-! ### audioDefaults -/

@[simp] theorem State.audioDefaults_phase (s : State) : s.audioDefaults.phase = s.phase := rfl
@[simp] theorem State.audioDefaults_pdelta (s : State) : s.audioDefaults.pdelta = s.pdelta := rfl
@[simp] theorem State.audioDefaults_pwmNext (s : State) : s.audioDefaults.pwmNext = s.pwmNext := rfl
@[simp] theorem State.audioDefaults_pwmLevel (s : State) : s.audioDefaults.pwmLevel = s.pwmLevel := rfl
@[simp] theorem State.audioDefaults_env (s : State) : s.audioDefaults.env = s.env := rfl
@[simp] theorem State.audioDefaults_envDelta (s : State) : s.audioDefaults.envDelta = s.envDelta := rfl
@[simp] theorem State.audioDefaults_atkStart (s : State) : s.audioDefaults.atkStart = s.atkStart := rfl
@[simp] theorem State.audioDefaults_decStart (s : State) : s.audioDefaults.decStart = s.decStart := rfl
@[simp] theorem State.audioDefaults_susStart (s : State) : s.audioDefaults.susStart = s.susStart := rfl
@[simp] theorem State.audioDefaults_relStart (s : State) : s.audioDefaults.relStart = s.relStart := rfl
@[simp] theorem State.audioDefaults_sAct (s : State) : s.audioDefaults.sAct = s.sAct := rfl
@[simp] theorem State.audioDefaults_rem (s : State) : s.audioDefaults.rem = s.rem := rfl
@[simp] theorem State.audioDefaults_note (s : State) : s.audioDefaults.note = s.cfg.noteEnd := rfl
@[simp] theorem State.audioDefaults_cursor (s : State) : s.audioDefaults.cursor = s.cursor := rfl
@[simp] theorem State.audioDefaults_loopStart (s : State) : s.audioDefaults.loopStart = 0x0000 := rfl
@[simp] theorem State.audioDefaults_playing (s : State) : s.audioDefaults.playing = false := rfl
@[simp] theorem State.audioDefaults_loop (s : State) : s.audioDefaults.loop = false := rfl
@[simp] theorem State.audioDefaults_ready (s : State) : s.audioDefaults.ready = s.ready := rfl
@[simp] theorem State.audioDefaults_pwmEn (s : State) : s.audioDefaults.pwmEn = false := rfl
@[simp] theorem State.audioDefaults_run (s : State) : s.audioDefaults.run = s.run := rfl
@[simp] theorem State.audioDefaults_envA (s : State) : s.audioDefaults.envA = s.cfg.envReset.a := rfl
@[simp] theorem State.audioDefaults_envD (s : State) : s.audioDefaults.envD = s.cfg.envReset.d := rfl
@[simp] theorem State.audioDefaults_envS (s : State) : s.audioDefaults.envS = s.cfg.envReset.s := rfl
@[simp] theorem State.audioDefaults_envR (s : State) : s.audioDefaults.envR = s.cfg.envReset.r := rfl
@[simp] theorem State.audioDefaults_wsel (s : State) : s.audioDefaults.wsel = s.cfg.wselReset := rfl
@[simp] theorem State.audioDefaults_swapInterval (s : State) : s.audioDefaults.swapInterval = s.swapInterval := rfl
@[simp] theorem State.audioDefaults_color (s : State) : s.audioDefaults.color = s.color := rfl
@[simp] theorem State.audioDefaults_rowdiv (s : State) : s.audioDefaults.rowdiv = s.rowdiv := rfl
@[simp] theorem State.audioDefaults_rphase (s : State) : s.audioDefaults.rphase = s.rphase := rfl
@[simp] theorem State.audioDefaults_swapCnt (s : State) : s.audioDefaults.swapCnt = s.swapCnt := rfl
@[simp] theorem State.audioDefaults_fb (s : State) : s.audioDefaults.fb = s.fb := rfl
@[simp] theorem State.audioDefaults_level (s : State) : s.audioDefaults.level = s.level := rfl
@[simp] theorem State.audioDefaults_edge (s : State) : s.audioDefaults.edge = s.edge := rfl
@[simp] theorem State.audioDefaults_held (s : State) : s.audioDefaults.held = s.held := rfl
@[simp] theorem State.audioDefaults_event (s : State) : s.audioDefaults.event = s.event := rfl
@[simp] theorem State.audioDefaults_rowOut (s : State) : s.audioDefaults.rowOut = s.rowOut := rfl
@[simp] theorem State.audioDefaults_colEn (s : State) : s.audioDefaults.colEn = s.colEn := rfl
@[simp] theorem State.audioDefaults_swScan (s : State) : s.audioDefaults.swScan = s.swScan := rfl
@[simp] theorem State.audioDefaults_cfg (s : State) : s.audioDefaults.cfg = s.cfg := rfl
@[simp] theorem State.audioDefaults_song (s : State) : s.audioDefaults.song = s.song := rfl
@[simp] theorem State.audioDefaults_host (s : State) : s.audioDefaults.host = s.host := rfl
@[simp] theorem State.audioDefaults_hostIn (s : State) : s.audioDefaults.hostIn = s.hostIn := rfl
@[simp] theorem State.audioDefaults_replies (s : State) : s.audioDefaults.replies = s.replies := rfl
@[simp] theorem State.audioDefaults_trace (s : State) : s.audioDefaults.trace = s.trace ++ [.pwmEnable false] := rfl
@[simp] theorem State.audioDefaults_inputs (s : State) : s.audioDefaults.inputs = s.inputs := rfl
@[simp] theorem State.audioDefaults_draws (s : State) : s.audioDefaults.draws = s.draws := rfl

/-! ### setRem -/

@[simp] theorem State.setRem_phase (s : State) (v : Word) : (s.setRem v).phase = s.phase := rfl
@[simp] theorem State.setRem_pdelta (s : State) (v : Word) : (s.setRem v).pdelta = s.pdelta := rfl
@[simp] theorem State.setRem_pwmNext (s : State) (v : Word) : (s.setRem v).pwmNext = s.pwmNext := rfl
@[simp] theorem State.setRem_pwmLevel (s : State) (v : Word) : (s.setRem v).pwmLevel = s.pwmLevel := rfl
@[simp] theorem State.setRem_env (s : State) (v : Word) : (s.setRem v).env = s.env := rfl
@[simp] theorem State.setRem_envDelta (s : State) (v : Word) : (s.setRem v).envDelta = s.envDelta := rfl
@[simp] theorem State.setRem_atkStart (s : State) (v : Word) : (s.setRem v).atkStart = s.atkStart := rfl
@[simp] theorem State.setRem_decStart (s : State) (v : Word) : (s.setRem v).decStart = s.decStart := rfl
@[simp] theorem State.setRem_susStart (s : State) (v : Word) : (s.setRem v).susStart = s.susStart := rfl
@[simp] theorem State.setRem_relStart (s : State) (v : Word) : (s.setRem v).relStart = s.relStart := rfl
@[simp] theorem State.setRem_sAct (s : State) (v : Word) : (s.setRem v).sAct = s.sAct := rfl
@[simp] theorem State.setRem_rem (s : State) (v : Word) : (s.setRem v).rem = v := rfl
@[simp] theorem State.setRem_note (s : State) (v : Word) : (s.setRem v).note = s.note := rfl
@[simp] theorem State.setRem_cursor (s : State) (v : Word) : (s.setRem v).cursor = s.cursor := rfl
@[simp] theorem State.setRem_loopStart (s : State) (v : Word) : (s.setRem v).loopStart = s.loopStart := rfl
@[simp] theorem State.setRem_playing (s : State) (v : Word) : (s.setRem v).playing = s.playing := rfl
@[simp] theorem State.setRem_loop (s : State) (v : Word) : (s.setRem v).loop = s.loop := rfl
@[simp] theorem State.setRem_ready (s : State) (v : Word) : (s.setRem v).ready = s.ready := rfl
@[simp] theorem State.setRem_pwmEn (s : State) (v : Word) : (s.setRem v).pwmEn = s.pwmEn := rfl
@[simp] theorem State.setRem_run (s : State) (v : Word) : (s.setRem v).run = s.run := rfl
@[simp] theorem State.setRem_envA (s : State) (v : Word) : (s.setRem v).envA = s.envA := rfl
@[simp] theorem State.setRem_envD (s : State) (v : Word) : (s.setRem v).envD = s.envD := rfl
@[simp] theorem State.setRem_envS (s : State) (v : Word) : (s.setRem v).envS = s.envS := rfl
@[simp] theorem State.setRem_envR (s : State) (v : Word) : (s.setRem v).envR = s.envR := rfl
@[simp] theorem State.setRem_wsel (s : State) (v : Word) : (s.setRem v).wsel = s.wsel := rfl
@[simp] theorem State.setRem_swapInterval (s : State) (v : Word) : (s.setRem v).swapInterval = s.swapInterval := rfl
@[simp] theorem State.setRem_color (s : State) (v : Word) : (s.setRem v).color = s.color := rfl
@[simp] theorem State.setRem_rowdiv (s : State) (v : Word) : (s.setRem v).rowdiv = s.rowdiv := rfl
@[simp] theorem State.setRem_rphase (s : State) (v : Word) : (s.setRem v).rphase = s.rphase := rfl
@[simp] theorem State.setRem_swapCnt (s : State) (v : Word) : (s.setRem v).swapCnt = s.swapCnt := rfl
@[simp] theorem State.setRem_fb (s : State) (v : Word) : (s.setRem v).fb = s.fb := rfl
@[simp] theorem State.setRem_level (s : State) (v : Word) : (s.setRem v).level = s.level := rfl
@[simp] theorem State.setRem_edge (s : State) (v : Word) : (s.setRem v).edge = s.edge := rfl
@[simp] theorem State.setRem_held (s : State) (v : Word) : (s.setRem v).held = s.held := rfl
@[simp] theorem State.setRem_event (s : State) (v : Word) : (s.setRem v).event = s.event := rfl
@[simp] theorem State.setRem_rowOut (s : State) (v : Word) : (s.setRem v).rowOut = s.rowOut := rfl
@[simp] theorem State.setRem_colEn (s : State) (v : Word) : (s.setRem v).colEn = s.colEn := rfl
@[simp] theorem State.setRem_swScan (s : State) (v : Word) : (s.setRem v).swScan = s.swScan := rfl
@[simp] theorem State.setRem_cfg (s : State) (v : Word) : (s.setRem v).cfg = s.cfg := rfl
@[simp] theorem State.setRem_song (s : State) (v : Word) : (s.setRem v).song = s.song := rfl
@[simp] theorem State.setRem_host (s : State) (v : Word) : (s.setRem v).host = s.host := rfl
@[simp] theorem State.setRem_hostIn (s : State) (v : Word) : (s.setRem v).hostIn = s.hostIn := rfl
@[simp] theorem State.setRem_replies (s : State) (v : Word) : (s.setRem v).replies = s.replies := rfl
@[simp] theorem State.setRem_trace (s : State) (v : Word) : (s.setRem v).trace = s.trace := rfl
@[simp] theorem State.setRem_inputs (s : State) (v : Word) : (s.setRem v).inputs = s.inputs := rfl
@[simp] theorem State.setRem_draws (s : State) (v : Word) : (s.setRem v).draws = s.draws := rfl

/-! ### setRowdiv -/

@[simp] theorem State.setRowdiv_phase (s : State) (v : BitVec 5) : (s.setRowdiv v).phase = s.phase := rfl
@[simp] theorem State.setRowdiv_pdelta (s : State) (v : BitVec 5) : (s.setRowdiv v).pdelta = s.pdelta := rfl
@[simp] theorem State.setRowdiv_pwmNext (s : State) (v : BitVec 5) : (s.setRowdiv v).pwmNext = s.pwmNext := rfl
@[simp] theorem State.setRowdiv_pwmLevel (s : State) (v : BitVec 5) : (s.setRowdiv v).pwmLevel = s.pwmLevel := rfl
@[simp] theorem State.setRowdiv_env (s : State) (v : BitVec 5) : (s.setRowdiv v).env = s.env := rfl
@[simp] theorem State.setRowdiv_envDelta (s : State) (v : BitVec 5) : (s.setRowdiv v).envDelta = s.envDelta := rfl
@[simp] theorem State.setRowdiv_atkStart (s : State) (v : BitVec 5) : (s.setRowdiv v).atkStart = s.atkStart := rfl
@[simp] theorem State.setRowdiv_decStart (s : State) (v : BitVec 5) : (s.setRowdiv v).decStart = s.decStart := rfl
@[simp] theorem State.setRowdiv_susStart (s : State) (v : BitVec 5) : (s.setRowdiv v).susStart = s.susStart := rfl
@[simp] theorem State.setRowdiv_relStart (s : State) (v : BitVec 5) : (s.setRowdiv v).relStart = s.relStart := rfl
@[simp] theorem State.setRowdiv_sAct (s : State) (v : BitVec 5) : (s.setRowdiv v).sAct = s.sAct := rfl
@[simp] theorem State.setRowdiv_rem (s : State) (v : BitVec 5) : (s.setRowdiv v).rem = s.rem := rfl
@[simp] theorem State.setRowdiv_note (s : State) (v : BitVec 5) : (s.setRowdiv v).note = s.note := rfl
@[simp] theorem State.setRowdiv_cursor (s : State) (v : BitVec 5) : (s.setRowdiv v).cursor = s.cursor := rfl
@[simp] theorem State.setRowdiv_loopStart (s : State) (v : BitVec 5) : (s.setRowdiv v).loopStart = s.loopStart := rfl
@[simp] theorem State.setRowdiv_playing (s : State) (v : BitVec 5) : (s.setRowdiv v).playing = s.playing := rfl
@[simp] theorem State.setRowdiv_loop (s : State) (v : BitVec 5) : (s.setRowdiv v).loop = s.loop := rfl
@[simp] theorem State.setRowdiv_ready (s : State) (v : BitVec 5) : (s.setRowdiv v).ready = s.ready := rfl
@[simp] theorem State.setRowdiv_pwmEn (s : State) (v : BitVec 5) : (s.setRowdiv v).pwmEn = s.pwmEn := rfl
@[simp] theorem State.setRowdiv_run (s : State) (v : BitVec 5) : (s.setRowdiv v).run = s.run := rfl
@[simp] theorem State.setRowdiv_envA (s : State) (v : BitVec 5) : (s.setRowdiv v).envA = s.envA := rfl
@[simp] theorem State.setRowdiv_envD (s : State) (v : BitVec 5) : (s.setRowdiv v).envD = s.envD := rfl
@[simp] theorem State.setRowdiv_envS (s : State) (v : BitVec 5) : (s.setRowdiv v).envS = s.envS := rfl
@[simp] theorem State.setRowdiv_envR (s : State) (v : BitVec 5) : (s.setRowdiv v).envR = s.envR := rfl
@[simp] theorem State.setRowdiv_wsel (s : State) (v : BitVec 5) : (s.setRowdiv v).wsel = s.wsel := rfl
@[simp] theorem State.setRowdiv_swapInterval (s : State) (v : BitVec 5) : (s.setRowdiv v).swapInterval = s.swapInterval := rfl
@[simp] theorem State.setRowdiv_color (s : State) (v : BitVec 5) : (s.setRowdiv v).color = s.color := rfl
@[simp] theorem State.setRowdiv_rowdiv (s : State) (v : BitVec 5) : (s.setRowdiv v).rowdiv = v := rfl
@[simp] theorem State.setRowdiv_rphase (s : State) (v : BitVec 5) : (s.setRowdiv v).rphase = s.rphase := rfl
@[simp] theorem State.setRowdiv_swapCnt (s : State) (v : BitVec 5) : (s.setRowdiv v).swapCnt = s.swapCnt := rfl
@[simp] theorem State.setRowdiv_fb (s : State) (v : BitVec 5) : (s.setRowdiv v).fb = s.fb := rfl
@[simp] theorem State.setRowdiv_level (s : State) (v : BitVec 5) : (s.setRowdiv v).level = s.level := rfl
@[simp] theorem State.setRowdiv_edge (s : State) (v : BitVec 5) : (s.setRowdiv v).edge = s.edge := rfl
@[simp] theorem State.setRowdiv_held (s : State) (v : BitVec 5) : (s.setRowdiv v).held = s.held := rfl
@[simp] theorem State.setRowdiv_event (s : State) (v : BitVec 5) : (s.setRowdiv v).event = s.event := rfl
@[simp] theorem State.setRowdiv_rowOut (s : State) (v : BitVec 5) : (s.setRowdiv v).rowOut = s.rowOut := rfl
@[simp] theorem State.setRowdiv_colEn (s : State) (v : BitVec 5) : (s.setRowdiv v).colEn = s.colEn := rfl
@[simp] theorem State.setRowdiv_swScan (s : State) (v : BitVec 5) : (s.setRowdiv v).swScan = s.swScan := rfl
@[simp] theorem State.setRowdiv_cfg (s : State) (v : BitVec 5) : (s.setRowdiv v).cfg = s.cfg := rfl
@[simp] theorem State.setRowdiv_song (s : State) (v : BitVec 5) : (s.setRowdiv v).song = s.song := rfl
@[simp] theorem State.setRowdiv_host (s : State) (v : BitVec 5) : (s.setRowdiv v).host = s.host := rfl
@[simp] theorem State.setRowdiv_hostIn (s : State) (v : BitVec 5) : (s.setRowdiv v).hostIn = s.hostIn := rfl
@[simp] theorem State.setRowdiv_replies (s : State) (v : BitVec 5) : (s.setRowdiv v).replies = s.replies := rfl
@[simp] theorem State.setRowdiv_trace (s : State) (v : BitVec 5) : (s.setRowdiv v).trace = s.trace := rfl
@[simp] theorem State.setRowdiv_inputs (s : State) (v : BitVec 5) : (s.setRowdiv v).inputs = s.inputs := rfl
@[simp] theorem State.setRowdiv_draws (s : State) (v : BitVec 5) : (s.setRowdiv v).draws = s.draws := rfl

/-! ### setRphase -/

@[simp] theorem State.setRphase_phase (s : State) (p : Fin 10) : (s.setRphase p).phase = s.phase := rfl
@[simp] theorem State.setRphase_pdelta (s : State) (p : Fin 10) : (s.setRphase p).pdelta = s.pdelta := rfl
@[simp] theorem State.setRphase_pwmNext (s : State) (p : Fin 10) : (s.setRphase p).pwmNext = s.pwmNext := rfl
@[simp] theorem State.setRphase_pwmLevel (s : State) (p : Fin 10) : (s.setRphase p).pwmLevel = s.pwmLevel := rfl
@[simp] theorem State.setRphase_env (s : State) (p : Fin 10) : (s.setRphase p).env = s.env := rfl
@[simp] theorem State.setRphase_envDelta (s : State) (p : Fin 10) : (s.setRphase p).envDelta = s.envDelta := rfl
@[simp] theorem State.setRphase_atkStart (s : State) (p : Fin 10) : (s.setRphase p).atkStart = s.atkStart := rfl
@[simp] theorem State.setRphase_decStart (s : State) (p : Fin 10) : (s.setRphase p).decStart = s.decStart := rfl
@[simp] theorem State.setRphase_susStart (s : State) (p : Fin 10) : (s.setRphase p).susStart = s.susStart := rfl
@[simp] theorem State.setRphase_relStart (s : State) (p : Fin 10) : (s.setRphase p).relStart = s.relStart := rfl
@[simp] theorem State.setRphase_sAct (s : State) (p : Fin 10) : (s.setRphase p).sAct = s.sAct := rfl
@[simp] theorem State.setRphase_rem (s : State) (p : Fin 10) : (s.setRphase p).rem = s.rem := rfl
@[simp] theorem State.setRphase_note (s : State) (p : Fin 10) : (s.setRphase p).note = s.note := rfl
@[simp] theorem State.setRphase_cursor (s : State) (p : Fin 10) : (s.setRphase p).cursor = s.cursor := rfl
@[simp] theorem State.setRphase_loopStart (s : State) (p : Fin 10) : (s.setRphase p).loopStart = s.loopStart := rfl
@[simp] theorem State.setRphase_playing (s : State) (p : Fin 10) : (s.setRphase p).playing = s.playing := rfl
@[simp] theorem State.setRphase_loop (s : State) (p : Fin 10) : (s.setRphase p).loop = s.loop := rfl
@[simp] theorem State.setRphase_ready (s : State) (p : Fin 10) : (s.setRphase p).ready = s.ready := rfl
@[simp] theorem State.setRphase_pwmEn (s : State) (p : Fin 10) : (s.setRphase p).pwmEn = s.pwmEn := rfl
@[simp] theorem State.setRphase_run (s : State) (p : Fin 10) : (s.setRphase p).run = s.run := rfl
@[simp] theorem State.setRphase_envA (s : State) (p : Fin 10) : (s.setRphase p).envA = s.envA := rfl
@[simp] theorem State.setRphase_envD (s : State) (p : Fin 10) : (s.setRphase p).envD = s.envD := rfl
@[simp] theorem State.setRphase_envS (s : State) (p : Fin 10) : (s.setRphase p).envS = s.envS := rfl
@[simp] theorem State.setRphase_envR (s : State) (p : Fin 10) : (s.setRphase p).envR = s.envR := rfl
@[simp] theorem State.setRphase_wsel (s : State) (p : Fin 10) : (s.setRphase p).wsel = s.wsel := rfl
@[simp] theorem State.setRphase_swapInterval (s : State) (p : Fin 10) : (s.setRphase p).swapInterval = s.swapInterval := rfl
@[simp] theorem State.setRphase_color (s : State) (p : Fin 10) : (s.setRphase p).color = s.color := rfl
@[simp] theorem State.setRphase_rowdiv (s : State) (p : Fin 10) : (s.setRphase p).rowdiv = s.rowdiv := rfl
@[simp] theorem State.setRphase_rphase (s : State) (p : Fin 10) : (s.setRphase p).rphase = p := rfl
@[simp] theorem State.setRphase_swapCnt (s : State) (p : Fin 10) : (s.setRphase p).swapCnt = s.swapCnt := rfl
@[simp] theorem State.setRphase_fb (s : State) (p : Fin 10) : (s.setRphase p).fb = s.fb := rfl
@[simp] theorem State.setRphase_level (s : State) (p : Fin 10) : (s.setRphase p).level = s.level := rfl
@[simp] theorem State.setRphase_edge (s : State) (p : Fin 10) : (s.setRphase p).edge = s.edge := rfl
@[simp] theorem State.setRphase_held (s : State) (p : Fin 10) : (s.setRphase p).held = s.held := rfl
@[simp] theorem State.setRphase_event (s : State) (p : Fin 10) : (s.setRphase p).event = s.event := rfl
@[simp] theorem State.setRphase_rowOut (s : State) (p : Fin 10) : (s.setRphase p).rowOut = s.rowOut := rfl
@[simp] theorem State.setRphase_colEn (s : State) (p : Fin 10) : (s.setRphase p).colEn = s.colEn := rfl
@[simp] theorem State.setRphase_swScan (s : State) (p : Fin 10) : (s.setRphase p).swScan = s.swScan := rfl
@[simp] theorem State.setRphase_cfg (s : State) (p : Fin 10) : (s.setRphase p).cfg = s.cfg := rfl
@[simp] theorem State.setRphase_song (s : State) (p : Fin 10) : (s.setRphase p).song = s.song := rfl
@[simp] theorem State.setRphase_host (s : State) (p : Fin 10) : (s.setRphase p).host = s.host := rfl
@[simp] theorem State.setRphase_hostIn (s : State) (p : Fin 10) : (s.setRphase p).hostIn = s.hostIn := rfl
@[simp] theorem State.setRphase_replies (s : State) (p : Fin 10) : (s.setRphase p).replies = s.replies := rfl
@[simp] theorem State.setRphase_trace (s : State) (p : Fin 10) : (s.setRphase p).trace = s.trace := rfl
@[simp] theorem State.setRphase_inputs (s : State) (p : Fin 10) : (s.setRphase p).inputs = s.inputs := rfl
@[simp] theorem State.setRphase_draws (s : State) (p : Fin 10) : (s.setRphase p).draws = s.draws := rfl

/-! ### setSwapCnt -/

@[simp] theorem State.setSwapCnt_phase (s : State) (v : Byte) : (s.setSwapCnt v).phase = s.phase := rfl
@[simp] theorem State.setSwapCnt_pdelta (s : State) (v : Byte) : (s.setSwapCnt v).pdelta = s.pdelta := rfl
@[simp] theorem State.setSwapCnt_pwmNext (s : State) (v : Byte) : (s.setSwapCnt v).pwmNext = s.pwmNext := rfl
@[simp] theorem State.setSwapCnt_pwmLevel (s : State) (v : Byte) : (s.setSwapCnt v).pwmLevel = s.pwmLevel := rfl
@[simp] theorem State.setSwapCnt_env (s : State) (v : Byte) : (s.setSwapCnt v).env = s.env := rfl
@[simp] theorem State.setSwapCnt_envDelta (s : State) (v : Byte) : (s.setSwapCnt v).envDelta = s.envDelta := rfl
@[simp] theorem State.setSwapCnt_atkStart (s : State) (v : Byte) : (s.setSwapCnt v).atkStart = s.atkStart := rfl
@[simp] theorem State.setSwapCnt_decStart (s : State) (v : Byte) : (s.setSwapCnt v).decStart = s.decStart := rfl
@[simp] theorem State.setSwapCnt_susStart (s : State) (v : Byte) : (s.setSwapCnt v).susStart = s.susStart := rfl
@[simp] theorem State.setSwapCnt_relStart (s : State) (v : Byte) : (s.setSwapCnt v).relStart = s.relStart := rfl
@[simp] theorem State.setSwapCnt_sAct (s : State) (v : Byte) : (s.setSwapCnt v).sAct = s.sAct := rfl
@[simp] theorem State.setSwapCnt_rem (s : State) (v : Byte) : (s.setSwapCnt v).rem = s.rem := rfl
@[simp] theorem State.setSwapCnt_note (s : State) (v : Byte) : (s.setSwapCnt v).note = s.note := rfl
@[simp] theorem State.setSwapCnt_cursor (s : State) (v : Byte) : (s.setSwapCnt v).cursor = s.cursor := rfl
@[simp] theorem State.setSwapCnt_loopStart (s : State) (v : Byte) : (s.setSwapCnt v).loopStart = s.loopStart := rfl
@[simp] theorem State.setSwapCnt_playing (s : State) (v : Byte) : (s.setSwapCnt v).playing = s.playing := rfl
@[simp] theorem State.setSwapCnt_loop (s : State) (v : Byte) : (s.setSwapCnt v).loop = s.loop := rfl
@[simp] theorem State.setSwapCnt_ready (s : State) (v : Byte) : (s.setSwapCnt v).ready = s.ready := rfl
@[simp] theorem State.setSwapCnt_pwmEn (s : State) (v : Byte) : (s.setSwapCnt v).pwmEn = s.pwmEn := rfl
@[simp] theorem State.setSwapCnt_run (s : State) (v : Byte) : (s.setSwapCnt v).run = s.run := rfl
@[simp] theorem State.setSwapCnt_envA (s : State) (v : Byte) : (s.setSwapCnt v).envA = s.envA := rfl
@[simp] theorem State.setSwapCnt_envD (s : State) (v : Byte) : (s.setSwapCnt v).envD = s.envD := rfl
@[simp] theorem State.setSwapCnt_envS (s : State) (v : Byte) : (s.setSwapCnt v).envS = s.envS := rfl
@[simp] theorem State.setSwapCnt_envR (s : State) (v : Byte) : (s.setSwapCnt v).envR = s.envR := rfl
@[simp] theorem State.setSwapCnt_wsel (s : State) (v : Byte) : (s.setSwapCnt v).wsel = s.wsel := rfl
@[simp] theorem State.setSwapCnt_swapInterval (s : State) (v : Byte) : (s.setSwapCnt v).swapInterval = s.swapInterval := rfl
@[simp] theorem State.setSwapCnt_color (s : State) (v : Byte) : (s.setSwapCnt v).color = s.color := rfl
@[simp] theorem State.setSwapCnt_rowdiv (s : State) (v : Byte) : (s.setSwapCnt v).rowdiv = s.rowdiv := rfl
@[simp] theorem State.setSwapCnt_rphase (s : State) (v : Byte) : (s.setSwapCnt v).rphase = s.rphase := rfl
@[simp] theorem State.setSwapCnt_swapCnt (s : State) (v : Byte) : (s.setSwapCnt v).swapCnt = v := rfl
@[simp] theorem State.setSwapCnt_fb (s : State) (v : Byte) : (s.setSwapCnt v).fb = s.fb := rfl
@[simp] theorem State.setSwapCnt_level (s : State) (v : Byte) : (s.setSwapCnt v).level = s.level := rfl
@[simp] theorem State.setSwapCnt_edge (s : State) (v : Byte) : (s.setSwapCnt v).edge = s.edge := rfl
@[simp] theorem State.setSwapCnt_held (s : State) (v : Byte) : (s.setSwapCnt v).held = s.held := rfl
@[simp] theorem State.setSwapCnt_event (s : State) (v : Byte) : (s.setSwapCnt v).event = s.event := rfl
@[simp] theorem State.setSwapCnt_rowOut (s : State) (v : Byte) : (s.setSwapCnt v).rowOut = s.rowOut := rfl
@[simp] theorem State.setSwapCnt_colEn (s : State) (v : Byte) : (s.setSwapCnt v).colEn = s.colEn := rfl
@[simp] theorem State.setSwapCnt_swScan (s : State) (v : Byte) : (s.setSwapCnt v).swScan = s.swScan := rfl
@[simp] theorem State.setSwapCnt_cfg (s : State) (v : Byte) : (s.setSwapCnt v).cfg = s.cfg := rfl
@[simp] theorem State.setSwapCnt_song (s : State) (v : Byte) : (s.setSwapCnt v).song = s.song := rfl
@[simp] theorem State.setSwapCnt_host (s : State) (v : Byte) : (s.setSwapCnt v).host = s.host := rfl
@[simp] theorem State.setSwapCnt_hostIn (s : State) (v : Byte) : (s.setSwapCnt v).hostIn = s.hostIn := rfl
@[simp] theorem State.setSwapCnt_replies (s : State) (v : Byte) : (s.setSwapCnt v).replies = s.replies := rfl
@[simp] theorem State.setSwapCnt_trace (s : State) (v : Byte) : (s.setSwapCnt v).trace = s.trace := rfl
@[simp] theorem State.setSwapCnt_inputs (s : State) (v : Byte) : (s.setSwapCnt v).inputs = s.inputs := rfl
@[simp] theorem State.setSwapCnt_draws (s : State) (v : Byte) : (s.setSwapCnt v).draws = s.draws := rfl

/-! ### setBreakpoints -/

@[simp] theorem State.setBreakpoints_phase (s : State) : s.setBreakpoints.phase = s.phase := rfl
@[simp] theorem State.setBreakpoints_pdelta (s : State) : s.setBreakpoints.pdelta = s.pdelta := rfl
@[simp] theorem State.setBreakpoints_pwmNext (s : State) : s.setBreakpoints.pwmNext = s.pwmNext := rfl
@[simp] theorem State.setBreakpoints_pwmLevel (s : State) : s.setBreakpoints.pwmLevel = s.pwmLevel := rfl
@[simp] theorem State.setBreakpoints_env (s : State) : s.setBreakpoints.env = s.env := rfl
@[simp] theorem State.setBreakpoints_envDelta (s : State) : s.setBreakpoints.envDelta = s.envDelta := rfl
@[simp] theorem State.setBreakpoints_atkStart (s : State) : s.setBreakpoints.atkStart = s.rem := rfl
@[simp] theorem State.setBreakpoints_decStart (s : State) : s.setBreakpoints.decStart = s.rem - segmentTicks s.rem s.envA := rfl
@[simp] theorem State.setBreakpoints_susStart (s : State) : s.setBreakpoints.susStart = s.rem - segmentTicks s.rem s.envA - segmentTicks s.rem s.envD := rfl
@[simp] theorem State.setBreakpoints_relStart (s : State) : s.setBreakpoints.relStart = segmentTicks s.rem s.envR := rfl
@[simp] theorem State.setBreakpoints_sAct (s : State) : s.setBreakpoints.sAct = s.envS := rfl
@[simp] theorem State.setBreakpoints_rem (s : State) : s.setBreakpoints.rem = s.rem := rfl
@[simp] theorem State.setBreakpoints_note (s : State) : s.setBreakpoints.note = s.note := rfl
@[simp] theorem State.setBreakpoints_cursor (s : State) : s.setBreakpoints.cursor = s.cursor := rfl
@[simp] theorem State.setBreakpoints_loopStart (s : State) : s.setBreakpoints.loopStart = s.loopStart := rfl
@[simp] theorem State.setBreakpoints_playing (s : State) : s.setBreakpoints.playing = s.playing := rfl
@[simp] theorem State.setBreakpoints_loop (s : State) : s.setBreakpoints.loop = s.loop := rfl
@[simp] theorem State.setBreakpoints_ready (s : State) : s.setBreakpoints.ready = s.ready := rfl
@[simp] theorem State.setBreakpoints_pwmEn (s : State) : s.setBreakpoints.pwmEn = s.pwmEn := rfl
@[simp] theorem State.setBreakpoints_run (s : State) : s.setBreakpoints.run = s.run := rfl
@[simp] theorem State.setBreakpoints_envA (s : State) : s.setBreakpoints.envA = s.envA := rfl
@[simp] theorem State.setBreakpoints_envD (s : State) : s.setBreakpoints.envD = s.envD := rfl
@[simp] theorem State.setBreakpoints_envS (s : State) : s.setBreakpoints.envS = s.envS := rfl
@[simp] theorem State.setBreakpoints_envR (s : State) : s.setBreakpoints.envR = s.envR := rfl
@[simp] theorem State.setBreakpoints_wsel (s : State) : s.setBreakpoints.wsel = s.wsel := rfl
@[simp] theorem State.setBreakpoints_swapInterval (s : State) : s.setBreakpoints.swapInterval = s.swapInterval := rfl
@[simp] theorem State.setBreakpoints_color (s : State) : s.setBreakpoints.color = s.color := rfl
@[simp] theorem State.setBreakpoints_rowdiv (s : State) : s.setBreakpoints.rowdiv = s.rowdiv := rfl
@[simp] theorem State.setBreakpoints_rphase (s : State) : s.setBreakpoints.rphase = s.rphase := rfl
@[simp] theorem State.setBreakpoints_swapCnt (s : State) : s.setBreakpoints.swapCnt = s.swapCnt := rfl
@[simp] theorem State.setBreakpoints_fb (s : State) : s.setBreakpoints.fb = s.fb := rfl
@[simp] theorem State.setBreakpoints_level (s : State) : s.setBreakpoints.level = s.level := rfl
@[simp] theorem State.setBreakpoints_edge (s : State) : s.setBreakpoints.edge = s.edge := rfl
@[simp] theorem State.setBreakpoints_held (s : State) : s.setBreakpoints.held = s.held := rfl
@[simp] theorem State.setBreakpoints_event (s : State) : s.setBreakpoints.event = s.event := rfl
@[simp] theorem State.setBreakpoints_rowOut (s : State) : s.setBreakpoints.rowOut = s.rowOut := rfl
@[simp] theorem State.setBreakpoints_colEn (s : State) : s.setBreakpoints.colEn = s.colEn := rfl
@[simp] theorem State.setBreakpoints_swScan (s : State) : s.setBreakpoints.swScan = s.swScan := rfl
@[simp] theorem State.setBreakpoints_cfg (s : State) : s.setBreakpoints.cfg = s.cfg := rfl
@[simp] theorem State.setBreakpoints_song (s : State) : s.setBreakpoints.song = s.song := rfl
@[simp] theorem State.setBreakpoints_host (s : State) : s.setBreakpoints.host = s.host := rfl
@[simp] theorem State.setBreakpoints_hostIn (s : State) : s.setBreakpoints.hostIn = s.hostIn := rfl
@[simp] theorem State.setBreakpoints_replies (s : State) : s.setBreakpoints.replies = s.replies := rfl
@[simp] theorem State.setBreakpoints_trace (s : State) : s.setBreakpoints.trace = s.trace := rfl
@[simp] theorem State.setBreakpoints_inputs (s : State) : s.setBreakpoints.inputs = s.inputs := rfl
@[simp] theorem State.setBreakpoints_draws (s : State) : s.setBreakpoints.draws = s.draws := rfl

end Sys2Proof.Machine
end

