-- ==== Sys2Proof/Laws/Sequencer.lean ====
section
/-! SUPPORT. What loading a record, starting a song and the two table lookups can do, said once each. -/

namespace Sys2Proof.Machine

@[simp] theorem andThen_next (s : State) (k : State → Result) : andThen (.next s) k = k s := rfl

/-- A sequence goes on to t exactly when its first part goes on to some u and the rest goes from u to t. -/
theorem andThen_eq_next {r : Result} {k : State → Result} {t : State} :
    andThen r k = .next t ↔ ∃ u, r = .next u ∧ k u = .next t := by
  cases r <;> simp [andThen]

/-! ### Table lookups (R76, R221) -/

theorem noteDelta?_of_lt {c : Config} {n : Byte} (h : n.toNat < 37) : noteDelta? c n = some c.noteTable[n.toNat] := by
  simp [noteDelta?, h]

theorem noteDelta?_of_le {c : Config} {n : Byte} (h : 37 ≤ n.toNat) : noteDelta? c n = none := by
  simp [noteDelta?]; omega

theorem durTicks?_of_lt {c : Config} {d : Byte} (h : d.toNat < 48) : durTicks? c d = some c.durTable[d.toNat] := by
  simp [durTicks?, h]

theorem durTicks?_of_le {c : Config} {d : Byte} (h : 48 ≤ d.toNat) : durTicks? c d = none := by
  simp [durTicks?]; omega

/-! ### What a configuration guarantees (R13, R14) -/

theorem Config.noteEnd_ne_noteRest (c : Config) : c.noteEnd ≠ c.noteRest := by
  have h := c.isLegal
  simp only [ConfigData.legal, Bool.and_eq_true, decide_eq_true_eq] at h
  exact h.1.1.2

theorem Config.wave_le (c : Config) (w : Fin 3) (i : Nat) : (waveSample c w i).toNat ≤ 49 := by
  have h := c.isLegal
  simp only [ConfigData.legal, Bool.and_eq_true, List.all_eq_true, Vector.mem_toList_iff, decide_eq_true_eq] at h
  exact h.1.1.1.1.1 _ (Vector.getElem_mem w.isLt) _ (Vector.getElem_mem _)

theorem Config.noteDelta_range (c : Config) {n : Byte} {v : Fixed} (h : noteDelta? c n = some v) :
    0x0100 ≤ v.toNat ∧ v.toNat ≤ 0x01FF := by
  have hc := c.isLegal
  simp only [ConfigData.legal, Bool.and_eq_true, List.all_eq_true, Vector.mem_toList_iff, decide_eq_true_eq] at hc
  simp only [noteDelta?] at h
  split at h
  · cases h; exact hc.1.1.1.1.2 _ (Vector.getElem_mem _)
  · cases h

theorem Config.durTicks_pos (c : Config) {d : Byte} {v : Word} (h : durTicks? c d = some v) : 1 ≤ v.toNat := by
  have hc := c.isLegal
  simp only [ConfigData.legal, Bool.and_eq_true, List.all_eq_true, Vector.mem_toList_iff, decide_eq_true_eq] at hc
  simp only [durTicks?] at h
  split at h
  · cases h; exact hc.1.1.1.2 _ (Vector.getElem_mem _)
  · cases h

theorem Config.envReset_legal (c : Config) : c.envReset.legal = true := by
  have h := c.isLegal
  simp only [ConfigData.legal, Bool.and_eq_true] at h
  exact h.1.2

theorem Config.swapIntervalReset_pos (c : Config) : 1 ≤ c.swapIntervalReset.toNat := by
  have h := c.isLegal
  simp only [ConfigData.legal, Bool.and_eq_true, decide_eq_true_eq] at h
  exact h.2

/-! ### Records -/

/-- Loading a duration goes on exactly when the duration byte is an identifier, and then sets REM, the breakpoints and
S_ACT. -/
theorem State.loadDuration_eq_next {s t : State} {d : Byte} :
    s.loadDuration d = .next t ↔ ∃ v, durTicks? s.cfg d = some v ∧ t = { s with rem := v }.setBreakpoints := by
  simp only [State.loadDuration]
  cases durTicks? s.cfg d <;> simp [eq_comm]

/-- What LOADNOTE can leave, when it goes on: the end sentinel with only NOTE set, or a loaded note or rest with its
breakpoints computed and, if it has a table entry, its delta (R220). -/
theorem loadNote_cases {s t : State} (h : loadNote s = .next t) :
    (s.songByte s.cursor = s.cfg.noteEnd
      ∧ t = ((s.readSong s.cursor).readSong (s.cursor + 1)).acceptRecord s.cfg.noteEnd)
    ∨ (s.songByte s.cursor ≠ s.cfg.noteEnd ∧ ∃ delta v,
        (noteDelta? s.cfg (s.songByte s.cursor) = some delta
          ∨ (noteDelta? s.cfg (s.songByte s.cursor) = none ∧ delta = s.pdelta))
        ∧ durTicks? s.cfg (s.songByte (s.cursor + 1)) = some v
        ∧ t = { ((s.readSong s.cursor).readSong (s.cursor + 1)).acceptRecord (s.songByte s.cursor) with
              pdelta := delta, rem := v }.setBreakpoints) := by
  simp only [loadNote, State.readSong_cfg] at h
  cases hc : classifyNote s.cfg (s.songByte s.cursor) <;> rw [hc] at h
  · left
    have : s.songByte s.cursor = s.cfg.noteEnd := by
      by_contra hne; simp only [classifyNote, hne, if_false] at hc; split at hc <;> (try split at hc) <;> cases hc
    exact ⟨this, by simpa [execEndMark, eq_comm] using h⟩
  · right
    have hr : s.songByte s.cursor = s.cfg.noteRest ∧ s.songByte s.cursor ≠ s.cfg.noteEnd := by
      simp only [classifyNote] at hc
      split at hc
      · cases hc
      · split at hc
        · exact ⟨by assumption, by assumption⟩
        · split at hc <;> cases hc
    refine ⟨hr.2, ?_⟩
    rw [hr.1]
    simp only [execRest, State.acceptRecord_cfg, State.readSong_cfg] at h
    cases hn : noteDelta? s.cfg s.cfg.noteRest <;> rw [hn] at h <;>
      obtain ⟨v, hv, rfl⟩ := State.loadDuration_eq_next.mp h
    · exact ⟨s.pdelta, v, .inr ⟨rfl, rfl⟩, hv, rfl⟩
    · exact ⟨_, v, .inl rfl, hv, rfl⟩
  · right
    have hr : s.songByte s.cursor ≠ s.cfg.noteEnd := by
      intro he; simp [classifyNote, he] at hc
    refine ⟨hr, ?_⟩
    simp only [execNote, State.acceptRecord_cfg, State.readSong_cfg] at h
    cases hn : noteDelta? s.cfg (s.songByte s.cursor) <;> rw [hn] at h
    · cases h
    · obtain ⟨v, hv, rfl⟩ := State.loadDuration_eq_next.mp h
      exact ⟨_, v, .inl rfl, hv, rfl⟩
  · cases h

/-- LOADNOTE writes only NOTE, CURSOR, PDELTA, REM, the breakpoints and S_ACT. -/
theorem loadNote_frame {s t : State} (h : loadNote s = .next t) :
    t = { s with
      note := t.note, cursor := t.cursor, pdelta := t.pdelta, rem := t.rem, atkStart := t.atkStart
      decStart := t.decStart, susStart := t.susStart, relStart := t.relStart, sAct := t.sAct, trace := t.trace } := by
  rcases loadNote_cases h with ⟨_, rfl⟩ | ⟨_, delta, v, _, _, rfl⟩ <;> rfl

/-- START_SONG, when it goes on, is LOADNOTE at the new cursor with the phase, the pipelined level and the flags set
after it (R225). -/
theorem startSong_cases {s t : State} {seq : Word} (h : startSong seq s = .next t) :
    ∃ u, loadNote { s.stopPlayback with cursor := seq, loopStart := seq } = .next u
      ∧ t = { u with phase := 0x0000, pwmNext := waveSample s.cfg s.wsel 0 }.startPlayback := by
  obtain ⟨u, hu, hk⟩ := andThen_eq_next.mp h
  refine ⟨u, hu, ?_⟩
  have hf := loadNote_frame hu
  have hc : u.cfg = s.cfg := by rw [hf]; rfl
  have hw : u.wsel = s.wsel := by rw [hf]; rfl
  rw [← hc, ← hw]
  cases hk; rfl

/-- Playback starts by PLAYING alone. -/
theorem State.startPlayback_frame (s : State) : s.startPlayback = { s with playing := s.startPlayback.playing } := by
  unfold State.startPlayback; split <;> rfl

theorem State.startPlayback_playing (s : State) :
    s.startPlayback.playing = if s.note = s.cfg.noteEnd then s.playing else true := by
  unfold State.startPlayback; split <;> rfl

/-- START_SONG leaves every register it is not said to write (R225). -/
theorem startSong_frame {s t : State} {seq : Word} (h : startSong seq s = .next t) :
    t = { s with
      note := t.note, cursor := t.cursor, pdelta := t.pdelta, rem := t.rem, atkStart := t.atkStart
      decStart := t.decStart, susStart := t.susStart, relStart := t.relStart, sAct := t.sAct, trace := t.trace
      playing := t.playing, pwmEn := t.pwmEn, loopStart := t.loopStart, phase := t.phase, pwmNext := t.pwmNext } := by
  obtain ⟨u, hu, rfl⟩ := startSong_cases h
  rw [State.startPlayback_frame]
  have := loadNote_frame hu
  rw [this]; rfl

end Sys2Proof.Machine
end

