-- ==== Sys2Proof/Laws/Audio.lean ====
section
/-! SUPPORT. What the envelope step, the synthesis, AUDIO_STEP, the row counter and TICK can do, said once each. -/

namespace Sys2Proof.Machine

/-! ### AUDIO_STEP -/

/-- Steps 2 and 3 write PWM_EN and PWM_LEVEL alone. -/
theorem State.outputLevel_frame (s : State) :
    s.outputLevel = { s with
      pwmEn := s.outputLevel.pwmEn, pwmLevel := s.outputLevel.pwmLevel, trace := s.outputLevel.trace } := by
  unfold State.outputLevel; split <;> rfl

/-- Steps 4 and 5 write PHASE, ENV, ENV_DELTA and PWM_NEXT alone. -/
theorem State.synthesise_frame (s : State) :
    s.synthesise = { s with
      phase := phaseAdvance s.phase s.pdelta, env := s.envNext.value, envDelta := s.envNext.delta
      pwmNext := s.synthesise.pwmNext } := rfl

/-- The new level of step 5. -/
theorem State.synthesise_pwmNext (s : State) :
    s.synthesise.pwmNext =
      levelProduct
        (interpolate (waveSample s.cfg s.wsel ((intPart s.phase).toNat % 32))
          (waveSample s.cfg s.wsel ((intPart s.phase).toNat % 32 + 1)) (fracPart (phaseAdvance s.phase s.pdelta)))
        (round8_8 s.envNext.value) := rfl

/-- The port actions of steps 2 and 3: a rest disables the PWM, any other note enables it and then outputs the level. -/
theorem State.outputLevel_trace (s : State) :
    s.outputLevel.trace =
      s.trace ++ if s.note = s.cfg.noteRest then [.pwmEnable false] else [.pwmEnable true, .pwmLevel s.pwmNext] := by
  unfold State.outputLevel; split <;> simp

/-- The synthesis does not touch the counter of the current note. -/
theorem State.synthesise_rem (s : State) : s.outputLevel.synthesise.rem = s.rem := by
  rw [State.synthesise_frame, State.outputLevel_frame]

/-- Inside a note, with the counter not yet at its last tick, AUDIO_STEP is the synthesis and the counter down by one. -/
theorem audioStep_insideNote {s : State} (hp : s.playing = true) (hn : s.note ≠ s.cfg.noteEnd) (hr : s.rem - 1 ≠ 0) :
    audioStep s = .next (s.outputLevel.synthesise.setRem (s.rem - 1)) := by
  have h : countDown s.outputLevel.synthesise = .next (s.outputLevel.synthesise.setRem (s.rem - 1)) := by
    unfold countDown; rw [State.synthesise_rem]; exact if_neg hr
  simp [audioStep, hp, hn, h]

/-- What AUDIO_STEP can do, when it goes on: nothing while Idle, a restart or the end of playback at the end sentinel,
and otherwise the synthesis and the counter, with LOADNOTE when the counter reaches zero (R160). -/
theorem audioStep_cases {s t : State} (h : audioStep s = .next t) :
    (s.playing = false ∧ t = s)
    ∨ (s.playing = true ∧ s.note = s.cfg.noteEnd ∧ s.loop = true ∧ s.loopStart ≠ 0 ∧ startSong s.loopStart s = .next t)
    ∨ (s.playing = true ∧ s.note = s.cfg.noteEnd ∧ (s.loop = false ∨ s.loopStart = 0) ∧ t = s.stopPlayback)
    ∨ (s.playing = true ∧ s.note ≠ s.cfg.noteEnd ∧ s.rem - 1 = 0
        ∧ loadNote (s.outputLevel.synthesise.setRem (s.rem - 1)) = .next t)
    ∨ (s.playing = true ∧ s.note ≠ s.cfg.noteEnd ∧ s.rem - 1 ≠ 0
        ∧ t = s.outputLevel.synthesise.setRem (s.rem - 1)) := by
  have hr := State.synthesise_rem s
  unfold audioStep at h
  split at h
  · exact .inl ⟨by assumption, by simpa using h.symm⟩
  · rename_i hp
    have hp : s.playing = true := by simpa using hp
    split at h
    · rename_i hn
      unfold endOfSong at h
      split at h
      · rename_i hl; exact .inr (.inl ⟨hp, hn, hl.1, hl.2, h⟩)
      · rename_i hl
        refine .inr (.inr (.inl ⟨hp, hn, ?_, by simpa using h.symm⟩))
        by_cases hloop : s.loop = true
        · exact .inr (by by_contra h0; exact hl ⟨hloop, h0⟩)
        · exact .inl (by simpa using hloop)
    · rename_i hn
      unfold countDown at h
      dsimp only at h
      rw [hr] at h
      split at h
      · rename_i h0; exact .inr (.inr (.inr (.inl ⟨hp, hn, h0, h⟩)))
      · rename_i h0; exact .inr (.inr (.inr (.inr ⟨hp, hn, h0, by simpa using h.symm⟩)))

/-- AUDIO_STEP writes only the audio datapath, the fetch pointer, PLAYING and PWM_EN. -/
theorem audioStep_frame {s t : State} (h : audioStep s = .next t) :
    t = { s with
      phase := t.phase, pdelta := t.pdelta, pwmNext := t.pwmNext, pwmLevel := t.pwmLevel, env := t.env
      envDelta := t.envDelta, atkStart := t.atkStart, decStart := t.decStart, susStart := t.susStart
      relStart := t.relStart, sAct := t.sAct, rem := t.rem, note := t.note, cursor := t.cursor
      loopStart := t.loopStart, playing := t.playing, pwmEn := t.pwmEn, trace := t.trace } := by
  rcases audioStep_cases h with ⟨_, rfl⟩ | ⟨_, _, _, _, hs⟩ | ⟨_, _, _, rfl⟩ | ⟨_, _, _, hl⟩ | ⟨_, _, _, rfl⟩
  · rfl
  · rw [startSong_frame hs]
  · rfl
  · rw [loadNote_frame hl, State.synthesise_frame, State.outputLevel_frame]; rfl
  · rw [State.synthesise_frame, State.outputLevel_frame]; rfl

/-! ### The row counter -/

/-- The end of a cycle writes SWAP_CNT and READY alone (R144). -/
theorem State.cycleDone_frame (s : State) :
    s.cycleDone = { s with swapCnt := s.cycleDone.swapCnt, ready := s.cycleDone.ready } := by
  unfold State.cycleDone; dsimp only; split <;> rfl

/-- BUTTON_LATCH in one piece (R270). -/
theorem State.buttonLatch_eq (s : State) (sw : Mask) :
    s.buttonLatch sw = { s with
      edge := s.edge ||| risingEdges s.level sw, level := sw, swScan := false
      trace := s.trace ++ [.swScan true, .switchSample sw, .swScan false] } := by
  simp [State.buttonLatch, State.setSwScan, State.sampleSwitches]

/-- MUX_STEP on a phase other than 0 (R250). -/
theorem State.muxStep_of_ne_zero (s : State) (sw : Mask) {p : Fin 10} (hp : p ≠ 0) :
    s.muxStep sw p = { s with
      rowOut := rowPattern (s.readRow p), colEn := (s.colEn &&& ~~~columnBit (p + 9)) ||| columnBit p
      trace := s.trace ++ [.columnOff (p + 9), .rowOut (rowPattern (s.readRow p)), .columnOn p] } := by
  simp [State.muxStep, hp, State.deactivateColumn, State.setRowBits, State.activateColumn, State.readRow]

/-- MUX_STEP on phase 0, with the switches latched (R254). -/
theorem State.muxStep_zero (s : State) (sw : Mask) :
    s.muxStep sw 0 = { s with
      rowOut := rowPattern (s.readRow 0), colEn := (s.colEn &&& ~~~columnBit 9) ||| columnBit 0
      edge := s.edge ||| risingEdges s.level sw, level := sw, swScan := false
      trace := s.trace ++ [.columnOff 9, .rowOut 0, .swScan true, .switchSample sw, .swScan false,
        .rowOut (rowPattern (s.readRow 0)), .columnOn 0] } := by
  simp [State.muxStep, State.buttonLatch_eq, State.deactivateColumn, State.setRowBits, State.activateColumn,
    State.readRow]

/-- The row counter above 1 only counts down (R140). -/
theorem State.rowStep_of_ne (s : State) (sw : Mask) (h : s.rowdiv - 1 ≠ 0) :
    s.rowStep sw = s.setRowdiv (s.rowdiv - 1) := by
  unfold State.rowStep; exact if_neg h

/-- Every 20th tick drives the current phase and advances it (R140, R143). -/
theorem State.rowStep_of_eq (s : State) (sw : Mask) (h : s.rowdiv - 1 = 0) :
    s.rowStep sw =
      if s.rphase = 9 then (((s.setRowdiv 20).muxStep sw s.rphase).setRphase (s.rphase + 1)).cycleDone
      else ((s.setRowdiv 20).muxStep sw s.rphase).setRphase (s.rphase + 1) := by
  unfold State.rowStep; exact if_pos h

/-- The row counter writes only the scheduler counters, READY, the output ports and the button masks. -/
theorem State.rowStep_frame (s : State) (sw : Mask) :
    s.rowStep sw = { s with
      ready := (s.rowStep sw).ready, rowdiv := (s.rowStep sw).rowdiv, rphase := (s.rowStep sw).rphase
      swapCnt := (s.rowStep sw).swapCnt, level := (s.rowStep sw).level, edge := (s.rowStep sw).edge
      rowOut := (s.rowStep sw).rowOut, colEn := (s.rowStep sw).colEn, swScan := (s.rowStep sw).swScan
      trace := (s.rowStep sw).trace } := by
  by_cases h : s.rowdiv - 1 = 0
  · rw [State.rowStep_of_eq s sw h]
    by_cases h9 : s.rphase = 9
    · rw [if_pos h9, State.muxStep_of_ne_zero _ _ (by rw [h9]; decide), State.cycleDone_frame]; rfl
    · rw [if_neg h9]
      by_cases h0 : s.rphase = 0
      · rw [h0, State.muxStep_zero]; rfl
      · rw [State.muxStep_of_ne_zero _ _ h0]; rfl
  · rw [State.rowStep_of_ne s sw h]; rfl

/-! ### TICK -/

/-- What a tick can do, when it goes on: nothing while RUN = 0, else AUDIO_STEP and the row counter (R140, R141). -/
theorem tick_cases {s t : State} {sw : Mask} (h : tick sw s = .next t) :
    (s.run = false ∧ t = s) ∨ (s.run = true ∧ ∃ u, audioStep s = .next u ∧ t = u.rowStep sw) := by
  unfold tick at h
  split at h
  · exact .inl ⟨by assumption, by simpa using h.symm⟩
  · rename_i hr
    obtain ⟨u, hu, hk⟩ := andThen_eq_next.mp h
    exact .inr ⟨by simpa using hr, u, hu, by simpa using hk.symm⟩

end Sys2Proof.Machine
end

