-- ==== Sys2Proof/Laws/Drawing.lean ====
section
/-! SUPPORT. Bits of the display's masks and rows, rows of the framebuffer after a write, and what a drawing command has
done when all its row updates have been taken. -/

namespace Sys2Proof.Machine

/-! ### Bits -/

theorem pixelMask_getLsbD (x : Fin 7) (i : Nat) : (1#8 <<< x.val).getLsbD i = decide (i = x.val) := by
  have hx := x.isLt
  simp only [BitVec.getLsbD_shiftLeft, BitVec.getLsbD_one]
  by_cases h : i = x.val
  · subst h; simp; omega
  · by_cases hlt : i < x.val <;> simp [h, hlt]; omega

theorem plotBit_getLsbD (row : Byte) (x : Fin 7) (on : Bool) (i : Nat) :
    (plotBit row x on).getLsbD i = if i = x.val then on else row.getLsbD i := by
  have hx := x.isLt
  have hz : (0#8).getLsbD i = false := by simp
  have hm := pixelMask_getLsbD x i
  have hge : ¬i < 8 → row.getLsbD i = false := fun h => BitVec.getLsbD_of_ge row i (by omega)
  rw [plotBit, BitVec.getLsbD_or, BitVec.getLsbD_and, BitVec.getLsbD_not, hm]
  have h8 : i = x.val → i < 8 := by omega
  cases on <;> by_cases h : i = x.val <;> by_cases hi : i < 8 <;>
    simp only [hz, hm, h, hi, if_true, if_false, Bool.false_eq_true] <;> simp_all

theorem columnBit_getLsbD (p q : Fin 10) : (columnBit p).getLsbD q.val = decide (q = p) := by
  revert p q; decide

/-! ### The grid -/

theorem gridPoint_eq_none {x y : Int} (h : ¬((0 ≤ x ∧ x ≤ 6) ∧ (0 ≤ y ∧ y ≤ 4))) : gridPoint x y = none := by
  simp only [gridPoint]; exact dif_neg h

theorem gridPoint_coords (x : Fin 7) (y : Fin 5) : gridPoint x.val y.val = some (x, y) := by
  revert x y; decide

theorem sext8_column (x : Fin 7) : sext8 (BitVec.ofNat 8 x.val) = x.val := by revert x; decide

theorem sext8_line (y : Fin 5) : sext8 (BitVec.ofNat 8 y.val) = y.val := by revert y; decide

/-! ### Framebuffer rows -/

theorem State.readRow_writeRow (s : State) (i j : Fin 10) (v : Byte) :
    (s.writeRow i v).readRow j = if i = j then v else s.readRow j := by
  simp only [State.readRow, State.writeRow, Vector.getElem_set, Fin.ext_iff]

theorem planeRow_eq_iff {p q : Plane} {y z : Fin 5} : planeRow p y = planeRow q z ↔ p = q ∧ y = z := by
  have h : ∀ y z : Fin 5, (planeRow .green y = planeRow .green z ↔ y = z) ∧ (planeRow .red y = planeRow .red z ↔ y = z)
      ∧ planeRow .green y ≠ planeRow .red z ∧ planeRow .red y ≠ planeRow .green z := by decide
  obtain ⟨h1, h2, h3, h4⟩ := h y z
  cases p <;> cases q <;> simp [h1, h2, h3, h4]

/-- Every framebuffer row is a line of one of the two planes (R57). -/
theorem planeRow_surjective (i : Fin 10) : ∃ p y, i = planeRow p y := by
  by_cases h : i.val < 5
  · exact ⟨.green, ⟨i.val, h⟩, rfl⟩
  · exact ⟨.red, ⟨i.val - 5, by omega⟩, Fin.ext (by simp [planeRow]; omega)⟩

/-- One row update writes the framebuffer alone. -/
theorem State.applyRowWrite_frame (s : State) (w : RowWrite) : s.applyRowWrite w = { s with fb := (s.applyRowWrite w).fb } := by
  cases w <;> rfl

/-- A plotted bit: the pixel's bit of its plane's row becomes that plane's bit of COLOR, every other bit of every row
stays (R293). -/
theorem State.applyPlot_getLsbD (s : State) (p q : Plane) (x : Fin 7) (y z : Fin 5) (i : Nat) :
    ((s.applyRowWrite (.plot p x y)).readRow (planeRow q z)).getLsbD i =
      if p = q ∧ y = z ∧ i = x.val then planeBit p s.color else (s.readRow (planeRow q z)).getLsbD i := by
  simp only [State.applyRowWrite, State.readRow_writeRow, planeRow_eq_iff]
  by_cases h : p = q ∧ y = z
  · obtain ⟨rfl, rfl⟩ := h
    simp [plotBit_getLsbD]
  · rw [if_neg h, if_neg (fun hc => h ⟨hc.1, hc.2.1⟩)]

/-! ### Whole drawing commands -/

/-- The framebuffer after a list of row updates. -/
def State.applyRowWrites (s : State) (ws : List RowWrite) : State := ws.foldl State.applyRowWrite s

theorem State.applyRowWrites_frame (ws : List RowWrite) (s : State) :
    s.applyRowWrites ws = { s with fb := (s.applyRowWrites ws).fb } := by
  induction ws generalizing s with
  | nil => rfl
  | cons w ws ih =>
    have h := ih (s.applyRowWrite w)
    have hw := State.applyRowWrite_frame s w
    show (s.applyRowWrite w).applyRowWrites ws = { s with fb := ((s.applyRowWrite w).applyRowWrites ws).fb }
    rw [h, hw]

/-- The last row update of a drawing command ends it. -/
theorem State.continueDrawing_nil (s : State) (w : RowWrite) :
    s.continueDrawing w [] = { s.applyRowWrite w with host := .ready } := rfl

/-- Any other row update leaves the HOST agent before the next. -/
theorem State.continueDrawing_cons (s : State) (w v : RowWrite) (vs : List RowWrite) :
    s.continueDrawing w (v :: vs) = { s.applyRowWrite w with host := .drawing v vs } := rfl

/-- The first step of a drawing command is its first row update, whatever the HOST agent's place was. -/
theorem State.continueDrawing_eq_beginDrawing (s : State) (p : HostPhase) (w : RowWrite) (ws : List RowWrite) :
    { s with host := p }.continueDrawing w ws = s.beginDrawing (w :: ws) := by
  cases w <;> rfl

/-- The first step of a drawing command writes the framebuffer and the HOST agent's place alone. -/
theorem State.beginDrawing_frame (s : State) (ws : List RowWrite) :
    s.beginDrawing ws = { s with fb := (s.beginDrawing ws).fb, host := (s.beginDrawing ws).host } := by
  cases ws with
  | nil => rfl
  | cons w ws => cases w <;> rfl

end Sys2Proof.Machine
end

