-- ==== Sys2Proof/Laws/Memory.lean ====
section
/-! SUPPORT. Song memory: a read after a write, and the canonical form (spec/20_memory.md R70). -/

namespace Sys2Proof.Machine

theorem Memory.wfFrom_mono {lo lo' : Nat} (h : lo' ≤ lo) : ∀ {m : Memory}, Memory.wfFrom lo m = true → Memory.wfFrom lo' m = true
  | [], _ => rfl
  | (b, w) :: m, hm => by
    simp only [Memory.wfFrom, Bool.and_eq_true, decide_eq_true_eq] at hm ⊢
    exact ⟨⟨⟨by omega, hm.1.1.2⟩, hm.1.2⟩, hm.2⟩

/-- Below its first address a canonical memory reads as the fill. -/
theorem Memory.read_below : ∀ {m : Memory} {lo a : Nat}, Memory.wfFrom lo m = true → a < lo → m.read a = songFill
  | [], _, _, _, _ => rfl
  | (b, w) :: m, lo, a, hm, ha => by
    simp only [Memory.wfFrom, Bool.and_eq_true, decide_eq_true_eq] at hm
    rw [Memory.read, if_neg (by omega)]
    exact Memory.read_below hm.2 (by omega)

/-- A byte written is read back, and every other byte is as before. -/
theorem Memory.read_write : ∀ {m : Memory} {lo : Nat} (a : Nat) (v : Byte) (a' : Nat), Memory.wfFrom lo m = true →
    (m.write a v).read a' = if a' = a then v else m.read a'
  | [], _, a, v, a', _ => by
    by_cases hv : v = songFill <;> simp [Memory.write, Memory.read, hv]
  | (b, w) :: m, lo, a, v, a', hm => by
    simp only [Memory.wfFrom, Bool.and_eq_true, decide_eq_true_eq] at hm
    obtain ⟨⟨⟨_, _⟩, _⟩, hm⟩ := hm
    rw [Memory.write]
    split
    · rename_i hab
      have below : Memory.read m a = songFill := Memory.read_below hm (by omega)
      split
      · rename_i hv
        by_cases h : a' = a
        · subst h; simp [Memory.read, hv, below, show a' ≠ b by omega]
        · simp [h]
      · simp only [Memory.read]
    · split
      · rename_i _ hab
        subst hab
        have below : Memory.read m a = songFill := Memory.read_below hm (by omega)
        split
        · rename_i hv
          by_cases h : a' = a
          · subst h; simp [hv, below]
          · simp [Memory.read, h]
        · by_cases h : a' = a <;> simp [Memory.read, h]
      · rename_i h1 h2
        have ih := Memory.read_write a v a' hm
        by_cases h : a' = b
        · subst h; simp [Memory.read, Ne.symm h2]
        · simp [Memory.read, h, ih]

/-- A write keeps the canonical form from any bound at or below the address. -/
theorem Memory.write_wfFrom : ∀ {m : Memory} {lo : Nat} {a : Nat} {v : Byte}, Memory.wfFrom lo m = true → lo ≤ a →
    a < 65536 → Memory.wfFrom lo (m.write a v) = true
  | [], lo, a, v, _, h1, h2 => by
    by_cases hv : v = songFill <;> simp [Memory.write, Memory.wfFrom, hv, h1, h2]
  | (b, w) :: m, lo, a, v, hm, h1, h2 => by
    have hm' := hm
    simp only [Memory.wfFrom, Bool.and_eq_true, decide_eq_true_eq] at hm'
    obtain ⟨⟨⟨hb, hb2⟩, hw⟩, hrest⟩ := hm'
    rw [Memory.write]
    split
    · split
      · exact hm
      · simp [Memory.wfFrom, *]
    · split
      · rename_i _ hab
        subst hab
        split
        · exact Memory.wfFrom_mono (by omega) hrest
        · simp [Memory.wfFrom, *]
      · have := Memory.write_wfFrom (v := v) hrest (show b + 1 ≤ a by omega) h2
        simp [Memory.wfFrom, *]

/-- Every write of a song byte keeps the canonical form. -/
theorem Memory.write_wf {m : Memory} (a : Word) (v : Byte) (h : m.wf = true) : (m.write a.toNat v).wf = true :=
  Memory.write_wfFrom h (Nat.zero_le _) a.isLt

/-- The reset memory is in canonical form. -/
theorem Memory.wf_nil : Memory.wf [] = true := rfl

/-- What the host's write does to every byte of song memory. -/
theorem State.songByte_writeSong {s : State} (h : s.song.wf = true) (a : Word) (v : Byte) (a' : Word) :
    (s.writeSong a v).songByte a' = if a' = a then v else s.songByte a' := by
  have := Memory.read_write a.toNat v a'.toNat h
  simpa [State.songByte, State.writeSong, BitVec.toNat_inj] using this

end Sys2Proof.Machine
end

