-- ==== Sys2Proof/Laws/Agents.lean ====
section
/-! SUPPORT. What a turn of the HOST agent and a step of the machine can do, said once each. -/

namespace Sys2Proof.Machine

/-! ### Commands read from the port -/

theorem operands0_format {i j : Instr} {bs more : List Byte} (hi : i.format = .H)
    (h : operands0 i bs = .command j more) : j.format = .H := by
  cases h; exact hi

theorem operands1_format {f : Byte → Instr} {j : Instr} {bs more : List Byte} (hf : ∀ a, (f a).format = .H)
    (h : operands1 f bs = .command j more) : j.format = .H := by
  unfold operands1 at h; split at h <;> cases h; exact hf _

theorem operands2_format {f : Byte → Byte → Instr} {j : Instr} {bs more : List Byte} (hf : ∀ a b, (f a b).format = .H)
    (h : operands2 f bs = .command j more) : j.format = .H := by
  unfold operands2 at h; split at h <;> cases h; exact hf _ _

theorem operands4_format {f : Byte → Byte → Byte → Byte → Instr} {j : Instr} {bs more : List Byte}
    (hf : ∀ a b c d, (f a b c d).format = .H) (h : operands4 f bs = .command j more) : j.format = .H := by
  unfold operands4 at h; split at h <;> cases h; exact hf _ _ _ _

/-- What the command port delivers is a host command, never a song record (R100). -/
theorem decodeCommand_format {bs more : List Byte} {i : Instr} (h : decodeCommand bs = .command i more) :
    i.format = .H := by
  unfold decodeCommand at h
  split at h
  · cases h
  · split at h <;>
      first
      | exact operands0_format rfl h
      | exact operands1_format (fun _ => rfl) h
      | exact operands2_format (fun _ _ => rfl) h
      | exact operands4_format (fun _ _ _ _ => rfl) h
      | cases h

/-! ### The HOST agent -/

/-- A turn inside a drawing command is its next row update. -/
theorem hostTurn_drawing {s : State} {w : RowWrite} {ws : List RowWrite} (h : s.host = .drawing w ws) :
    hostTurn s = .next (s.continueDrawing w ws) := by
  simp only [hostTurn, h]

/-- A turn between two commands with no whole command on the port changes nothing (R100). -/
theorem hostTurn_incomplete {s : State} (h : s.host = .ready) (hd : decodeCommand s.hostIn = .incomplete) :
    hostTurn s = .next s := by
  simp [hostTurn, h, hd]

/-- What a turn of the HOST agent can do, when it goes on: a row update, nothing, or a host command from a state that
differs at most in the HOST agent's place and the bytes left on the port (R90, R94). -/
theorem hostTurn_cases {s t : State} (h : hostTurn s = .next t) :
    (∃ w ws, s.host = .drawing w ws ∧ t = s.continueDrawing w ws)
    ∨ t = s
    ∨ (∃ i u, i.format = .H ∧ exec i u = .next t ∧ u = { s with host := .ready, hostIn := u.hostIn }
        ∧ ((s.host = .inSwapBuffers ∧ i = .swapBuffers) ∨ (s.host = .inWaitAudio ∧ i = .waitAudio)
          ∨ (s.host = .ready ∧ decodeCommand s.hostIn = .command i u.hostIn))) := by
  unfold hostTurn at h
  split at h
  · rename_i w ws hh
    exact .inl ⟨w, ws, hh, by cases h; rfl⟩
  · rename_i hh
    exact .inr (.inr ⟨.swapBuffers, _, rfl, h, rfl, .inl ⟨hh, rfl⟩⟩)
  · rename_i hh
    exact .inr (.inr ⟨.waitAudio, _, rfl, h, rfl, .inr (.inl ⟨hh, rfl⟩)⟩)
  · rename_i hh
    split at h
    · exact .inr (.inl (by cases h; rfl))
    · cases h
    · rename_i i bs hd
      exact .inr (.inr ⟨i, { s with hostIn := bs }, decodeCommand_format hd, h, by rw [← hh], .inr (.inr ⟨hh, hd⟩)⟩)

/-! ### One step -/

/-- What a step can do, when it goes on: nothing with no input left, and otherwise what its next input says. -/
theorem step_cases {s t : State} (h : step s = .next t) :
    (s.inputs = [] ∧ t = s)
    ∨ (∃ sw is, s.inputs = .tick sw :: is ∧ tick sw { s with inputs := is } = .next t)
    ∨ (∃ is, s.inputs = .hostTurn :: is ∧ hostTurn { s with inputs := is } = .next t)
    ∨ (∃ b is, s.inputs = .hostByte b :: is ∧ t = { s with inputs := is, hostIn := s.hostIn ++ [b] })
    ∨ (∃ a b is, s.inputs = .songWrite a b :: is ∧ t = { s with inputs := is }.writeSong a b)
    ∨ (∃ is, s.inputs = .reset :: is ∧ t = { s with inputs := is }.hardReset) := by
  unfold step takeInput at h
  split at h
  · rename_i hi; exact .inl ⟨hi, by cases h; rfl⟩
  · rename_i i is hi
    cases i with
    | tick sw => exact .inr (.inl ⟨sw, is, hi, h⟩)
    | hostTurn => exact .inr (.inr (.inl ⟨is, hi, h⟩))
    | hostByte b => exact .inr (.inr (.inr (.inl ⟨b, is, hi, by cases h; rfl⟩)))
    | songWrite a b => exact .inr (.inr (.inr (.inr (.inl ⟨a, b, is, hi, by cases h; rfl⟩))))
    | reset => exact .inr (.inr (.inr (.inr (.inr ⟨is, hi, by cases h; rfl⟩))))

/-! ### Runs of one agent -/

/-- A run of ticks is a run of its first part and then of its second. -/
theorem ticks_append (sws₁ sws₂ : List Mask) (s : State) :
    ticks (sws₁ ++ sws₂) s = andThen (ticks sws₁ s) (ticks sws₂) := by
  induction sws₁ generalizing s with
  | nil => rfl
  | cons sw sws ih =>
    simp only [List.cons_append, ticks]
    cases tick sw s <;> simp [andThen, ih]

/-- While Idle every tick goes on, so every run of ticks does (R161). -/
theorem ticks_of_idle (sws : List Mask) {s : State} (h : s.playing = false) : ∃ t, ticks sws s = .next t := by
  induction sws generalizing s with
  | nil => exact ⟨s, rfl⟩
  | cons sw sws ih =>
    by_cases hr : s.run = false
    · obtain ⟨t, ht⟩ := ih h
      exact ⟨t, by simp [ticks, tick, hr, ht]⟩
    · have hp : (s.rowStep sw).playing = false := by rw [State.rowStep_frame]; exact h
      obtain ⟨t, ht⟩ := ih hp
      exact ⟨t, by simp [ticks, tick, hr, audioStep, h, ht]⟩

/-! ### What the invariant does not read -/

/-- The invariant does not depend on the inputs to come. -/
theorem Inv.withInputs {s : State} (h : Inv s) (is : List Input) : Inv { s with inputs := is } where
  phaseIndex := h.phaseIndex
  rowdivRange := h.rowdivRange
  swScanLow := h.swScanLow
  oneColumn := h.oneColumn
  rowBit7 := h.rowBit7
  remInNote := h.remInNote
  envRange := h.envRange
  levelRange := h.levelRange
  idleSilent := h.idleSilent
  deltaRange := h.deltaRange
  slopeRange := h.slopeRange
  sustainRange := h.sustainRange
  controlsLegal := h.controlsLegal
  intervalLegal := h.intervalLegal
  swapCntPositive := h.swapCntPositive
  ordered := fun hp hn =>
    have o := h.ordered hp hn
    { attackFirst := o.attackFirst, decayNext := o.decayNext, sustainTick := o.sustainTick
      remPositive := o.remPositive, remInNote := o.remInNote }
  onTrack := fun hp hn =>
    have o := h.onTrack hp hn
    { attack := o.attack, decay := o.decay, sustain := o.sustain, release := o.release }
  songCanonical := h.songCanonical

end Sys2Proof.Machine
end

