-- ==== Sys2Proof/Laws/Envelope.lean ====
section
/-! SUPPORT. The value of the breakpoint quantities as numbers, and what ENV_STEP does in each segment, said once each;
the hypotheses are the order of the breakpoints (R192) and the counter's place among them. -/

namespace Sys2Proof.Machine

/-! ### Quantities -/

/-- A segment is a fraction k/256 of the note, rounded down (R191). -/
theorem segmentTicks_toNat (dur : Word) (k : Byte) : (segmentTicks dur k).toNat = dur.toNat * k.toNat / 256 := by
  have hd := dur.isLt
  have hk := k.isLt
  have : dur.toNat * k.toNat / 256 < 65536 := by
    rw [Nat.div_lt_iff_lt_mul (by decide)]
    nlinarith
  simp only [segmentTicks, BitVec.toNat_ofNat]
  exact Nat.mod_eq_of_lt this

/-- A slope whose rise is at most full scale fits its register (R195). -/
theorem slope_toNat {rise : Nat} (h : rise ≤ 16384) (w : Word) : (slope rise w).toNat = rise / w.toNat := by
  have := Nat.div_le_self rise w.toNat
  simp only [slope, BitVec.toNat_ofNat]
  exact Nat.mod_eq_of_lt (by omega)

theorem sustainLevel_toNat {v : Byte} (h : v.toNat ≤ 64) : (sustainLevel v).toNat = v.toNat * 256 := by
  simp only [sustainLevel, BitVec.toNat_ofNat]
  exact Nat.mod_eq_of_lt (by omega)

/-! ### ENV_STEP in each segment (R190, R194 to R198) -/

/-- The first tick of a note whose attack has a tick. -/
theorem State.envNext_attackStart {s : State} (ha : s.rem = s.atkStart) (hd : s.decStart.toNat < s.rem.toNat)
    (hr : s.relStart.toNat < s.rem.toNat) :
    s.envNext = ⟨0x0000 + slope 16384 (s.atkStart - s.decStart), slope 16384 (s.atkStart - s.decStart)⟩ := by
  have h1 : s.rem ≠ s.decStart := by rintro h; rw [h] at hd; omega
  have h2 : s.rem ≠ s.relStart := by rintro h; rw [h] at hr; omega
  have h3 : s.atkStart ≠ s.decStart := ha ▸ h1
  simp [State.envNext, attackEvent, decayEvent, releaseEvent, segmentAction, ← ha, h1, h2, hd]

/-- A later tick of the attack. -/
theorem State.envNext_attack {s : State} (ha : s.rem ≠ s.atkStart) (hd : s.decStart.toNat < s.rem.toNat)
    (hr : s.relStart.toNat < s.rem.toNat) : s.envNext = ⟨s.env + s.envDelta, s.envDelta⟩ := by
  have h1 : s.rem ≠ s.decStart := by rintro h; rw [h] at hd; omega
  have h2 : s.rem ≠ s.relStart := by rintro h; rw [h] at hr; omega
  simp [State.envNext, attackEvent, decayEvent, releaseEvent, segmentAction, ha, h1, h2, hd]

/-- The first tick of the decay. -/
theorem State.envNext_decayStart {s : State} (hd : s.rem = s.decStart) (hs : s.susStart.toNat < s.rem.toNat)
    (hr : s.relStart.toNat < s.rem.toNat) :
    s.envNext = ⟨0x4000 - slope ((64 - s.sAct.toNat) * 256) (s.decStart - s.susStart),
      slope ((64 - s.sAct.toNat) * 256) (s.decStart - s.susStart)⟩ := by
  have h1 : s.decStart ≠ s.susStart := by rintro h; rw [hd, h] at hs; omega
  have h2 : s.decStart ≠ s.relStart := by rintro h; rw [hd, h] at hr; omega
  have h3 : s.susStart.toNat < s.decStart.toNat := hd ▸ hs
  simp [State.envNext, decayEvent, releaseEvent, segmentAction, hd, h1, h2, h3]

/-- A later tick of the decay. -/
theorem State.envNext_decay {s : State} (ha : s.rem.toNat < s.decStart.toNat) (had : s.decStart.toNat ≤ s.atkStart.toNat)
    (hs : s.susStart.toNat < s.rem.toNat) (hr : s.relStart.toNat < s.rem.toNat) :
    s.envNext = ⟨s.env - s.envDelta, s.envDelta⟩ := by
  have h0 : s.rem ≠ s.atkStart := by rintro h; rw [h] at ha; omega
  have h1 : s.rem ≠ s.decStart := by rintro h; rw [h] at ha; omega
  have h2 : s.rem ≠ s.relStart := by rintro h; rw [h] at hr; omega
  have h3 : ¬s.decStart.toNat < s.rem.toNat := by omega
  simp [State.envNext, attackEvent, decayEvent, releaseEvent, segmentAction, h0, h1, h2, h3, hs]

/-- Every tick of the sustain, the first of a note without attack and decay included. -/
theorem State.envNext_sustain {s : State} (hd : s.rem.toNat ≤ s.decStart.toNat) (hs : s.rem.toNat ≤ s.susStart.toNat)
    (hr : s.relStart.toNat < s.rem.toNat) : s.envNext.value = sustainLevel s.sAct := by
  have h1 : ¬s.decStart.toNat < s.rem.toNat := by omega
  have h2 : ¬s.susStart.toNat < s.rem.toNat := by omega
  simp [State.envNext, segmentAction, h1, h2, hr]

/-- No slope is computed in the sustain, nor at a breakpoint whose segment has no tick (R196, R198). -/
theorem State.envNext_sustain_delta {s : State} (hd : s.rem.toNat ≤ s.decStart.toNat)
    (ha : s.decStart.toNat ≤ s.atkStart.toNat) (hs : s.rem.toNat ≤ s.susStart.toNat)
    (hds : s.susStart.toNat ≤ s.decStart.toNat) (hr : s.relStart.toNat < s.rem.toNat) :
    s.envNext.delta = s.envDelta := by
  have h1 : ¬s.decStart.toNat < s.rem.toNat := by omega
  have h2 : ¬s.susStart.toNat < s.rem.toNat := by omega
  have h3 : ¬(s.rem = s.relStart ∧ s.relStart ≠ 0) := by rintro ⟨h, _⟩; rw [h] at hr; omega
  have hatk : (attackEvent s.rem s.atkStart s.decStart ⟨s.env, s.envDelta⟩).delta = s.envDelta := by
    unfold attackEvent
    split
    · rename_i h
      have : s.atkStart = s.decStart := BitVec.eq_of_toNat_eq (by rw [h] at hd; omega)
      simp [this]
    · rfl
  have hdec : ∀ p, (decayEvent s.rem s.decStart s.susStart s.sAct p).delta = p.delta := by
    intro p
    unfold decayEvent
    split
    · rename_i h
      have : s.decStart = s.susStart := BitVec.eq_of_toNat_eq (by rw [h] at hs; omega)
      simp [this]
    · rfl
  simp only [State.envNext, segmentAction, releaseEvent, if_neg h1, if_neg h2, if_neg h3, if_pos hr, hdec, hatk]

/-- The first tick of the release. -/
theorem State.envNext_releaseStart {s : State} (hr : s.rem = s.relStart) (h0 : s.rem ≠ 0)
    (hs : s.rem.toNat < s.susStart.toNat) (hd : s.susStart.toNat ≤ s.decStart.toNat)
    (ha : s.decStart.toNat ≤ s.atkStart.toNat) :
    s.envNext = ⟨s.env - slope (s.sAct.toNat * 256) s.relStart, slope (s.sAct.toNat * 256) s.relStart⟩ := by
  have h1 : s.rem ≠ s.atkStart := by rintro h; rw [h] at hs; omega
  have h2 : s.rem ≠ s.decStart := by rintro h; rw [h] at hs; omega
  have h3 : ¬s.decStart.toNat < s.rem.toNat := by omega
  have h4 : ¬s.susStart.toNat < s.rem.toNat := by omega
  have h5 : ¬s.relStart.toNat < s.rem.toNat := by rw [hr]; omega
  have h6 : s.rem = s.relStart ∧ s.relStart ≠ 0 := ⟨hr, hr ▸ h0⟩
  simp only [State.envNext, attackEvent, decayEvent, releaseEvent, segmentAction, if_neg h1, if_neg h2, if_neg h3,
    if_neg h4, if_neg h5, if_pos h6]

/-- A later tick of the release. -/
theorem State.envNext_release {s : State} (hr : s.rem.toNat < s.relStart.toNat)
    (hs : s.relStart.toNat < s.susStart.toNat) (hd : s.susStart.toNat ≤ s.decStart.toNat)
    (ha : s.decStart.toNat ≤ s.atkStart.toNat) : s.envNext = ⟨s.env - s.envDelta, s.envDelta⟩ := by
  have h1 : s.rem ≠ s.atkStart := by rintro h; rw [h] at hr; omega
  have h2 : s.rem ≠ s.decStart := by rintro h; rw [h] at hr; omega
  have h3 : ¬s.decStart.toNat < s.rem.toNat := by omega
  have h4 : ¬s.susStart.toNat < s.rem.toNat := by omega
  have h5 : ¬s.relStart.toNat < s.rem.toNat := by omega
  have h6 : ¬(s.rem = s.relStart ∧ s.relStart ≠ 0) := by rintro ⟨h, _⟩; rw [h] at hr; omega
  simp only [State.envNext, attackEvent, decayEvent, releaseEvent, segmentAction, if_neg h1, if_neg h2, if_neg h3,
    if_neg h4, if_neg h5, if_neg h6]

/-! ### ENV_STEP keeps the envelope on its track -/

/-- ENV_STEP keeps ENV and ENV_DELTA at most full scale and ENV on the track of its segments, up to the note's last tick:
no addition or subtraction of R190 wraps there (R201). -/
theorem EnvelopeOnTrack.envStep {s : State} (hb : BreakpointsOrdered s) (ht : EnvelopeOnTrack s) (hS : s.sAct.toNat < 64)
  (he : s.env.toNat ≤ 0x4000) (hd : s.envDelta.toNat ≤ 0x4000) :
  s.envNext.value.toNat ≤ 0x4000 ∧ s.envNext.delta.toNat ≤ 0x4000 ∧ 
  (2 ≤ s.rem.toNat → EnvelopeOnTrack {s.envStep with rem := s.rem - 1}) := by
  obtain ⟨b1,b2,b3,b4,b5⟩ := hb
  obtain ⟨ta,td,ts,tr⟩ := ht
  have hrem : 2 ≤ s.rem.toNat → (s.rem - 1).toNat = s.rem.toNat - 1 := by intro h; rw [BitVec.toNat_sub]; simp; have := s.rem.isLt; omega
  by_cases c1 : s.decStart.toNat < s.rem.toNat
  · by_cases c2 : s.rem = s.atkStart
    · have E := State.envNext_attackStart c2 c1 (by omega)
      have hsub : (s.atkStart - s.decStart).toNat = s.atkStart.toNat - s.decStart.toNat := by
        rw [BitVec.toNat_sub]; have := s.atkStart.isLt; have := s.decStart.isLt; omega
      have hs : (slope 16384 (s.atkStart - s.decStart)).toNat = 16384 / (s.atkStart.toNat - s.decStart.toNat) := by rw [slope_toNat (by omega), hsub]
      have hle : 16384 / (s.atkStart.toNat - s.decStart.toNat) ≤ 16384 := Nat.div_le_self _ _
      have hv : s.envNext.value.toNat = 16384 / (s.atkStart.toNat - s.decStart.toNat) := by rw [E]; simp [hs]
      have hdl : s.envNext.delta.toNat = 16384 / (s.atkStart.toNat - s.decStart.toNat) := by rw [E]; simp [hs]
      refine ⟨by omega, by omega, fun h2 => ?_⟩
      have hr := hrem h2
      have hcc : s.rem.toNat = s.atkStart.toNat := by rw [c2]
      constructor <;> simp only [State.envStep, hr, hv, hdl] <;> intros
      · refine ⟨trivial, ?_⟩
        rw [show s.atkStart.toNat - (s.rem.toNat - 1) = 1 by omega]; omega
      · omega
      · omega
      · omega
    · have E := State.envNext_attack c2 c1 (by omega)
      have c3 : s.rem.toNat < s.atkStart.toNat := by
        rcases Nat.lt_or_eq_of_le b5 with h | h
        · exact h
        · exact absurd (BitVec.eq_of_toNat_eq h) c2
      obtain ⟨t1, t2⟩ := ta c1 c3
      have hm : (s.atkStart.toNat - s.decStart.toNat) * s.envDelta.toNat ≤ 16384 := by rw [t1]; exact Nat.mul_div_le _ _
      have hm2 : (s.atkStart.toNat - s.rem.toNat + 1) * s.envDelta.toNat ≤ 16384 := le_trans (Nat.mul_le_mul_right _ (by omega)) hm
      have hv : s.envNext.value.toNat = (s.atkStart.toNat - s.rem.toNat + 1) * s.envDelta.toNat := by
        rw [E]; simp only [BitVec.toNat_add, t2]; rw [Nat.add_mul] at *; omega
      have hdl : s.envNext.delta.toNat = s.envDelta.toNat := by rw [E]
      refine ⟨by omega, by omega, fun h2 => ?_⟩
      have hr := hrem h2
      constructor <;> simp only [State.envStep, hr, hv, hdl] <;> intros
      · refine ⟨t1, ?_⟩
        rw [show s.atkStart.toNat - (s.rem.toNat - 1) = s.atkStart.toNat - s.rem.toNat + 1 by omega]
      · omega
      · omega
      · omega
  · by_cases c2 : s.susStart.toNat < s.rem.toNat
    · have hS2 : (64 - s.sAct.toNat) * 256 ≤ 16384 := by omega
      have hsub : (s.decStart - s.susStart).toNat = s.decStart.toNat - s.susStart.toNat := by
        rw [BitVec.toNat_sub]; have := s.decStart.isLt; have := s.susStart.isLt; omega
      by_cases c3 : s.rem = s.decStart
      · have E := State.envNext_decayStart c3 c2 (by omega)
        have hcc : s.rem.toNat = s.decStart.toNat := by rw [c3]
        have hs := slope_toNat hS2 (s.decStart - s.susStart)
        rw [hsub] at hs
        have hle := Nat.div_le_self ((64 - s.sAct.toNat) * 256) (s.decStart.toNat - s.susStart.toNat)
        have hv : s.envNext.value.toNat = 16384 - (64 - s.sAct.toNat) * 256 / (s.decStart.toNat - s.susStart.toNat) := by
          rw [E]; simp only [BitVec.toNat_sub, hs]; simp; omega
        have hdl : s.envNext.delta.toNat = (64 - s.sAct.toNat) * 256 / (s.decStart.toNat - s.susStart.toNat) := by
          rw [E]; simp only [hs]
        refine ⟨by omega, by omega, fun h2 => ?_⟩
        have hr := hrem h2
        constructor <;> simp only [State.envStep, hr, hv, hdl] <;> intros
        · omega
        · refine ⟨trivial, ?_⟩
          rw [show s.decStart.toNat - (s.rem.toNat - 1) = 1 by omega]; omega
        · omega
        · omega
      · have c4 : s.rem.toNat < s.decStart.toNat := by
          rcases Nat.lt_or_eq_of_le (Nat.le_of_not_lt c1) with h | h
          · exact h
          · exact absurd (BitVec.eq_of_toNat_eq h) c3
        have E := State.envNext_decay c4 b1 c2 (by omega)
        obtain ⟨t1, t2⟩ := td c2 c4
        have hm : (s.decStart.toNat - s.susStart.toNat) * s.envDelta.toNat ≤ (64 - s.sAct.toNat) * 256 := by rw [t1]; exact Nat.mul_div_le _ _
        have hm2 : (s.decStart.toNat - s.rem.toNat + 1) * s.envDelta.toNat ≤ (64 - s.sAct.toNat) * 256 := le_trans (Nat.mul_le_mul_right _ (by omega)) hm
        have hm3 : (s.decStart.toNat - s.rem.toNat + 1) * s.envDelta.toNat = (s.decStart.toNat - s.rem.toNat) * s.envDelta.toNat + s.envDelta.toNat := by rw [Nat.add_mul]; omega
        have hv : s.envNext.value.toNat = s.env.toNat - s.envDelta.toNat := by
          rw [E]; simp only [BitVec.toNat_sub]; omega
        have hdl : s.envNext.delta.toNat = s.envDelta.toNat := by rw [E]
        refine ⟨by omega, by omega, fun h2 => ?_⟩
        have hr := hrem h2
        constructor <;> simp only [State.envStep, hr, hv, hdl] <;> intros
        · omega
        · refine ⟨t1, ?_⟩
          rw [show s.decStart.toNat - (s.rem.toNat - 1) = s.decStart.toNat - s.rem.toNat + 1 by omega]; omega
        · omega
        · omega
    · by_cases c3 : s.relStart.toNat < s.rem.toNat
      · have hv := State.envNext_sustain (s := s) (by omega) (by omega) c3
        have hv2 : s.envNext.value.toNat = s.sAct.toNat * 256 := by rw [hv, sustainLevel_toNat (by omega)]
        have hdl : s.envNext.delta.toNat ≤ 16384 := by rw [State.envNext_sustain_delta (by omega) b1 (by omega) b2 c3]; exact hd
        refine ⟨by omega, by omega, fun h2 => ?_⟩
        have hr := hrem h2
        constructor <;> simp only [State.envStep, hr, hv2] <;> intros <;> first | trivial | omega
      · by_cases c4 : s.rem = s.relStart
        · have hcc : s.rem.toNat = s.relStart.toNat := by rw [c4]
          have E := State.envNext_releaseStart c4 (by intro h; rw [h] at b4; simp at b4) (by omega) b2 b1
          have t2 := ts (by omega) (by omega)
          have hs := slope_toNat (rise := s.sAct.toNat * 256) (by omega) s.relStart
          have hle := Nat.div_le_self (s.sAct.toNat * 256) s.relStart.toNat
          have hv : s.envNext.value.toNat = s.sAct.toNat * 256 - s.sAct.toNat * 256 / s.relStart.toNat := by
            rw [E]; simp only [BitVec.toNat_sub, hs]; omega
          have hdl : s.envNext.delta.toNat = s.sAct.toNat * 256 / s.relStart.toNat := by
            rw [E]; simp only [hs]
          refine ⟨by omega, by omega, fun h2 => ?_⟩
          have hr := hrem h2
          constructor <;> simp only [State.envStep, hr, hv, hdl] <;> intros
          · omega
          · omega
          · omega
          · refine ⟨trivial, ?_⟩
            rw [show s.relStart.toNat - (s.rem.toNat - 1) = 1 by omega]; omega
        · have c5 : s.rem.toNat < s.relStart.toNat := by
            rcases Nat.lt_or_eq_of_le (Nat.le_of_not_lt c3) with h | h
            · exact h
            · exact absurd (BitVec.eq_of_toNat_eq h) c4
          have E := State.envNext_release c5 b3 b2 b1
          obtain ⟨t1, t2⟩ := tr c5
          have hm : s.relStart.toNat * s.envDelta.toNat ≤ s.sAct.toNat * 256 := by rw [t1]; exact Nat.mul_div_le _ _
          have hm2 : (s.relStart.toNat - s.rem.toNat + 1) * s.envDelta.toNat ≤ s.sAct.toNat * 256 := le_trans (Nat.mul_le_mul_right _ (by omega)) hm
          have hm3 : (s.relStart.toNat - s.rem.toNat + 1) * s.envDelta.toNat = (s.relStart.toNat - s.rem.toNat) * s.envDelta.toNat + s.envDelta.toNat := by rw [Nat.add_mul]; omega
          have hv : s.envNext.value.toNat = s.env.toNat - s.envDelta.toNat := by
            rw [E]; simp only [BitVec.toNat_sub]; omega
          have hdl : s.envNext.delta.toNat = s.envDelta.toNat := by rw [E]
          refine ⟨by omega, by omega, fun h2 => ?_⟩
          have hr := hrem h2
          constructor <;> simp only [State.envStep, hr, hv, hdl] <;> intros
          · omega
          · omega
          · omega
          · refine ⟨t1, ?_⟩
            rw [show s.relStart.toNat - (s.rem.toNat - 1) = s.relStart.toNat - s.rem.toNat + 1 by omega]; omega

end Sys2Proof.Machine
end

