-- ==== Sys2Proof/Laws/PerInstr.lean ====
section
/-! SUPPORT. Statements made instruction by instruction. -/

namespace Sys2Proof.Laws.OperandBytes

/-- A host command's bytes are its opcode byte and as many operand bytes as the command map gives that opcode (R102); a
song record is two bytes (R101). -/
def Statement (i : Instr) : Prop :=
  ∀ c : Config,
    (i.format = .H → ∃ op ops, encode c i = op :: ops ∧ operandCount op = some ops.length)
    ∧ (i.format = .S → ∃ n d, encode c i = [n, d])

theorem init : Statement .init := fun _ => ⟨fun _ => ⟨_, _, rfl, rfl⟩, nofun⟩
theorem initSwapBuffers : Statement .initSwapBuffers := fun _ => ⟨fun _ => ⟨_, _, rfl, rfl⟩, nofun⟩
theorem setSwapInterval (n : Byte) : Statement (.setSwapInterval n) := fun _ => ⟨fun _ => ⟨_, _, rfl, rfl⟩, nofun⟩
theorem swapBuffers : Statement .swapBuffers := fun _ => ⟨fun _ => ⟨_, _, rfl, rfl⟩, nofun⟩
theorem setColor (k : Colour) : Statement (.setColor k) := fun _ => ⟨fun _ => ⟨_, _, rfl, rfl⟩, nofun⟩
theorem getColor : Statement .getColor := fun _ => ⟨fun _ => ⟨_, _, rfl, rfl⟩, nofun⟩
theorem clearDisplay : Statement .clearDisplay := fun _ => ⟨fun _ => ⟨_, _, rfl, rfl⟩, nofun⟩
theorem drawPoint (x y : Coord) : Statement (.drawPoint x y) := fun _ => ⟨fun _ => ⟨_, _, rfl, rfl⟩, nofun⟩
theorem readPixel (x y : Coord) : Statement (.readPixel x y) := fun _ => ⟨fun _ => ⟨_, _, rfl, rfl⟩, nofun⟩
theorem drawFilledRect (x1 y1 x2 y2 : Coord) : Statement (.drawFilledRect x1 y1 x2 y2) := fun _ => ⟨fun _ => ⟨_, _, rfl, rfl⟩, nofun⟩
theorem initAudio : Statement .initAudio := fun _ => ⟨fun _ => ⟨_, _, rfl, rfl⟩, nofun⟩
theorem setWaveTable (id : Byte) : Statement (.setWaveTable id) := fun _ => ⟨fun _ => ⟨_, _, rfl, rfl⟩, nofun⟩
theorem setEnvelope (a d s r : Byte) : Statement (.setEnvelope a d s r) := fun _ => ⟨fun _ => ⟨_, _, rfl, rfl⟩, nofun⟩
theorem playSong (seq : Word) : Statement (.playSong seq) := fun _ => ⟨fun _ => ⟨_, _, rfl, rfl⟩, nofun⟩
theorem loopSong (flag : Bool) : Statement (.loopSong flag) := fun _ => ⟨fun _ => ⟨_, _, rfl, rfl⟩, nofun⟩
theorem isAudioPlaying : Statement .isAudioPlaying := fun _ => ⟨fun _ => ⟨_, _, rfl, rfl⟩, nofun⟩
theorem waitAudio : Statement .waitAudio := fun _ => ⟨fun _ => ⟨_, _, rfl, rfl⟩, nofun⟩
theorem handleButtons : Statement .handleButtons := fun _ => ⟨fun _ => ⟨_, _, rfl, rfl⟩, nofun⟩
theorem readButtons : Statement .readButtons := fun _ => ⟨fun _ => ⟨_, _, rfl, rfl⟩, nofun⟩
theorem clearEvents (mask : Mask) : Statement (.clearEvents mask) := fun _ => ⟨fun _ => ⟨_, _, rfl, rfl⟩, nofun⟩
theorem clearEdges (mask : Mask) : Statement (.clearEdges mask) := fun _ => ⟨fun _ => ⟨_, _, rfl, rfl⟩, nofun⟩
theorem endMark (dur : Byte) : Statement (.endMark dur) := fun _ => ⟨nofun, fun _ => ⟨_, _, rfl⟩⟩
theorem rest (dur : Byte) : Statement (.rest dur) := fun _ => ⟨nofun, fun _ => ⟨_, _, rfl⟩⟩
theorem note (n dur : Byte) : Statement (.note n dur) := fun _ => ⟨nofun, fun _ => ⟨_, _, rfl⟩⟩

end Sys2Proof.Laws.OperandBytes
end

