-- ==== Sys2Proof/Tests/Slice0.lean ====
section
/-! SUPPORT. Tests whose expected values come from spec/95_test_vectors.md (the vector's name is in the docstring) and from
the encodings of spec/30_encoding.md; and for each statement with hypotheses, witnesses that meet them. -/

namespace Sys2Proof.Tests

open Sys2Proof.Machine

/-! ### TESTCFG (95_test_vectors.md section 0) -/

def testData : ConfigData where
  wave := #v[
    #v[0, 2, 3, 5, 6, 8, 9, 11, 13, 14, 16, 17, 19, 21, 22, 24, 25, 27, 28, 30, 32, 33, 35, 36, 38, 40, 41, 43, 44, 46,
       47, 49],
    #v[25, 29, 34, 38, 42, 45, 47, 49, 49, 49, 47, 45, 42, 38, 34, 29, 25, 20, 15, 11, 7, 4, 2, 0, 0, 0, 2, 4, 7, 11,
       15, 20],
    #v[49, 49, 49, 49, 49, 49, 49, 49, 49, 49, 49, 49, 49, 49, 49, 49, 0, 0, 0, 0, 0, 0, 0, 0, 0, 0, 0, 0, 0, 0, 0, 0]]
  noteTable := Vector.ofFn fun n => BitVec.ofNat 16 (0x0100 + 7 * n.val)
  durTable := Vector.ofFn fun d => BitVec.ofNat 16 (8 * (d.val + 1))
  noteEnd := 0xFF
  noteRest := 0x00
  envReset := ⟨64, 32, 32, 64⟩
  wselReset := 0
  colorReset := 0
  swapIntervalReset := 1

theorem testData_legal : testData.legal = true := by decide

def testCfg : Config := ⟨testData, testData_legal⟩

/-- TESTCFG with `CFG.NOTE_REST = 0x40` (vector S11). -/
theorem restData_legal : { testData with noteRest := 0x40 }.legal = true := by decide

def restCfg : Config := ⟨{ testData with noteRest := 0x40 }, restData_legal⟩

/-- The state after reset under TESTCFG. -/
def base : State := State.resetWith testCfg

/-- The next state of a result, if it goes on. -/
def next? (r : Result) : Option State :=
  match r with
  | .next t => some t
  | _ => none

/-- The refusal of a result, if it is refused. -/
def refused? (r : Result) : Option Refusal :=
  match r with
  | .refused e => some e
  | _ => none

/-- A result that goes on is its next state. -/
theorem eq_next {r : Result} (h : (next? r).isSome = true) : ∃ t, r = .next t := by
  cases r with
  | next t => exact ⟨t, rfl⟩
  | fault f => cases h
  | refused e => cases h

/-! ### Ill-formed instructions are refused by WellFormed (R110, R112, R113) -/

theorem test_wf_interval_zero : (Instr.setSwapInterval 0).wf testCfg = false := by decide
theorem test_wf_sustain : (Instr.setEnvelope 10 10 64 10).wf testCfg = false := by decide
theorem test_wf_rest_duration : (Instr.rest 48).wf testCfg = false := by decide
theorem test_wf_note_range : (Instr.note 37 0).wf testCfg = false := by decide
theorem test_wf_note_duration : (Instr.note 36 48).wf testCfg = false := by decide
theorem test_wf_note_is_rest : (Instr.note 0x00 0).wf testCfg = false := by decide
theorem test_wf_note_is_end : (Instr.note 0xFF 0).wf testCfg = false := by decide
theorem test_wf_good : (Instr.note 36 47).wf testCfg = true ∧ (Instr.rest 47).wf testCfg = true
    ∧ (Instr.setEnvelope 255 255 255 255).wf testCfg = true ∧ (Instr.setSwapInterval 255).wf testCfg = true := by decide

/-! ### Decoding: one word of each row, written out from R102, R103 and R110 -/

theorem test_decode_init : decodeCommand [0b00000000#8] = .command .init [] := by decide
theorem test_decode_initSwapBuffers : decodeCommand [0b00000001#8] = .command .initSwapBuffers [] := by decide
theorem test_decode_setSwapInterval : decodeCommand [0b00000010#8, 0x03#8] = .command (.setSwapInterval 3) [] := by decide
theorem test_decode_swapBuffers : decodeCommand [0b00000011#8] = .command .swapBuffers [] := by decide
/-- Vector G8: the operand is masked. -/
theorem test_decode_setColor : decodeCommand [0b00010000#8, 0x06#8] = .command (.setColor 2) [] := by decide
theorem test_decode_getColor : decodeCommand [0b00010001#8] = .command .getColor [] := by decide
theorem test_decode_clearDisplay : decodeCommand [0b00010010#8] = .command .clearDisplay [] := by decide
theorem test_decode_drawPoint : decodeCommand [0b00010011#8, 0x02#8, 0x04#8] = .command (.drawPoint 2 4) [] := by decide
theorem test_decode_readPixel : decodeCommand [0b00010100#8, 0x03#8, 0x04#8] = .command (.readPixel 3 4) [] := by decide
theorem test_decode_drawFilledRect :
    decodeCommand [0b00010101#8, 0xFF#8, 0x03#8, 0x01#8, 0x09#8] = .command (.drawFilledRect 0xFF 3 1 9) [] := by decide
theorem test_decode_initAudio : decodeCommand [0b00100000#8] = .command .initAudio [] := by decide
theorem test_decode_setWaveTable : decodeCommand [0b00100001#8, 0x02#8] = .command (.setWaveTable 2) [] := by decide
theorem test_decode_setEnvelope :
    decodeCommand [0b00100010#8, 0xC8#8, 0x0A#8, 0x05#8, 0x32#8] = .command (.setEnvelope 200 10 5 50) [] := by decide
theorem test_decode_playSong : decodeCommand [0b00100011#8, 0x00#8, 0x02#8] = .command (.playSong 0x0200) [] := by decide
theorem test_decode_loopSong : decodeCommand [0b00100100#8, 0x80#8] = .command (.loopSong true) [] := by decide
theorem test_decode_isAudioPlaying : decodeCommand [0b00100101#8] = .command .isAudioPlaying [] := by decide
theorem test_decode_waitAudio : decodeCommand [0b00100110#8] = .command .waitAudio [] := by decide
theorem test_decode_handleButtons : decodeCommand [0b00110000#8] = .command .handleButtons [] := by decide
theorem test_decode_readButtons : decodeCommand [0b00110001#8] = .command .readButtons [] := by decide
theorem test_decode_clearEvents : decodeCommand [0b00110010#8, 0xF1#8] = .command (.clearEvents 1) [] := by decide
theorem test_decode_clearEdges : decodeCommand [0b00110011#8, 0x0F#8] = .command (.clearEdges 15) [] := by decide
theorem test_decode_endMark : decodeRecord testCfg 0b11111111#8 0x77#8 = some (.endMark 0x77) := by decide
theorem test_decode_rest : decodeRecord testCfg 0b00000000#8 0x01#8 = some (.rest 1) := by decide
theorem test_decode_note : decodeRecord testCfg 0b00100100#8 0x2F#8 = some (.note 36 47) := by decide
theorem test_decode_reserved_note : decodeRecord testCfg 0x25#8 0x00#8 = none := by decide
theorem test_decode_reserved_opcode : decodeCommand [0x04#8] = .reserved 0x04 := by decide
theorem test_decode_more_bytes : decodeCommand [0x13#8, 0x02#8] = .incomplete := by decide
theorem test_table_word_command : decodeTableWord 24 0x040213 = some (.drawPoint 2 4) := by decide
theorem test_table_word_record : decodeTableWord 16 0x77FF = some (.endMark 0x77) := by decide

/-! ### Arithmetic (sections 2.2 to 2.4) -/

/-- A4, A5, A10. -/
theorem test_phase_advance :
    phaseAdvance 0x1FFF 0x0101 = 0x0100 ∧ phaseAdvance 0x1F80 0x0180 = 0x0100 ∧ phaseAdvance 0x1E01 0x01FF = 0 := by decide
/-- I2, I3, I5, I10, I11. -/
theorem test_interpolate :
    interpolate 0 2 63 = 0 ∧ interpolate 0 2 64 = 1 ∧ interpolate 49 0 128 = 25 ∧ interpolate 11 10 128 = 11
      ∧ interpolate 11 10 129 = 10 := by decide
/-- L2, L4, L7. -/
theorem test_level :
    levelProduct 49 (round8_8 0x2000) = 24 ∧ levelProduct 49 (round8_8 0x2080) = 25
      ∧ levelProduct 1 (round8_8 0x3F7F) = 0 := by decide

/-! ### A note of 24 ticks (vector E2) and records (section 2.7) -/

/-- Playing a note of n ticks with control bytes a, d, s, r, before its first tick. -/
def noteState (n : Word) (a d s r : Byte) : State :=
  { base with envA := a, envD := d, envS := s, envR := r, run := true, playing := true, note := 5, pdelta := 0x0123
              rem := n }.setBreakpoints

/-- E2 before tick k + 1. -/
def e2 (k : Nat) : State := envTicks k (noteState 24 64 32 32 64)

/-- E2, E5, E8: breakpoints. -/
theorem test_breakpoints :
    (e2 0).decStart = 18 ∧ (e2 0).susStart = 15 ∧ (e2 0).relStart = 6
      ∧ (noteState 16 128 0 20 127).relStart = 7 ∧ (noteState 1 100 50 5 100).susStart = 1 := by decide
/-- E2: the attack's last tick, the decay's last, the sustain's, the release's first and last. -/
theorem test_envelope :
    (e2 6).env = 0x3FFC ∧ (e2 9).env = 0x2002 ∧ (e2 18).env = 0x2000 ∧ (e2 19).env = 0x1AAB ∧ (e2 24).env = 0x0002 := by
  decide
/-- E7: without the reload the decay would underflow. -/
theorem test_envelope_reload : (envTicks 10 (noteState 100 18 8 0 8)).env = 0x0001 := by decide
/-- E4: no attack, one decay tick to 0. -/
theorem test_envelope_one_decay : (envTicks 1 (noteState 8 0 63 0 0)).env = 0 := by decide

/-- Song memory with these cells, in canonical form. -/
def withSong (s : State) (m : Memory) : State := { s with song := m }

/-- S1. -/
theorem test_note :
    (next? (loadNote { withSong base [(0x0200, 5), (0x0201, 2)] with cursor := 0x0200 })).map
      (fun t => (t.note, t.pdelta, t.rem, t.cursor, t.decStart)) = some (5, 0x0123, 24, 0x0202, 18) := by decide
/-- S10. -/
theorem test_rest :
    (next? (loadNote { withSong base [(0x0301, 1)] with cursor := 0x0300, pdelta := 0x0123 })).map
      (fun t => (t.note, t.pdelta, t.rem)) = some (0, 0x0100, 16) := by decide
/-- S11. -/
theorem test_rest_keeps_delta :
    (next? (loadNote { withSong (State.resetWith restCfg) [(0x0300, 0x40), (0x0301, 1)] with
      cursor := 0x0300, pdelta := 0x0123 })).map
      (fun t => (t.note, t.pdelta, t.rem)) = some (0x40, 0x0123, 16) := by decide
/-- S2. -/
theorem test_playSong_end :
    (next? (exec (.playSong 0x0020) { withSong base [(0x0020, 0xFF), (0x0021, 0x55)] with wsel := 2 })).map
      (fun t => (t.note, t.cursor, t.loopStart, t.pwmNext, t.playing, t.rem)) = some (0xFF, 0x0022, 0x0020, 49, false, 0) := by
  decide
/-- S4: the record straddles the top of song memory. -/
theorem test_playSong_top :
    (next? (exec (.playSong 0xFFFF) (withSong base [(0x0000, 1), (0xFFFF, 2)]))).map
      (fun t => (t.note, t.rem, t.pdelta, t.cursor, t.playing)) = some (2, 16, 0x010E, 0x0001, true) := by decide
/-- S7. -/
theorem test_note_refused :
    refused? (exec (.playSong 0x0030) (withSong base [(0x0030, 5), (0x0031, 0x30)])) = some (.reservedDuration 48) := by
  decide
theorem test_endMark : (next? (exec (.endMark 0x55) base)).map (fun t => (t.note, t.cursor, t.rem)) = some (0xFF, 2, 0) := by
  decide

/-! ### A tick of the audio engine (section 2.5) -/

/-- The state of section 2.5 with PHASE forced. -/
def wrapState (phase : Fixed) : State := { noteState 8 64 32 32 64 with note := 3, pdelta := 0x0115, phase := phase }

/-- W3: the samples at the old index, the weight of the new fraction. -/
theorem test_tick_wrap :
    (next? (tick 0 (wrapState 0x1FF0))).map (fun t => (t.phase, t.pwmNext, t.env)) = some (0x0105, 24, 0x2000) := by decide
/-- W2. -/
theorem test_tick_index_31 :
    (next? (tick 0 (wrapState 0x1F00))).map (fun t => (t.phase, t.pwmNext)) = some (0x0015, 22) := by decide

/-! ### Commands (sections 2.6, 2.8 to 2.10) -/

/-- The program of P1 to P5 starts so. -/
theorem test_init :
    (next? (exec .init base)).map (fun t => (t.run, t.rowdiv, t.rphase, t.swapCnt, t.note)) = some (true, 20, 0, 1, 0xFF) := by
  decide
/-- V4, V6, V7, V8. -/
theorem test_setEnvelope :
    (next? (exec (.setEnvelope 255 0 63 0) base)).map (fun t => (t.envA, t.envD, t.envS, t.envR)) = some (255, 0, 63, 0)
      ∧ (next? (exec (.setEnvelope 128 63 0 65) base)).map (·.envA) = some 64
      ∧ refused? (exec (.setEnvelope 10 10 64 10) base) = some (.envelopeSustainOutOfRange 64) := by decide
/-- V8: the sum is not truncated. -/
theorem test_setEnvelope_sum : (next? (exec (.setEnvelope 255 255 255 255) base)).map (·.envS) = some 32 := by decide
/-- M1. -/
theorem test_mux_bit7 :
    ({ base with fb := base.fb.set 3 0x15 }.muxStep 0 3).trace = [.columnOff 2, .rowOut 0x95, .columnOn 3] := by decide
/-- M3 and B5. -/
theorem test_mux_scan :
    ({ base with fb := base.fb.set 0 0x01 }.muxStep 2 0).trace =
      [.columnOff 9, .rowOut 0, .swScan true, .switchSample 2, .swScan false, .rowOut 0x81, .columnOn 0]
    ∧ (base.muxStep 2 0).edge = 2 ∧ (base.muxStep 2 0).level = 2 := by decide
/-- B3, B4. -/
theorem test_latch :
    ({ base with level := 5, edge := 1 }.buttonLatch 0).edge = 1 ∧ ({ base with edge := 1 }.buttonLatch 15).edge = 15 := by
  decide
/-- T5. -/
theorem test_cycle_end :
    (next? (tick 0 { base with run := true, rowdiv := 1, rphase := 9, colEn := 0x100 })).map
      (fun t => (t.rphase, t.rowdiv, t.swapCnt, t.ready, t.colEn)) = some (0, 20, 1, true, 0x200) := by decide
/-- H2, H5. -/
theorem test_handleButtons_fresh :
    (next? (exec .handleButtons { base with level := 5, held := 1, event := 1 })).map (fun t => (t.held, t.event)) = some (5, 5)
    ∧ (next? (exec .handleButtons { base with level := 10, held := 4, event := 4 })).map (fun t => (t.held, t.event))
      = some (6, 6) := by decide
/-- H4. -/
theorem test_handleButtons_refresh :
    (next? (exec .handleButtons { base with level := 4, held := 5, event := 5 })).map (fun t => (t.held, t.event)) = some (4, 5) := by
  decide
/-- P3 step 8. -/
theorem test_readButtons :
    (next? (exec .readButtons { base with level := 4, edge := 5, held := 4, event := 4 })).map (·.replies)
      = some [0x44, 0x54] := by decide
theorem test_clearEvents : (next? (exec (.clearEvents 1) { base with event := 5 })).map (·.event) = some 4 := by decide
theorem test_clearEdges : (next? (exec (.clearEdges 15) { base with edge := 15 })).map (·.edge) = some 0 := by decide
/-- G1, the second step. -/
theorem test_drawPoint :
    ((next? (exec (.drawPoint 2 4) { base with color := 3 })).bind fun t => next? (hostTurn t)).map
      (fun t => (t.readRow 4, t.readRow 9, t.host)) = some (4, 4, .ready) := by decide
/-- G7. -/
theorem test_drawPoint_clipped : (next? (exec (.drawPoint 0 0x80) { base with color := 3 })).map (·.host) = some .ready := by
  decide
/-- G4: the row writes. -/
theorem test_rect_writes : rectWrites (-1) 3 1 9 =
    [.plot .green 0 3, .plot .red 0 3, .plot .green 1 3, .plot .red 1 3, .plot .green 0 4, .plot .red 0 4,
     .plot .green 1 4, .plot .red 1 4] := by decide
/-- G6. -/
theorem test_rect_empty : (next? (exec (.drawFilledRect 4 0 2 4) base)).map (·.host) = some .ready := by decide
theorem test_clearDisplay :
    (next? (exec .clearDisplay { base with fb := Vector.replicate 10 0x7F })).map (fun t => (t.readRow 0, t.readRow 1))
      = some (0, 0x7F) := by decide
/-- G9. -/
theorem test_readPixel :
    (next? (exec (.readPixel 2 4) { base with fb := base.fb.set 4 0x04 })).map (·.replies) = some [0x02] := by decide
theorem test_setColor : (next? (exec (.setColor 3) base)).map (·.color) = some 3 := by decide
/-- G8. -/
theorem test_getColor : (next? (exec .getColor { base with color := 2 })).map (·.replies) = some [0x02] := by decide
theorem test_swapBuffers_waits :
    (next? (exec .swapBuffers base)).map (·.host) = some .inSwapBuffers
      ∧ (next? (hostTurn { base with host := .inSwapBuffers, ready := true })).map (fun t => (t.host, t.ready))
        = some (.ready, false) := by decide
theorem test_initSwapBuffers :
    (next? (exec .initSwapBuffers { base with swapInterval := 5, swapCnt := 3, ready := true })).map
      (fun t => (t.swapInterval, t.swapCnt, t.ready)) = some (1, 1, false) := by decide
theorem test_setSwapInterval :
    (next? (exec (.setSwapInterval 3) base)).map (fun t => (t.swapInterval, t.swapCnt)) = some (3, 1)
      ∧ refused? (exec (.setSwapInterval 0) base) = some .swapIntervalZero := by decide
theorem test_initAudio :
    (next? (exec .initAudio (noteState 8 0 0 10 0))).map (fun t => (t.playing, t.note, t.envA, t.rem))
      = some (false, 0xFF, 64, 8) := by decide
theorem test_setWaveTable :
    (next? (exec (.setWaveTable 2) base)).map (·.wsel) = some 2
      ∧ (next? (exec (.setWaveTable 3) { base with wsel := 1 })).map (·.wsel) = some 1 := by decide
theorem test_loopSong : (next? (exec (.loopSong true) base)).map (·.loop) = some true := by decide
theorem test_isAudioPlaying : (next? (exec .isAudioPlaying { base with playing := true })).map (·.replies) = some [1] := by
  decide
theorem test_waitAudio :
    (next? (exec .waitAudio { base with playing := true })).map (·.host) = some .inWaitAudio
      ∧ (next? (exec .waitAudio base)).map (·.host) = some .ready := by decide
/-- A song record placed by the host's test runs in the very next step. -/
theorem test_fetch_record :
    (next? (step (base.withFetchWord 16 0x0205))).map (fun t => (t.note, t.pdelta, t.rem)) = some (5, 0x0123, 24) := by decide
/-- A command placed by the host's test runs in the very next step. -/
theorem test_fetch_command : (next? (step (base.withFetchWord 16 0x0310))).map (·.color) = some 3 := by decide

/-! ### Witnesses: states and operands that meet the hypotheses of the statements, clause by clause -/

theorem witness_CommandDecodeInvertsEncode : (Instr.playSong 0xFF01).format = .H ∧ (Instr.loopSong true).format = .H := by
  decide
theorem witness_RecordDecodeInvertsEncode :
    (Instr.note 36 47).format = .S ∧ (Instr.note 36 47).wf testCfg = true ∧ (Instr.rest 0).wf testCfg = true
      ∧ (Instr.endMark 0xFF).wf testCfg = true := by decide
theorem witness_CommandLengthFixedByOpcode :
    operandCount 0x04 = none ∧ operandCount 0x15 = some 4 ∧ [0x00#8, 0x00#8, 0x00#8].length < 4
      ∧ ¬[0x00#8, 0x00#8, 0x00#8, 0x00#8].length < 4 := by decide
theorem witness_ReservedOpcodesRefused :
    let s : State := { base with hostIn := [0x04] }
    s.host = .ready ∧ s.hostIn = 0x04 :: [] ∧ operandCount 0x04 = none := by decide
theorem witness_RecordClassFromNoteByte :
    0xFF#8 = testCfg.noteEnd ∧ (0x00#8 ≠ testCfg.noteEnd ∧ 0x00#8 = testCfg.noteRest)
      ∧ (0x24#8 ≠ testCfg.noteEnd ∧ 0x24#8 ≠ testCfg.noteRest ∧ (0x24#8).toNat ≤ 36)
      ∧ (0x25#8 ≠ testCfg.noteEnd ∧ 0x25#8 ≠ testCfg.noteRest ∧ 36 < (0x25#8).toNat) := by decide
theorem witness_StepRunsDecodedCommand :
    let s : State := { base with inputs := [.hostTurn], hostIn := [0x13, 0x02, 0x04] }
    s.inputs = .hostTurn :: [] ∧ s.host = .ready ∧ decodeCommand s.hostIn = .command (.drawPoint 2 4) [] := by decide
theorem witness_LoadNoteRunsDecodedRecord :
    decodeRecord base.cfg (base.songByte base.cursor) (base.songByte (base.cursor + 1)) = some (.rest 0)
      ∧ decodeRecord testCfg ((withSong base [(0, 37)]).songByte 0) 0 = none := by decide
/-- The song memory clause; a HOST turn inside a drawing command and one with a command still incomplete. -/
theorem witness_StepTakesNextInput :
    base.song.wf = true
      ∧ (next? (step { base with host := .drawing (.clear 9) [], inputs := [.hostTurn] })).map (·.host) = some .ready
      ∧ { base with hostIn := [0x13, 0x02] }.host = .ready ∧ decodeCommand [0x13#8, 0x02#8] = .incomplete := by decide
theorem witness_RunOfTickInputsIsTicks : ∃ t, ticks [1, 2] (e2 0) = .next t := eq_next (by decide)
theorem witness_SwapBuffersWaitsForReady :
    { base with ready := true }.ready = true ∧ base.ready = false
      ∧ ({ base with host := .inSwapBuffers }.host = .inSwapBuffers ∧ { base with host := .inSwapBuffers }.ready = false)
      ∧ { base with host := .inSwapBuffers, ready := true }.ready = true := by decide
theorem witness_WaitAudioWaitsForIdle :
    base.playing = false ∧ { base with playing := true, host := .inWaitAudio }.playing = true
      ∧ { base with playing := true, host := .inWaitAudio }.host = .inWaitAudio
      ∧ { base with host := .inWaitAudio }.playing = false := by decide
theorem witness_BlockNeverWritesSongMemory :
    (∃ t, exec (.drawPoint 2 4) base = .next t) ∧ (∃ t, tick 5 (e2 0) = .next t)
      ∧ ∃ t, hostTurn { base with hostIn := [0x12] } = .next t :=
  ⟨eq_next (by decide), eq_next (by decide), eq_next (by decide)⟩

/-- The state a host command leaves. -/
def after (i : Instr) (s : State) : State := (next? (exec i s)).getD s

/-- Each clause of HostCommandsWriteOnlyTheirRegisters is met: some command does write each group of registers. -/
theorem witness_HostCommandsWriteOnlyTheirRegisters :
    (∃ t, exec (.playSong 0x0300) base = .next t) ∧ (after (.playSong 0x0300) base).cursor ≠ base.cursor
      ∧ (after (.playSong 0x0300) base).loopStart ≠ base.loopStart
      ∧ (after (.loopSong true) base).loop ≠ base.loop ∧ (after (.setWaveTable 2) base).wsel ≠ base.wsel
      ∧ (after (.setEnvelope 0 0 63 0) base).envA ≠ base.envA
      ∧ (after .swapBuffers { base with ready := true }).ready ≠ { base with ready := true }.ready
      ∧ (after (.setSwapInterval 3) base).swapInterval ≠ base.swapInterval
      ∧ (after .initSwapBuffers { base with swapCnt := 9 }).swapCnt ≠ { base with swapCnt := 9 }.swapCnt
      ∧ (after (.setColor 3) base).color ≠ base.color
      ∧ (after .clearDisplay { base with fb := Vector.replicate 10 1 }).fb ≠ Vector.replicate 10 1
      ∧ (after (.clearEdges 1) { base with edge := 1 }).edge ≠ { base with edge := 1 }.edge
      ∧ (after .handleButtons { base with level := 1 }).held ≠ { base with level := 1 }.held
      ∧ (after (.clearEvents 1) { base with event := 1 }).event ≠ { base with event := 1 }.event
      ∧ (after .init base).run ≠ base.run :=
  ⟨eq_next (by decide), by decide, by decide, by decide, by decide, by decide, by decide, by decide, by decide, by decide,
    by decide, by decide, by decide, by decide, by decide⟩
theorem witness_TickKeepsHostRegisters : ∃ t, tick 5 { e2 0 with rowdiv := 1 } = .next t := eq_next (by decide)
theorem witness_RepliesAsTheTableSays : (∃ t, exec .readButtons base = .next t) ∧ ∃ t, exec (.rest 3) base = .next t :=
  ⟨eq_next (by decide), eq_next (by decide)⟩
/-- The two cases of a readPixel's reply bytes. -/
theorem witness_RepliesAsTheTableSays_pixel :
    (∃ t, exec (.readPixel 6 4) base = .next t) ∧ ∃ t, exec (.readPixel 7 4) base = .next t :=
  ⟨eq_next (by decide), eq_next (by decide)⟩
theorem witness_RunSetByInitClearedByReset :
    (∃ t, step { base with inputs := [.hostTurn], hostIn := [0x00] } = .next t ∧ base.run = false ∧ t.run = true)
      ∧ ∃ t, step { base with inputs := [.reset], run := true } = .next t ∧ t.run = false :=
  ⟨⟨_, rfl, rfl, rfl⟩, ⟨_, rfl, rfl⟩⟩
theorem witness_ReadySetOnlyAtCycleEnd :
    ∃ t, step { base with inputs := [.tick 0], run := true, rowdiv := 1, rphase := 9 } = .next t ∧ base.ready = false
      ∧ t.ready = true := ⟨_, rfl, rfl, rfl⟩
theorem witness_StepsGoOnOrAreRefused :
    refused? (step { base with inputs := [.hostTurn], hostIn := [0x02, 0x00] }) = some .swapIntervalZero := by decide

/-! Drawing -/

theorem witness_ClearDisplayRowByRow : 0 ≤ 9 ∧ 9 ≤ 9 := by decide
theorem witness_DrawPointWritesGreenThenRed :
    (¬((0 ≤ (7#8).toInt ∧ (7#8).toInt ≤ 6) ∧ (0 ≤ (0#8).toInt ∧ (0#8).toInt ≤ 4)))
      ∧ (¬((0 ≤ (0#8).toInt ∧ (0#8).toInt ≤ 6) ∧ (0 ≤ (5#8).toInt ∧ (5#8).toInt ≤ 4)))
      ∧ ¬((0 ≤ (0xFF#8).toInt ∧ (0xFF#8).toInt ≤ 6) ∧ (0 ≤ (0#8).toInt ∧ (0#8).toInt ≤ 4)) := by decide
/-- A state in which a tick has fallen between the two steps of drawPoint, for the clause about any state. -/
theorem witness_DrawPointWritesGreenThenRed_later :
    { e2 1 with host := .drawing (.plot .red 6 4) [] }.host = .drawing (.plot .red 6 4) [] := by decide
/-- Each clause of DrawingTurnTakesNextRowWrite: each kind of row update, the last one and one with others to come. -/
theorem witness_DrawingTurnTakesNextRowWrite :
    { e2 1 with host := .drawing (.clear 9) [] }.host = .drawing (.clear 9) []
      ∧ { e2 1 with host := .drawing (.plot .green 0 0) [.plot .red 0 0] }.host
        = .drawing (.plot .green 0 0) [.plot .red 0 0]
      ∧ { e2 1 with host := .drawing (.plot .red 6 4) [] }.host = .drawing (.plot .red 6 4) [] := by decide
/-- The clipped reads of ReadPixelReplies: x = 7, and y = 128 read as -128. -/
theorem witness_ReadPixelReplies :
    (¬((0 ≤ (7#8).toInt ∧ (7#8).toInt ≤ 6) ∧ (0 ≤ (4#8).toInt ∧ (4#8).toInt ≤ 4)))
      ∧ ¬((0 ≤ (6#8).toInt ∧ (6#8).toInt ≤ 6) ∧ (0 ≤ (0x80#8).toInt ∧ (0x80#8).toInt ≤ 4)) := by decide
/-- A clipped point, an empty rectangle, and G4's rectangle with its first row update and seven to come. -/
theorem witness_RectangleIsTheLoopOfPoints :
    ¬((0 ≤ (7 : Int) ∧ (7 : Int) ≤ 6) ∧ (0 ≤ (0 : Int) ∧ (0 : Int) ≤ 4))
      ∧ loopWrites (4#8).toInt (0#8).toInt (2#8).toInt (4#8).toInt = []
      ∧ loopWrites (0xFF#8).toInt (3#8).toInt (1#8).toInt (9#8).toInt =
        .plot .green 0 3 :: [.plot .red 0 3, .plot .green 1 3, .plot .red 1 3, .plot .green 0 4, .plot .red 0 4,
          .plot .green 1 4, .plot .red 1 4] := by decide
theorem witness_RectangleColoursExactlyItsPixels : base.host = .ready := by decide

/-! Frame synchronisation and audio control -/

theorem witness_SwapIntervalCommands : (1#8 : Byte) ≠ 0 := by decide
theorem witness_SetWaveTableSelectsOrIgnores : (2#8).toNat = (2 : Fin 3).val ∧ 3 ≤ (3#8).toNat := by decide
theorem witness_SetEnvelopeChecksOperands :
    256 ≤ (128#8).toNat + (63#8).toNat + (65#8).toNat ∧ 64 ≤ (64#8).toNat
      ∧ ((128#8).toNat + (63#8).toNat + (64#8).toNat < 256 ∧ (63#8).toNat < 64 ∧ (63#8).toNat < 64)
      ∧ ((10#8).toNat + (10#8).toNat + (10#8).toNat < 256 ∧ (10#8).toNat < 64 ∧ 64 ≤ (64#8).toNat) := by decide
theorem witness_LoopFlagAndPlayingStatus : { base with playing := true }.playing = true ∧ base.playing = false := by decide

/-! Sequencer -/

theorem witness_RestLoadsDuration :
    (47#8).toNat < 48 ∧ 48 ≤ (48#8).toNat ∧ base.cfg.noteRest.toNat < 37
      ∧ 37 ≤ (State.resetWith restCfg).cfg.noteRest.toNat := by decide
theorem witness_NoteLoadsDeltaAndDuration :
    ((36#8).toNat < 37 ∧ (47#8).toNat < 48) ∧ 37 ≤ (37#8).toNat ∧ 48 ≤ (48#8).toNat := by decide

/-- A song memory with five records: a pitched note at 0x0200, a rest at 0x0300, an end sentinel at 0x0400, a reserved
note byte at 0x0500 and a reserved duration byte at 0x0600. -/
def fiveRecords : State :=
  withSong base [(0x0200, 36), (0x0201, 47), (0x0301, 1), (0x0400, 0xFF), (0x0500, 37), (0x0600, 5), (0x0601, 48)]

theorem witness_PlaySongStartsAtAddress :
    fiveRecords.songByte 0x0400 = testCfg.noteEnd
      ∧ (fiveRecords.songByte 0x0200 ≠ testCfg.noteEnd ∧ (fiveRecords.songByte 0x0200).toNat < 37
        ∧ (fiveRecords.songByte 0x0201).toNat < 48)
      ∧ (fiveRecords.songByte 0x0300 ≠ testCfg.noteEnd ∧ fiveRecords.songByte 0x0300 = testCfg.noteRest
        ∧ (fiveRecords.songByte 0x0301).toNat < 48)
      ∧ (fiveRecords.songByte 0x0500 ≠ testCfg.noteEnd ∧ fiveRecords.songByte 0x0500 ≠ testCfg.noteRest
        ∧ 37 ≤ (fiveRecords.songByte 0x0500).toNat)
      ∧ (fiveRecords.songByte 0x0600 ≠ testCfg.noteEnd ∧ (fiveRecords.songByte 0x0600).toNat < 37
        ∧ 48 ≤ (fiveRecords.songByte 0x0601).toNat) := by decide
/-- A rest whose note byte is outside the table: 37 ≤ NOTE_REST. -/
theorem witness_PlaySongStartsAtAddress_rest :
    let s : State := withSong (State.resetWith restCfg) [(0x0300, 0x40), (0x0301, 1)]
    s.songByte 0x0300 ≠ s.cfg.noteEnd ∧ s.songByte 0x0300 = s.cfg.noteRest ∧ 37 ≤ (s.songByte 0x0300).toNat
      ∧ (s.songByte 0x0301).toNat < 48 := by decide
theorem witness_BreakpointsInOrder :
    (EnvBytes.mk 255 0 63 0).legal = true ∧ (EnvBytes.mk 128 63 0 64).legal = true ∧ 1 ≤ (1#16).toNat := by decide

/-! Buttons -/

theorem witness_HandleButtonsByPriority :
    (∀ j : Fin 4, j < 1 → ¬({ base with level := 0b1010, held := 0b0100 }.held.getLsbD j.val = false
        ∧ { base with level := 0b1010, held := 0b0100 }.level.getLsbD j.val = true))
      ∧ ({ base with level := 0b1010, held := 0b0100 }.held.getLsbD 1 = false
        ∧ { base with level := 0b1010, held := 0b0100 }.level.getLsbD 1 = true)
      ∧ ∀ i : Fin 4, ¬(base.held.getLsbD i.val = false ∧ base.level.getLsbD i.val = true) := by decide

/-! Tick scheduler and multiplexer -/

theorem witness_TicksBeforeInitAndWhileIdle :
    base.run = false ∧ { base with run := true }.run = true ∧ { base with run := true }.playing = false := by decide
theorem witness_EveryTwentiethTickDrivesNextPhase :
    base.rowdiv.toNat ≠ 1 ∧ { base with rowdiv := 1 }.rowdiv.toNat = 1 ∧ { base with rowdiv := 1 }.rphase.val ≠ 9 := by
  decide
theorem witness_CycleEndCountsAndSignals :
    { base with rowdiv := 1, rphase := 9 }.rowdiv.toNat = 1 ∧ { base with rowdiv := 1, rphase := 9 }.rphase.val = 9
      ∧ base.swapCnt.toNat = 1 ∧ { base with swapCnt := 2 }.swapCnt.toNat ≠ 1 := by decide
theorem witness_MuxStepPortOrder :
    (9 : Fin 10).val = ((0 : Fin 10).val + 9) % 10 ∧ (8 : Fin 10).val = ((9 : Fin 10).val + 9) % 10 := by decide
/-- The start of a cycle, and runs of 200 and of 199 ticks from it that go on. -/
theorem witness_TwoHundredTicksMakeOneCycle :
    { base with run := true }.run = true ∧ base.rowdiv = 20 ∧ base.rphase = 0 ∧ base.swapCnt = 1
      ∧ (List.replicate 200 (5 : Mask)).length = 200 ∧ (List.replicate 199 (5 : Mask)).length < 200 :=
  ⟨rfl, rfl, rfl, rfl, List.length_replicate, by rw [List.length_replicate]; decide⟩
theorem witness_TwoHundredTicksMakeOneCycle_runs :
    ∃ t, ticks (List.replicate 200 (5 : Mask)) { base with run := true } = .next t := ticks_of_idle _ rfl
theorem witness_TwoHundredTicksMakeOneCycle_shorter :
    ∃ t, ticks (List.replicate 199 (5 : Mask)) { base with run := true } = .next t := ticks_of_idle _ rfl

/-! Audio arithmetic -/

theorem witness_PhaseAdvanceWrapsInTable : (intPart 0x1FFF).toNat ≤ 31 ∧ fracPart 0x0100 = 0 := by decide
theorem witness_InterpolationRoundsBetweenSamples : (0#8).toNat ≤ 49 ∧ (49#8).toNat ≤ 49 := by decide
theorem witness_LevelStaysBelowTop : 49 ≤ 49 ∧ 64 ≤ 64 := by decide
theorem witness_SynthesisTickIsPipelined :
    (e2 22).run = true ∧ (e2 22).playing = true ∧ (e2 22).note ≠ (e2 22).cfg.noteEnd ∧ 2 ≤ (e2 22).rem.toNat
      ∧ (e2 22).note ≠ (e2 22).cfg.noteRest := by decide
/-- The rest clause of Synthesised. -/
theorem witness_SynthesisTickIsPipelined_rest :
    { e2 0 with note := 0 }.note ≠ (e2 0).cfg.noteEnd ∧ { e2 0 with note := 0 }.note = (e2 0).cfg.noteRest := by decide
theorem witness_TickLoadsNextRecord :
    (e2 23).run = true ∧ (e2 23).playing = true ∧ (e2 23).note ≠ (e2 23).cfg.noteEnd ∧ (e2 23).rem = 1 := by decide
theorem witness_EndOfSongRestartsOrStops :
    let s : State := { e2 0 with note := 0xFF, loop := true, loopStart := 0x0300 }
    s.run = true ∧ s.playing = true ∧ s.note = s.cfg.noteEnd ∧ s.loop = true ∧ s.loopStart ≠ 0 ∧ (e2 0).loop = false := by
  decide

/-! Envelope -/

/-- One tick of each segment of E2, and the note's first and last tick. -/
theorem witness_EnvelopeFollowsFourSegments :
    let s : State := { base with rem := 24 }
    (EnvBytes.mk s.envA s.envD s.envS s.envR).legal = true
      ∧ (0 < s.rem.toNat ∧ s.setBreakpoints.decStart.toNat < s.rem.toNat - 0)
      ∧ (6 < s.rem.toNat ∧ s.setBreakpoints.susStart.toNat < s.rem.toNat - 6 ∧ s.rem.toNat - 6 ≤ s.setBreakpoints.decStart.toNat)
      ∧ (9 < s.rem.toNat ∧ s.setBreakpoints.relStart.toNat < s.rem.toNat - 9 ∧ s.rem.toNat - 9 ≤ s.setBreakpoints.susStart.toNat)
      ∧ (23 < s.rem.toNat ∧ s.rem.toNat - 23 ≤ s.setBreakpoints.relStart.toNat) := by decide

/-- E2 before each of its ticks is in the invariant. -/
theorem inv_e2 (k : Fin 24) : Inv (e2 k.val) where
  phaseIndex := by revert k; decide
  rowdivRange := by revert k; decide
  swScanLow := by revert k; decide
  oneColumn := by revert k; decide
  rowBit7 := by revert k; decide
  remInNote := by revert k; decide
  envRange := by revert k; decide
  levelRange := by revert k; decide
  idleSilent := by revert k; decide
  deltaRange := by revert k; decide
  slopeRange := by revert k; decide
  sustainRange := by revert k; decide
  controlsLegal := by revert k; decide
  intervalLegal := by revert k; decide
  swapCntPositive := by revert k; decide
  ordered := fun _ _ =>
    { attackFirst := by revert k; decide
      decayNext := by revert k; decide
      sustainTick := by revert k; decide
      remPositive := by revert k; decide
      remInNote := by revert k; decide }
  onTrack := fun _ _ =>
    { attack := by revert k; decide
      decay := by revert k; decide
      sustain := by revert k; decide
      release := by revert k; decide }
  songCanonical := by revert k; decide

theorem witness_EnvelopeIsMonotone :
    (Inv (e2 1) ∧ (e2 1).playing = true ∧ (e2 1).note ≠ (e2 1).cfg.noteEnd
        ∧ (e2 1).decStart.toNat < (e2 1).rem.toNat ∧ (e2 1).rem.toNat < (e2 1).atkStart.toNat)
      ∧ (Inv (e2 8) ∧ (e2 8).susStart.toNat < (e2 8).rem.toNat ∧ (e2 8).rem.toNat < (e2 8).decStart.toNat)
      ∧ (Inv (e2 9) ∧ (e2 9).relStart.toNat < (e2 9).rem.toNat ∧ (e2 9).rem.toNat ≤ (e2 9).susStart.toNat)
      ∧ (Inv (e2 18) ∧ (e2 18).rem.toNat ≤ (e2 18).relStart.toNat) :=
  ⟨⟨inv_e2 1, by decide⟩, ⟨inv_e2 8, by decide⟩, ⟨inv_e2 9, by decide⟩, ⟨inv_e2 18, by decide⟩⟩

/-! Songs -/

/-- P1's song. -/
def p1Song : State := { withSong base [(0x0200, 5), (0x0202, 0xFF)] with run := true }

theorem witness_SingleNoteSongLastsItsDuration :
    p1Song.run = true ∧ p1Song.loop = false ∧ (0x0200#16 : Word) ≠ 0 ∧ p1Song.songByte 0x0200 ≠ p1Song.cfg.noteEnd
      ∧ (p1Song.songByte 0x0200).toNat < 37
      ∧ p1Song.songByte 0x0202 = p1Song.cfg.noteEnd ∧ (p1Song.songByte 0x0201).toNat < 48
      ∧ [(0 : Mask)].length ≤ 8 ∧ (List.replicate 8 (0 : Mask)).length ≤ 8 ∧ (List.replicate 9 (0 : Mask)).length = 8 + 1 := by
  decide

/-- One rest outside the note table, under a configuration with `CFG.NOTE_REST = 0x40`. -/
theorem witness_SingleNoteSongLastsItsDuration_rest :
    let s : State :=
      { withSong (State.resetWith restCfg) [(0x0200, 0x40), (0x0202, 0xFF)] with run := true }
    s.run = true ∧ s.loop = false ∧ s.songByte 0x0200 ≠ s.cfg.noteEnd ∧ s.songByte 0x0200 = s.cfg.noteRest
      ∧ s.songByte 0x0202 = s.cfg.noteEnd ∧ (s.songByte 0x0201).toNat < 48 := by decide

/-- P4's song, looping. -/
def p4Song : State :=
  { withSong base [(0x0300, 1), (0x0303, 1), (0x0304, 0xFF)] with run := true, loop := true }

theorem witness_LoopedSongRepeatsWithoutDrift :
    p4Song.run = true ∧ p4Song.loop = true ∧ (0x0300#16 : Word) ≠ 0 ∧ p4Song.songByte 0x0300 ≠ p4Song.cfg.noteEnd
      ∧ (p4Song.songByte 0x0300).toNat < 37 ∧ p4Song.songByte 0x0302 ≠ p4Song.cfg.noteEnd
      ∧ (p4Song.songByte 0x0302).toNat < 37 ∧ p4Song.songByte 0x0304 = p4Song.cfg.noteEnd
      ∧ (p4Song.songByte 0x0301).toNat < 48 ∧ (p4Song.songByte 0x0303).toNat < 48
      ∧ (List.replicate 25 (0 : Mask)).length = 8 + 16 + 1 := by decide

/-- A first record that is a rest outside the note table, with a pitched note or another such rest after it. -/
theorem witness_LoopedSongRepeatsWithoutDrift_rest :
    let s (n2 : Byte) : State :=
      { withSong (State.resetWith restCfg) [(0x0300, 0x40), (0x0302, n2), (0x0304, 0xFF)] with run := true, loop := true }
    (∀ n2 ∈ [1#8, 0x40#8], (s n2).run = true ∧ (s n2).loop = true ∧ (s n2).songByte 0x0300 ≠ (s n2).cfg.noteEnd
        ∧ (s n2).songByte 0x0300 = (s n2).cfg.noteRest ∧ 37 ≤ ((s n2).songByte 0x0300).toNat
        ∧ (s n2).songByte 0x0302 ≠ (s n2).cfg.noteEnd ∧ (s n2).songByte 0x0304 = (s n2).cfg.noteEnd
        ∧ ((s n2).songByte 0x0301).toNat < 48 ∧ ((s n2).songByte 0x0303).toNat < 48)
      ∧ ((s 1).songByte 0x0302).toNat < 37 ∧ (s 0x40).songByte 0x0302 = (s 0x40).cfg.noteRest
      ∧ 37 ≤ ((s 0x40).songByte 0x0302).toNat := by decide

/-! Invariants -/

theorem witness_EveryStepKeepsInvariant :
    Inv { e2 23 with inputs := [.tick 5] } ∧ ∃ t, step { e2 23 with inputs := [.tick 5] } = .next t :=
  ⟨(inv_e2 23).withInputs _, eq_next (by decide)⟩

end Sys2Proof.Tests
end

section
/-! Which fields an instruction or an input may write, said once (spec/10_state.md R20, R65, R67), and the statements
about writers and about single flags. -/

namespace Sys2Proof.Machine

/-! ### The writers of R20, read by instruction -/

/-- s with every field that instruction i may write taken from t: the writer column of R20 read by command, with the
writes R310 and R372 add (assumption log 9) and the fields that are the model's own. -/
def State.withWrites (i : Instr) (s t : State) : State :=
  match i with
  | .init => { s with
      rowOut := t.rowOut, colEn := t.colEn, swScan := t.swScan, rowdiv := t.rowdiv, rphase := t.rphase
      swapInterval := t.swapInterval, swapCnt := t.swapCnt, ready := t.ready, fb := t.fb, run := t.run
      playing := t.playing, pwmEn := t.pwmEn, loop := t.loop, wsel := t.wsel, envA := t.envA, envD := t.envD
      envS := t.envS, envR := t.envR, loopStart := t.loopStart, note := t.note, trace := t.trace }
  | .initSwapBuffers => { s with swapInterval := t.swapInterval, swapCnt := t.swapCnt, ready := t.ready }
  | .setSwapInterval _ => { s with swapInterval := t.swapInterval }
  | .swapBuffers => { s with ready := t.ready, host := t.host }
  | .setColor _ => { s with color := t.color }
  | .clearDisplay | .drawPoint _ _ | .drawFilledRect _ _ _ _ => { s with fb := t.fb, host := t.host }
  | .readPixel _ _ => { s with replies := t.replies, draws := t.draws }
  | .getColor | .isAudioPlaying | .readButtons => { s with replies := t.replies }
  | .initAudio => { s with
      playing := t.playing, pwmEn := t.pwmEn, loop := t.loop, wsel := t.wsel, envA := t.envA, envD := t.envD
      envS := t.envS, envR := t.envR, loopStart := t.loopStart, note := t.note, trace := t.trace }
  | .setWaveTable _ => { s with wsel := t.wsel }
  | .setEnvelope _ _ _ _ => { s with envA := t.envA, envD := t.envD, envS := t.envS, envR := t.envR }
  | .playSong _ => { s with
      note := t.note, cursor := t.cursor, pdelta := t.pdelta, rem := t.rem, atkStart := t.atkStart
      decStart := t.decStart, susStart := t.susStart, relStart := t.relStart, sAct := t.sAct, trace := t.trace
      playing := t.playing, pwmEn := t.pwmEn, loopStart := t.loopStart, phase := t.phase, pwmNext := t.pwmNext }
  | .loopSong _ => { s with loop := t.loop }
  | .waitAudio => { s with host := t.host }
  | .handleButtons => { s with held := t.held, event := t.event }
  | .clearEvents _ => { s with event := t.event }
  | .clearEdges _ => { s with edge := t.edge }
  | .endMark _ => { s with note := t.note, cursor := t.cursor }
  | .rest _ | .note _ _ => { s with
      note := t.note, cursor := t.cursor, pdelta := t.pdelta, rem := t.rem, atkStart := t.atkStart
      decStart := t.decStart, susStart := t.susStart, relStart := t.relStart, sAct := t.sAct }

/-- init() in one piece (R372). -/
theorem exec_init (s : State) : exec .init s = .next { s with
    rowOut := 0x00, colEn := 0, swScan := false, rowdiv := 20, rphase := 0, ready := false, run := true
    swapInterval := s.cfg.swapIntervalReset, swapCnt := s.cfg.swapIntervalReset, fb := Vector.replicate 10 0x00
    playing := false, pwmEn := false, loop := false, loopStart := 0x0000, note := s.cfg.noteEnd
    wsel := s.cfg.wselReset, envA := s.cfg.envReset.a, envD := s.cfg.envReset.d, envS := s.cfg.envReset.s
    envR := s.cfg.envReset.r
    trace := s.trace ++ [.rowOut 0x00, .columnsOff, .swScan false, .pwmEnable false] } := by
  simp [exec, execInit, State.setRowBits, State.columnsOff, State.setSwScan, State.swapDefaults, State.clearReady,
    State.clearFramebuffer, State.startTicks, State.audioDefaults, State.stopPlayback, State.disablePwm]

/-- A duration writes REM, the breakpoints and S_ACT alone (R220). -/
theorem State.loadDuration_frame {s t : State} {d : Byte} (h : s.loadDuration d = .next t) :
    t = { s with
      rem := t.rem, atkStart := t.atkStart, decStart := t.decStart, susStart := t.susStart, relStart := t.relStart
      sAct := t.sAct } := by
  obtain ⟨v, -, rfl⟩ := State.loadDuration_eq_next.mp h
  rfl

/-- An instruction that goes on writes nothing but the fields the table gives it. -/
theorem exec_frame {i : Instr} {s t : State} (h : exec i s = .next t) : t = s.withWrites i t := by
  cases i with
  | init =>
    rw [exec_init] at h
    cases h; rfl
  | initSwapBuffers | setColor | getColor | initAudio | loopSong | isAudioPlaying | readButtons | clearEvents
  | clearEdges | endMark => cases h; rfl
  | clearDisplay | drawPoint | drawFilledRect =>
    cases h
    exact State.beginDrawing_frame s _
  | setSwapInterval n =>
    simp only [exec, execSetSwapInterval] at h
    split at h <;> cases h; rfl
  | swapBuffers =>
    simp only [exec, execSwapBuffers] at h
    split at h <;> cases h <;> rfl
  | readPixel x y =>
    simp only [exec, execReadPixel] at h
    split at h <;> cases h <;> rfl
  | setWaveTable id =>
    simp only [exec, execSetWaveTable] at h
    split at h <;> cases h <;> rfl
  | setEnvelope a d sus r =>
    simp only [exec, execSetEnvelope] at h
    split at h
    · cases h; rfl
    · split at h <;> cases h; rfl
  | playSong seq =>
    simp only [exec, execPlaySong] at h
    split at h
    · cases h; rfl
    · exact startSong_frame h
  | waitAudio =>
    simp only [exec, execWaitAudio] at h
    split at h <;> cases h <;> rfl
  | handleButtons =>
    simp only [exec, execHandleButtons] at h
    split at h <;> cases h <;> rfl
  | rest d =>
    simp only [exec, execRest] at h
    split at h <;> (rw [State.loadDuration_frame h]; rfl)
  | note n d =>
    simp only [exec, execNote] at h
    split at h
    · rw [State.loadDuration_frame h]; rfl
    · cases h

/-- A tick writes neither the HOST agent's registers nor the stores of R65. -/
theorem tick_frame {s t : State} {sw : Mask} (h : tick sw s = .next t) :
    t = { s with
      phase := t.phase, pdelta := t.pdelta, pwmNext := t.pwmNext, pwmLevel := t.pwmLevel, env := t.env
      envDelta := t.envDelta, atkStart := t.atkStart, decStart := t.decStart, susStart := t.susStart
      relStart := t.relStart, sAct := t.sAct, rem := t.rem, note := t.note, cursor := t.cursor
      loopStart := t.loopStart, playing := t.playing, ready := t.ready, pwmEn := t.pwmEn, rowdiv := t.rowdiv
      rphase := t.rphase, swapCnt := t.swapCnt, level := t.level, edge := t.edge, rowOut := t.rowOut
      colEn := t.colEn, swScan := t.swScan, trace := t.trace } := by
  obtain ⟨-, rfl⟩ | ⟨-, u, hu, rfl⟩ := tick_cases h
  · rfl
  · rw [State.rowStep_frame, audioStep_frame hu]

/-- MUX_STEP writes the output ports and the button masks alone (R250, R270). -/
theorem State.muxStep_frame (s : State) (sw : Mask) (p : Fin 10) :
    s.muxStep sw p = { s with
      rowOut := (s.muxStep sw p).rowOut, colEn := (s.muxStep sw p).colEn, level := (s.muxStep sw p).level
      edge := (s.muxStep sw p).edge, swScan := (s.muxStep sw p).swScan, trace := (s.muxStep sw p).trace } := by
  by_cases hp : p = 0
  · rw [hp, State.muxStep_zero]
  · rw [State.muxStep_of_ne_zero s sw hp]

/-- A row update of a drawing command writes the framebuffer and the HOST agent's place alone (R90 c). -/
theorem State.continueDrawing_frame (s : State) (w : RowWrite) (ws : List RowWrite) :
    s.continueDrawing w ws =
      { s with fb := (s.continueDrawing w ws).fb, host := (s.continueDrawing w ws).host } := by
  cases w <;> rfl

/-! ### Song memory and the tables (R65, R73, R76) -/

theorem exec_stores {i : Instr} {s t : State} (h : exec i s = .next t) : t.song = s.song ∧ t.cfg = s.cfg := by
  rw [exec_frame h]
  cases i <;> exact ⟨rfl, rfl⟩

theorem tick_stores {s t : State} {sw : Mask} (h : tick sw s = .next t) : t.song = s.song ∧ t.cfg = s.cfg := by
  rw [tick_frame h]
  exact ⟨rfl, rfl⟩

theorem hostTurn_stores {s t : State} (h : hostTurn s = .next t) : t.song = s.song ∧ t.cfg = s.cfg := by
  obtain ⟨w, ws, -, rfl⟩ | rfl | ⟨i, u, -, hx, hu, -⟩ := hostTurn_cases h
  · rw [State.continueDrawing_frame]
    exact ⟨rfl, rfl⟩
  · exact ⟨rfl, rfl⟩
  · have hs := exec_stores hx
    rw [hu] at hs
    exact hs

/-! ### The flags RUN and READY (R44, R46) -/

theorem exec_run_of_ne_init {i : Instr} {s t : State} (hi : i ≠ .init) (h : exec i s = .next t) : t.run = s.run := by
  rw [exec_frame h]
  cases i with
  | init => exact absurd rfl hi
  | _ => rfl

theorem exec_init_run {s t : State} (h : exec .init s = .next t) : t.run = true := by
  rw [exec_init] at h
  cases h; rfl

theorem tick_run {s t : State} {sw : Mask} (h : tick sw s = .next t) : t.run = s.run := by
  rw [tick_frame h]

/-- A turn of the HOST agent keeps RUN, or runs the init it has read from the port, after which RUN is 1. -/
theorem hostTurn_run {s t : State} (h : hostTurn s = .next t) :
    t.run = s.run ∨ (t.run = true ∧ s.host = .ready ∧ ∃ bs, decodeCommand s.hostIn = .command .init bs) := by
  obtain ⟨w, ws, -, rfl⟩ | rfl | ⟨i, u, -, hx, hu, hi⟩ := hostTurn_cases h
  · rw [State.continueDrawing_frame]
    exact .inl rfl
  · exact .inl rfl
  · by_cases hinit : i = .init
    · subst hinit
      obtain ⟨-, hne⟩ | ⟨-, hne⟩ | ⟨hready, hd⟩ := hi
      · cases hne
      · cases hne
      · exact .inr ⟨exec_init_run hx, hready, _, hd⟩
    · left
      rw [exec_run_of_ne_init hinit hx, hu]

/-- No instruction sets READY. -/
theorem exec_ready {i : Instr} {s t : State} (h : exec i s = .next t) : t.ready = s.ready ∨ t.ready = false := by
  cases i with
  | init =>
    rw [exec_init] at h
    cases h; exact .inr rfl
  | initSwapBuffers => cases h; exact .inr rfl
  | swapBuffers =>
    simp only [exec, execSwapBuffers] at h
    split at h <;> cases h
    · exact .inr rfl
    · exact .inl rfl
  | _ => rw [exec_frame h]; exact .inl rfl

theorem hostTurn_ready {s t : State} (h : hostTurn s = .next t) : t.ready = s.ready ∨ t.ready = false := by
  obtain ⟨w, ws, -, rfl⟩ | rfl | ⟨i, u, -, hx, hu, -⟩ := hostTurn_cases h
  · rw [State.continueDrawing_frame]
    exact .inl rfl
  · exact .inl rfl
  · have hr := exec_ready hx
    rw [hu] at hr
    exact hr

/-- The end of a cycle changes READY only when it counts SWAP_CNT down to 0 (R144). -/
theorem State.cycleDone_ready {s : State} (h : s.swapCnt - 1 ≠ 0) : s.cycleDone.ready = s.ready := by
  unfold State.cycleDone
  rw [if_neg (by exact h)]
  rfl

/-- The row counter sets READY only at the end of a cycle with SWAP_CNT at 1 (R143, R144, R306). -/
theorem State.rowStep_sets_ready {s : State} {sw : Mask} (h0 : s.ready = false) (h1 : (s.rowStep sw).ready = true) :
    s.rowdiv = 1 ∧ s.rphase = 9 ∧ s.swapCnt = 1 := by
  by_contra hn
  have keep : (s.rowStep sw).ready = s.ready := by
    by_cases hd : s.rowdiv - 1 = 0
    · rw [State.rowStep_of_eq s sw hd, State.muxStep_frame]
      split
      · rename_i h9
        have hc : s.swapCnt - 1 ≠ 0 := fun hc => hn ⟨sub_eq_zero.mp hd, h9, sub_eq_zero.mp hc⟩
        exact State.cycleDone_ready hc
      · rfl
    · rw [State.rowStep_of_ne s sw hd]
      rfl
  rw [keep, h0] at h1
  cases h1

/-- A tick sets READY only while RUN = 1, in its row counter. -/
theorem tick_sets_ready {s t : State} {sw : Mask} (h : tick sw s = .next t) (h0 : s.ready = false)
    (h1 : t.ready = true) : s.run = true ∧ s.rowdiv = 1 ∧ s.rphase = 9 ∧ s.swapCnt = 1 := by
  obtain ⟨-, rfl⟩ | ⟨hrun, u, hu, rfl⟩ := tick_cases h
  · rw [h0] at h1
    cases h1
  · have hu := audioStep_frame hu
    have hrow := State.rowStep_sets_ready (by rw [hu]; exact h0) h1
    rw [hu] at hrow
    exact ⟨hrun, hrow⟩

/-- A step keeps RUN, or sets it by the init of a HOST turn, or clears it by the reset event. -/
theorem step_run {s t : State} (h : step s = .next t) :
    t.run = s.run
    ∨ (t.run = true ∧ ∃ is bs, s.inputs = .hostTurn :: is ∧ s.host = .ready
        ∧ decodeCommand s.hostIn = .command .init bs)
    ∨ (t.run = false ∧ ∃ is, s.inputs = .reset :: is) := by
  obtain ⟨-, rfl⟩ | ⟨sw, is, -, ht⟩ | ⟨is, hin, hh⟩ | ⟨b, is, -, rfl⟩ | ⟨a, b, is, -, rfl⟩ | ⟨is, hin, rfl⟩ :=
    step_cases h
  · exact .inl rfl
  · have hkeep := tick_run ht
    exact .inl hkeep
  · obtain hkeep | ⟨hrun, hready, bs, hd⟩ := hostTurn_run hh
    · exact .inl hkeep
    · exact .inr (.inl ⟨hrun, is, bs, hin, hready, hd⟩)
  · exact .inl rfl
  · exact .inl rfl
  · exact .inr (.inr ⟨rfl, is, hin⟩)

/-- A step that is no tick keeps READY or clears it. -/
theorem step_ready {s t : State} (h : step s = .next t) :
    (∃ sw is, s.inputs = .tick sw :: is ∧ tick sw { s with inputs := is } = .next t)
    ∨ t.ready = s.ready ∨ t.ready = false := by
  obtain ⟨-, rfl⟩ | htick | ⟨is, -, hh⟩ | ⟨b, is, -, rfl⟩ | ⟨a, b, is, -, rfl⟩ | ⟨is, -, rfl⟩ := step_cases h
  · exact .inr (.inl rfl)
  · exact .inl htick
  · have hr := hostTurn_ready hh
    exact .inr hr
  · exact .inr (.inl rfl)
  · exact .inr (.inl rfl)
  · exact .inr (.inr rfl)

end Sys2Proof.Machine

open Sys2Proof Sys2Proof.Machine

/-- Settles O13: neither the frame of an instruction nor that of a tick or of a HOST turn holds a store of R65. -/
theorem blockNeverWritesSongMemory : Obligations.BlockNeverWritesSongMemory := by
  intro s t h
  have stores : t.song = s.song ∧ t.cfg = s.cfg := by
    obtain ⟨i, hx⟩ | ⟨sw, ht⟩ | hh := h
    · exact exec_stores hx
    · exact tick_stores ht
    · exact hostTurn_stores hh
  exact ⟨fun a => by rw [State.songByte, State.songByte, stores.1], stores.2⟩

/-- Settles O14: the table of writers, instruction by instruction. -/
theorem hostCommandsWriteOnlyTheirRegisters : Obligations.HostCommandsWriteOnlyTheirRegisters := by
  intro i s t hi h
  rw [exec_frame h]
  cases i with
  | endMark | rest | note => cases hi
  | _ => simp [State.withWrites]

/-- Settles O15. -/
theorem tickKeepsHostRegisters : Obligations.TickKeepsHostRegisters := fun _ _ _ h => tick_frame h

/-- Settles O17, by the cases of a step: only init sets RUN, and only reset clears it. -/
theorem runSetByInitClearedByReset : Obligations.RunSetByInitClearedByReset := by
  intro s t h
  obtain hkeep | ⟨hrun, is, bs, hset⟩ | ⟨hrun, is, hin⟩ := step_run h
  · rw [hkeep]
    exact ⟨fun h0 h1 => absurd h1 (by rw [h0]; decide), fun h1 h0 => absurd h1 (by rw [h0]; decide)⟩
  · exact ⟨fun _ _ => ⟨is, bs, hset⟩, fun _ h0 => absurd hrun (by rw [h0]; decide)⟩
  · exact ⟨fun _ h1 => absurd hrun (by rw [h1]; decide), fun _ _ => ⟨is, hin⟩⟩

/-- Settles O18, by the cases of a step: only the row counter of a tick sets READY. -/
theorem readySetOnlyAtCycleEnd : Obligations.ReadySetOnlyAtCycleEnd := by
  intro s t h h0 h1
  obtain ⟨sw, is, hin, ht⟩ | hkeep | hclear := step_ready h
  · obtain ⟨hrun, hdiv, hphase, hcnt⟩ := tick_sets_ready ht h0 h1
    exact ⟨sw, is, hin, hrun, hdiv, hphase, hcnt⟩
  · rw [hkeep, h0] at h1
    cases h1
  · rw [hclear] at h1
    cases h1

/-- Settles O20. -/
theorem resetLeavesTableValues : Obligations.ResetLeavesTableValues := by
  intro c
  simp [State.resetWith, State.readRow]

end

section
/-! The inductive invariant (spec/10_state.md R69): its parts, the arithmetic they rest on, what each operation does to
each part, and that every step keeps the whole. -/

namespace Sys2Proof.Machine

/-! ### The parts of the invariant

Each part reads the registers of one unit, so an operation that does not write them keeps it by its frame. -/

/-- The clauses about the audio datapath that hold whether or not a note sounds (R69 a, h, i, k; R22, R26, R28). -/
structure DatapathInv (s : State) : Prop where
  phaseIndex   : (intPart s.phase).toNat ≤ 31
  envRange     : s.env.toNat ≤ 0x4000
  levelRange   : s.pwmNext.toNat ≤ 49 ∧ s.pwmLevel.toNat ≤ 49
  idleSilent   : s.playing = false → s.pwmEn = false
  deltaRange   : 0x0100 ≤ s.pdelta.toNat ∧ s.pdelta.toNat ≤ 0x01FF
  slopeRange   : s.envDelta.toNat ≤ 0x4000
  sustainRange : s.sAct.toNat < 64

/-- The breakpoints' order and the envelope's place in its segment (R27, R192, R194 to R197). -/
def NoteInProgress (s : State) : Prop := BreakpointsOrdered s ∧ EnvelopeOnTrack s

/-- The clauses about the audio registers. -/
structure AudioInv (s : State) : Prop extends DatapathInv s where
  sounding : s.playing = true → s.note ≠ s.cfg.noteEnd → NoteInProgress s

/-- The envelope control bytes are legal (R50). -/
def ControlsLegal (s : State) : Prop := (EnvBytes.mk s.envA s.envD s.envS s.envR).legal = true

/-- The clauses about the tick scheduler, the columns and the swap state (R69 b, d, e; R52, R56). -/
def ScanInv (s : State) : Prop :=
  (1 ≤ s.rowdiv.toNat ∧ s.rowdiv.toNat ≤ 20) ∧ s.swScan = false
    ∧ (s.colEn = 0 ∨ s.colEn = columnBit (s.rphase + 9)) ∧ 1 ≤ s.swapInterval.toNat ∧ 1 ≤ s.swapCnt.toNat

/-- Bit 7 of every framebuffer row is 0 (R69 f). -/
def RowsBit7Clear (s : State) : Prop := ∀ i : Fin 10, (s.readRow i).getLsbD 7 = false

/-- The invariant is the conjunction of its parts; clause (g) of R69 is part of the breakpoints' order. -/
theorem inv_iff {s : State} :
    Inv s ↔ AudioInv s ∧ ControlsLegal s ∧ ScanInv s ∧ RowsBit7Clear s ∧ s.song.wf = true := by
  constructor
  · intro h
    exact ⟨{ h with sounding := fun hp hn => ⟨h.ordered hp hn, h.onTrack hp hn⟩ }, h.controlsLegal,
      ⟨h.rowdivRange, h.swScanLow, h.oneColumn, h.intervalLegal, h.swapCntPositive⟩, h.rowBit7, h.songCanonical⟩
  · rintro ⟨haudio, hcontrols, ⟨hdiv, hscan, hcol, hint, hcnt⟩, hrows, hsong⟩
    exact { haudio with
      rowdivRange := hdiv, swScanLow := hscan, oneColumn := hcol, rowBit7 := hrows, intervalLegal := hint
      swapCntPositive := hcnt, controlsLegal := hcontrols, songCanonical := hsong
      remInNote := fun hp hn => have o := (haudio.sounding hp hn).1; ⟨o.remPositive, o.remInNote⟩
      ordered := fun hp hn => (haudio.sounding hp hn).1
      onTrack := fun hp hn => (haudio.sounding hp hn).2 }

/-- The registers that AudioInv reads, every other field at its reset value. -/
def State.audioPart (s : State) : State :=
  { State.resetWith s.cfg with
    phase := s.phase, pdelta := s.pdelta, pwmNext := s.pwmNext, pwmLevel := s.pwmLevel, env := s.env
    envDelta := s.envDelta, atkStart := s.atkStart, decStart := s.decStart, susStart := s.susStart
    relStart := s.relStart, sAct := s.sAct, rem := s.rem, note := s.note, playing := s.playing, pwmEn := s.pwmEn }

theorem noteInProgress_audioPart {s : State} : NoteInProgress s.audioPart ↔ NoteInProgress s :=
  ⟨fun ⟨o, k⟩ => ⟨⟨o.1, o.2, o.3, o.4, o.5⟩, ⟨k.1, k.2, k.3, k.4⟩⟩,
   fun ⟨o, k⟩ => ⟨⟨o.1, o.2, o.3, o.4, o.5⟩, ⟨k.1, k.2, k.3, k.4⟩⟩⟩

theorem audioInv_audioPart {s : State} : AudioInv s.audioPart ↔ AudioInv s :=
  ⟨fun h => { h with sounding := fun hp hn => noteInProgress_audioPart.mp (h.sounding hp hn) },
   fun h => { h with sounding := fun hp hn => noteInProgress_audioPart.mpr (h.sounding hp hn) }⟩

/-- An operation that writes no audio register keeps the clauses about them. -/
theorem AudioInv.congr {s t : State} (h : AudioInv s) (e : t.audioPart = s.audioPart) : AudioInv t :=
  audioInv_audioPart.mp (e ▸ audioInv_audioPart.mpr h)

/-! ### Arithmetic -/

theorem intPart_phaseAdvance_le (p d : Fixed) : (intPart (phaseAdvance p d)).toNat ≤ 31 := by
  have h : intPart (phaseAdvance p d) = BitVec.ofNat 8 (((intPart p).toNat + (intPart d).toNat
      + if 256 ≤ (fracPart p).toNat + (fracPart d).toNat then 1 else 0) % 32) := by
    exact BitVec.extractLsb'_append_eq_left
  rw [h, BitVec.toNat_ofNat]
  omega

/-- A sample interpolated between two samples of at most 49 is at most 49 (R168 to R170). -/
theorem interpolate_le {s0 s1 : Byte} (h0 : s0.toNat ≤ 49) (h1 : s1.toNat ≤ 49) (f : Byte) :
    interpolate s0 s1 f ≤ 49 := by
  have hexact : interpExact s0 s1 f ≤ 49 * 256 := by
    have hf : (f.toNat : Int) ≤ 256 := by have := f.isLt; omega
    have h0' : (s0.toNat : Int) ≤ 49 := by omega
    have h1' : (s1.toNat : Int) ≤ 49 := by omega
    unfold interpExact
    nlinarith
  unfold interpolate
  dsimp only
  split <;> split <;> omega

theorem round8_8_le {x : Fixed} (h : x.toNat ≤ 0x4000) : round8_8 x ≤ 64 := by
  have hi : (intPart x).toNat = x.toNat / 256 := by simp [intPart, Nat.shiftRight_eq_div_pow]; omega
  have hf : (fracPart x).toNat = x.toNat % 256 := by simp [fracPart]
  unfold round8_8
  rw [hi, hf]
  split <;> omega

/-- A level of a sample at most 49 under an envelope of at most 64 is at most 49 (R171, R172). -/
theorem levelProduct_le {v e : Nat} (hv : v ≤ 49) (he : e ≤ 64) : (levelProduct v e).toNat ≤ 49 := by
  have hm : v * e ≤ 49 * 64 := Nat.mul_le_mul hv he
  rw [levelProduct, BitVec.toNat_ofNat]
  omega

theorem controlsLegal_iff {s : State} :
    ControlsLegal s ↔
      s.envA.toNat + s.envD.toNat + s.envR.toNat < 256 ∧ s.envD.toNat < 64 ∧ s.envS.toNat < 64 := by
  simp [ControlsLegal, EnvBytes.legal, and_assoc]

/-- The value the row counter starts each row with is in its range (R54, R140). -/
theorem rowdivStart : 1 ≤ (20#5).toNat ∧ (20#5).toNat ≤ 20 := by decide

/-- With one column driver on, MUX_STEP moves on to the next (R250, R251). -/
theorem nextColumn {c : BitVec 10} {p : Fin 10} (h : c = 0 ∨ c = columnBit (p + 9)) :
    (c &&& ~~~columnBit (p + 9)) ||| columnBit p = columnBit (p + 1 + 9) := by
  have hp : ∀ p : Fin 10, (0 &&& ~~~columnBit (p + 9)) ||| columnBit p = columnBit (p + 1 + 9)
      ∧ (columnBit (p + 9) &&& ~~~columnBit (p + 9)) ||| columnBit p = columnBit (p + 1 + 9) := by decide
  obtain rfl | rfl := h
  · exact (hp p).1
  · exact (hp p).2

/-! ### Loading a note (R191, R192, R220) -/

/-- Under legal control bytes the breakpoints of a note of at least one tick are in order (R192). -/
theorem State.setBreakpoints_ordered {s : State} (hc : ControlsLegal s) (hr : 1 ≤ s.rem.toNat) :
    BreakpointsOrdered s.setBreakpoints := by
  obtain ⟨hsum, -, -⟩ := controlsLegal_iff.mp hc
  have ha := segmentTicks_toNat s.rem s.envA
  have hd := segmentTicks_toNat s.rem s.envD
  have hl := segmentTicks_toNat s.rem s.envR
  have hfit : s.rem.toNat * s.envA.toNat + s.rem.toNat * s.envD.toNat + s.rem.toNat * s.envR.toNat
      < s.rem.toNat * 256 := by
    rw [← Nat.mul_add, ← Nat.mul_add]
    exact Nat.mul_lt_mul_of_pos_left hsum hr
  have hdec : (s.rem - segmentTicks s.rem s.envA).toNat = s.rem.toNat - (segmentTicks s.rem s.envA).toNat :=
    BitVec.toNat_sub_of_le (BitVec.le_def.mpr (by omega))
  have hsus : (s.rem - segmentTicks s.rem s.envA - segmentTicks s.rem s.envD).toNat
      = s.rem.toNat - (segmentTicks s.rem s.envA).toNat - (segmentTicks s.rem s.envD).toNat := by
    rw [BitVec.toNat_sub_of_le (BitVec.le_def.mpr (by omega)), hdec]
  constructor <;> simp only [State.setBreakpoints_atkStart, State.setBreakpoints_decStart,
    State.setBreakpoints_susStart, State.setBreakpoints_relStart, State.setBreakpoints_rem] <;> omega

/-- Before a note's first tick no segment has begun, so the envelope is on its track (R194). -/
theorem EnvelopeOnTrack.of_firstTick {s : State} (hb : BreakpointsOrdered s) (h : s.rem = s.atkStart) :
    EnvelopeOnTrack s := by
  obtain ⟨hdec, hsus, hrel, -, -⟩ := hb
  have hrem : s.rem.toNat = s.atkStart.toNat := congrArg BitVec.toNat h
  constructor <;> intros <;> omega

/-- LOADNOTE keeps the datapath's ranges (R220). -/
theorem DatapathInv.loadNote {s t : State} (h : DatapathInv s) (hc : ControlsLegal s)
    (hl : Machine.loadNote s = .next t) : DatapathInv t := by
  obtain ⟨-, rfl⟩ | ⟨-, delta, v, hdelta, -, rfl⟩ := loadNote_cases hl
  · exact { h with }
  · have hrange : 0x0100 ≤ delta.toNat ∧ delta.toNat ≤ 0x01FF := by
      obtain hn | ⟨-, rfl⟩ := hdelta
      · exact Config.noteDelta_range s.cfg hn
      · exact h.deltaRange
    exact { h with deltaRange := hrange, sustainRange := (controlsLegal_iff.mp hc).2.2 }

/-- After LOADNOTE the current note is the end sentinel or a note before its first tick (R220, R222). -/
theorem loadNote_noteInProgress {s t : State} (hc : ControlsLegal s) (hl : loadNote s = .next t)
    (hn : t.note ≠ t.cfg.noteEnd) : NoteInProgress t := by
  obtain ⟨-, rfl⟩ | ⟨-, delta, v, -, hv, rfl⟩ := loadNote_cases hl
  · exact absurd rfl hn
  · have hb := State.setBreakpoints_ordered
      (s := { ((s.readSong s.cursor).readSong (s.cursor + 1)).acceptRecord (s.songByte s.cursor) with
        pdelta := delta, rem := v }) hc (Config.durTicks_pos s.cfg hv)
    exact ⟨hb, .of_firstTick hb rfl⟩

/-! ### The audio registers -/

/-- Stopping playback silences the output (R160, R225). -/
theorem AudioInv.stopPlayback {s : State} (h : AudioInv s) : AudioInv s.stopPlayback :=
  { h with idleSilent := fun _ => rfl, sounding := nofun }

theorem AudioInv.audioDefaults {s : State} (h : AudioInv s) : AudioInv s.audioDefaults :=
  { h with idleSilent := fun _ => rfl, sounding := nofun }

/-- START_SONG leaves a stopped machine or a note before its first tick (R225). -/
theorem AudioInv.startSong {s t : State} {seq : Word} (h : AudioInv s) (hc : ControlsLegal s)
    (hs : Machine.startSong seq s = .next t) : AudioInv t := by
  obtain ⟨u, hu, rfl⟩ := startSong_cases hs
  have hc : ControlsLegal { s.stopPlayback with cursor := seq, loopStart := seq } := hc
  have hstop : AudioInv { s.stopPlayback with cursor := seq, loopStart := seq } := h.stopPlayback.congr rfl
  have hd : DatapathInv u := hstop.toDatapathInv.loadNote hc hu
  have hpwm : u.pwmEn = false := by rw [loadNote_frame hu]; rfl
  rw [State.startPlayback_frame]
  refine { hd with
    phaseIndex := (by decide : (intPart 0x0000).toNat ≤ 31)
    levelRange := ⟨Config.wave_le s.cfg s.wsel 0, hd.levelRange.2⟩
    idleSilent := fun _ => hpwm
    sounding := fun _ hn => ?_ }
  obtain ⟨o, k⟩ := loadNote_noteInProgress hc hu hn
  exact ⟨⟨o.1, o.2, o.3, o.4, o.5⟩, ⟨k.1, k.2, k.3, k.4⟩⟩

/-- One tick of a note, before the counter's record is looked at: steps 2 to 6 of R160 in one piece. -/
theorem State.soundTick_eq (s : State) :
    s.outputLevel.synthesise.setRem (s.rem - 1) = { s with
      pwmEn := s.outputLevel.pwmEn, pwmLevel := s.outputLevel.pwmLevel, trace := s.outputLevel.trace
      phase := phaseAdvance s.phase s.pdelta, env := s.envNext.value, envDelta := s.envNext.delta
      pwmNext := s.outputLevel.synthesise.pwmNext, rem := s.rem - 1 } := by
  have he : s.outputLevel.envNext = s.envNext := by rw [State.outputLevel_frame]; rfl
  rw [State.synthesise_frame, he, State.outputLevel_frame]
  rfl

/-- The level that goes out is the one that was held or the pipelined one (R163, R165). -/
theorem State.outputLevel_pwmLevel (s : State) :
    s.outputLevel.pwmLevel = s.pwmLevel ∨ s.outputLevel.pwmLevel = s.pwmNext := by
  unfold State.outputLevel
  split
  · exact .inl rfl
  · exact .inr rfl

/-- A tick inside a note keeps the datapath's ranges, and the note goes on until its counter is at 0. -/
theorem AudioInv.soundTick {s : State} (h : AudioInv s) (hp : s.playing = true) (hn : s.note ≠ s.cfg.noteEnd) :
    DatapathInv (s.outputLevel.synthesise.setRem (s.rem - 1))
      ∧ (s.rem - 1 ≠ 0 → NoteInProgress (s.outputLevel.synthesise.setRem (s.rem - 1))) := by
  obtain ⟨hb, htrack⟩ := h.sounding hp hn
  obtain ⟨henv, hslope, hnext⟩ := htrack.envStep hb h.sustainRange h.envRange h.slopeRange
  have hpwm : s.outputLevel.synthesise.pwmNext.toNat ≤ 49 := by
    rw [State.outputLevel_frame, State.synthesise_pwmNext]
    exact levelProduct_le (interpolate_le (Config.wave_le _ _ _) (Config.wave_le _ _ _) _) (round8_8_le henv)
  have hlevel : s.outputLevel.pwmLevel.toNat ≤ 49 := by
    obtain e | e := s.outputLevel_pwmLevel <;> rw [e]
    · exact h.levelRange.2
    · exact h.levelRange.1
  rw [State.soundTick_eq]
  constructor
  · exact { h with
      phaseIndex := intPart_phaseAdvance_le _ _
      envRange := henv
      slopeRange := hslope
      levelRange := ⟨hpwm, hlevel⟩
      idleSilent := fun h0 => absurd hp (by rw [h0]; decide) }
  · intro h0
    obtain ⟨o1, o2, o3, o4, o5⟩ := hb
    have h1 : s.rem.toNat ≠ 1 := fun h1 => h0 (sub_eq_zero.mpr (BitVec.eq_of_toNat_eq h1))
    have hrem : (s.rem - 1).toNat = s.rem.toNat - 1 := BitVec.toNat_sub_of_le (BitVec.le_def.mpr o4)
    obtain ⟨k1, k2, k3, k4⟩ := hnext (by omega)
    exact ⟨⟨o1, o2, o3, by simp only [hrem]; omega, by simp only [hrem]; omega⟩, ⟨k1, k2, k3, k4⟩⟩

theorem AudioInv.audioStep {s t : State} (h : AudioInv s) (hc : ControlsLegal s)
    (ha : Machine.audioStep s = .next t) : AudioInv t := by
  obtain ⟨-, rfl⟩ | ⟨-, -, -, -, hs⟩ | ⟨-, -, -, rfl⟩ | ⟨hp, hn, -, hl⟩ | ⟨hp, hn, h0, rfl⟩ := audioStep_cases ha
  · exact h
  · exact h.startSong hc hs
  · exact h.stopPlayback
  · have hc : ControlsLegal (s.outputLevel.synthesise.setRem (s.rem - 1)) := by
      rw [State.soundTick_eq]
      exact hc
    exact { (h.soundTick hp hn).1.loadNote hc hl with sounding := fun _ hne => loadNote_noteInProgress hc hl hne }
  · exact { (h.soundTick hp hn).1 with sounding := fun _ _ => (h.soundTick hp hn).2 h0 }

theorem AudioInv.exec {i : Instr} {s t : State} (h : AudioInv s) (hc : ControlsLegal s) (hi : i.format = .H)
    (hx : Machine.exec i s = .next t) : AudioInv t := by
  cases i with
  | init =>
    rw [exec_init] at hx
    cases hx
    exact { h with idleSilent := fun _ => rfl, sounding := nofun }
  | initAudio =>
    cases hx
    exact h.audioDefaults
  | playSong seq =>
    simp only [Machine.exec, execPlaySong] at hx
    split at hx
    · cases hx
      exact h
    · exact h.startSong hc hx
  | endMark | rest | note => cases hi
  | _ => exact h.congr (by rw [exec_frame hx]; rfl)

/-! ### The control bytes, the scan registers and the framebuffer -/

theorem ControlsLegal.exec {i : Instr} {s t : State} (h : ControlsLegal s) (hx : Machine.exec i s = .next t) :
    ControlsLegal t := by
  cases i with
  | init =>
    rw [exec_init] at hx
    cases hx
    exact Config.envReset_legal s.cfg
  | initAudio =>
    cases hx
    exact Config.envReset_legal s.cfg
  | setEnvelope a d sus r =>
    simp only [Machine.exec, execSetEnvelope] at hx
    split at hx
    · cases hx
      exact h
    · rename_i hpass
      split at hx
      · cases hx
      · rename_i hsus
        cases hx
        have hadr : a.toNat + d.toNat + r.toNat < 256 ∧ d.toNat < 64 := by simpa [envelopePasses] using hpass
        exact controlsLegal_iff.mpr ⟨hadr.1, hadr.2, by simpa using hsus⟩
  | _ =>
    rw [exec_frame hx]
    exact h

theorem ScanInv.exec {i : Instr} {s t : State} (h : ScanInv s) (hx : Machine.exec i s = .next t) : ScanInv t := by
  have hreset := Config.swapIntervalReset_pos s.cfg
  obtain ⟨hdiv, hscan, hcol, hint, hcnt⟩ := h
  cases i with
  | init =>
    rw [exec_init] at hx
    cases hx
    exact ⟨rowdivStart, rfl, .inl rfl, hreset, hreset⟩
  | initSwapBuffers =>
    cases hx
    exact ⟨hdiv, hscan, hcol, hreset, hreset⟩
  | setSwapInterval n =>
    simp only [Machine.exec, execSetSwapInterval] at hx
    split at hx
    · cases hx
    · rename_i hn
      cases hx
      exact ⟨hdiv, hscan, hcol, Nat.one_le_iff_ne_zero.mpr fun h0 => hn (BitVec.eq_of_toNat_eq h0), hcnt⟩
  | _ =>
    rw [exec_frame hx]
    exact ⟨hdiv, hscan, hcol, hint, hcnt⟩

theorem State.muxStep_colEn (s : State) (sw : Mask) (p : Fin 10) :
    (s.muxStep sw p).colEn = (s.colEn &&& ~~~columnBit (p + 9)) ||| columnBit p := by
  by_cases hp : p = 0
  · rw [hp, State.muxStep_zero]; rfl
  · rw [State.muxStep_of_ne_zero s sw hp]

/-- The switch lines are inputs only inside MUX_STEP (R270). -/
theorem State.muxStep_swScan {s : State} (h : s.swScan = false) (sw : Mask) (p : Fin 10) :
    (s.muxStep sw p).swScan = false := by
  by_cases hp : p = 0
  · rw [hp, State.muxStep_zero]
  · rw [State.muxStep_of_ne_zero s sw hp]
    exact h

/-- The end of a cycle reloads SWAP_CNT before it is 0 (R144). -/
theorem ScanInv.cycleDone {s : State} (h : ScanInv s) : ScanInv s.cycleDone := by
  obtain ⟨hdiv, hscan, hcol, hint, hcnt⟩ := h
  have hpos : 1 ≤ s.cycleDone.swapCnt.toNat := by
    unfold State.cycleDone
    dsimp only
    split
    · exact hint
    · rename_i h0
      exact Nat.one_le_iff_ne_zero.mpr fun h1 => h0 (BitVec.eq_of_toNat_eq h1)
  rw [State.cycleDone_frame]
  exact ⟨hdiv, hscan, hcol, hint, hpos⟩

theorem ScanInv.rowStep {s : State} (h : ScanInv s) (sw : Mask) : ScanInv (s.rowStep sw) := by
  obtain ⟨hdiv, hscan, hcol, hint, hcnt⟩ := h
  by_cases h0 : s.rowdiv - 1 = 0
  · have hnext : ScanInv (((s.setRowdiv 20).muxStep sw s.rphase).setRphase (s.rphase + 1)) := by
      rw [State.muxStep_frame]
      exact ⟨rowdivStart, State.muxStep_swScan (s := s.setRowdiv 20) hscan sw s.rphase,
        .inr ((State.muxStep_colEn (s.setRowdiv 20) sw s.rphase).trans (nextColumn hcol)), hint, hcnt⟩
    rw [State.rowStep_of_eq s sw h0]
    split
    · exact hnext.cycleDone
    · exact hnext
  · have hrow : (s.rowdiv - 1).toNat = s.rowdiv.toNat - 1 := BitVec.toNat_sub_of_le (BitVec.le_def.mpr hdiv.1)
    have hne : (s.rowdiv - 1).toNat ≠ 0 := fun h1 => h0 (BitVec.eq_of_toNat_eq h1)
    rw [State.rowStep_of_ne s sw h0]
    exact ⟨⟨by simp only [State.setRowdiv_rowdiv]; omega, by simp only [State.setRowdiv_rowdiv]; omega⟩,
      hscan, hcol, hint, hcnt⟩

theorem RowsBit7Clear.applyRowWrite {s : State} (h : RowsBit7Clear s) (w : RowWrite) :
    RowsBit7Clear (s.applyRowWrite w) := by
  intro i
  cases w with
  | clear row =>
    rw [State.applyRowWrite, State.readRow_writeRow]
    split
    · rfl
    · exact h i
  | plot p x y =>
    obtain ⟨q, z, rfl⟩ := planeRow_surjective i
    rw [State.applyPlot_getLsbD, if_neg (by omega)]
    exact h _

theorem RowsBit7Clear.continueDrawing {s : State} (h : RowsBit7Clear s) (w : RowWrite) (ws : List RowWrite) :
    RowsBit7Clear (s.continueDrawing w ws) := h.applyRowWrite w

theorem RowsBit7Clear.beginDrawing {s : State} (h : RowsBit7Clear s) (ws : List RowWrite) :
    RowsBit7Clear (s.beginDrawing ws) := by
  cases ws with
  | nil => exact h
  | cons w ws => exact h.continueDrawing w ws

theorem RowsBit7Clear.zero {s : State} (h : s.fb = Vector.replicate 10 0x00) : RowsBit7Clear s := by
  intro i
  simp [State.readRow, h]

theorem RowsBit7Clear.exec {i : Instr} {s t : State} (h : RowsBit7Clear s) (hx : Machine.exec i s = .next t) :
    RowsBit7Clear t := by
  cases i with
  | init =>
    rw [exec_init] at hx
    cases hx
    exact .zero rfl
  | clearDisplay | drawPoint | drawFilledRect =>
    cases hx
    exact h.beginDrawing _
  | _ =>
    rw [exec_frame hx]
    exact h

/-! ### The whole invariant -/

theorem inv_resetWith (c : Config) : Inv (State.resetWith c) := by
  refine inv_iff.mpr ⟨?_, Config.envReset_legal c, ?_, .zero rfl, Memory.wf_nil⟩
  · have hd : DatapathInv (State.resetWith c) := by
      constructor <;> simp [State.resetWith, intPart]
    exact { hd with sounding := nofun }
  · exact ⟨rowdivStart, rfl, .inl rfl, Config.swapIntervalReset_pos c, Config.swapIntervalReset_pos c⟩

/-- The reset event brings the reset state back, with the song memory as it was (R370). -/
theorem Inv.hardReset {s : State} (h : Inv s) : Inv s.hardReset := by
  obtain ⟨haudio, hcontrols, hscan, hrows, -⟩ := inv_iff.mp (inv_resetWith s.cfg)
  exact inv_iff.mpr ⟨haudio.congr rfl, hcontrols, hscan, hrows, h.songCanonical⟩

theorem Inv.tick {s t : State} {sw : Mask} (h : Inv s) (ht : Machine.tick sw s = .next t) : Inv t := by
  obtain ⟨-, rfl⟩ | ⟨-, u, hu, rfl⟩ := tick_cases ht
  · exact h
  · obtain ⟨haudio, hcontrols, hscan, hrows, hsong⟩ := inv_iff.mp h
    have hu_inv : Inv u := by
      refine inv_iff.mpr ⟨haudio.audioStep hcontrols hu, ?_⟩
      rw [audioStep_frame hu]
      exact ⟨hcontrols, hscan, hrows, hsong⟩
    obtain ⟨haudio, hcontrols, hscan, hrows, hsong⟩ := inv_iff.mp hu_inv
    refine inv_iff.mpr ⟨haudio.congr (by rw [State.rowStep_frame]; rfl), ?_, hscan.rowStep sw, ?_⟩
    · rw [State.rowStep_frame]
      exact hcontrols
    · rw [State.rowStep_frame]
      exact ⟨hrows, hsong⟩

/-- A host command keeps the invariant, from every place the HOST agent can issue it. -/
theorem Inv.exec {i : Instr} {s t : State} (h : Inv s) (hi : i.format = .H) (hx : Machine.exec i s = .next t) :
    Inv t := by
  obtain ⟨haudio, hcontrols, hscan, hrows, hsong⟩ := inv_iff.mp h
  exact inv_iff.mpr ⟨haudio.exec hcontrols hi hx, hcontrols.exec hx, hscan.exec hx, hrows.exec hx,
    by rw [(exec_stores hx).1]; exact hsong⟩

theorem Inv.hostTurn {s t : State} (h : Inv s) (hh : Machine.hostTurn s = .next t) : Inv t := by
  obtain ⟨haudio, hcontrols, hscan, hrows, hsong⟩ := inv_iff.mp h
  obtain ⟨w, ws, -, rfl⟩ | rfl | ⟨i, u, hi, hx, hu, -⟩ := hostTurn_cases hh
  · refine inv_iff.mpr ⟨haudio.congr (by rw [State.continueDrawing_frame]; rfl), ?_, ?_,
      hrows.continueDrawing w ws, ?_⟩ <;>
      rw [State.continueDrawing_frame] <;> assumption
  · exact h
  · have hu_inv : Inv u := by
      rw [hu]
      exact inv_iff.mpr ⟨haudio.congr rfl, hcontrols, hscan, hrows, hsong⟩
    exact hu_inv.exec hi hx

theorem Inv.step {s t : State} (h : Inv s) (hs : Machine.step s = .next t) : Inv t := by
  obtain ⟨-, rfl⟩ | ⟨sw, is, -, ht⟩ | ⟨is, -, hh⟩ | ⟨b, is, -, rfl⟩ | ⟨a, b, is, -, rfl⟩ | ⟨is, -, rfl⟩ := step_cases hs
  · exact h
  · exact (h.withInputs is).tick ht
  · exact (h.withInputs is).hostTurn hh
  · obtain ⟨haudio, hcontrols, hscan, hrows, hsong⟩ := inv_iff.mp h
    exact inv_iff.mpr ⟨haudio.congr rfl, hcontrols, hscan, hrows, hsong⟩
  · obtain ⟨haudio, hcontrols, hscan, hrows, hsong⟩ := inv_iff.mp h
    exact inv_iff.mpr ⟨haudio.congr rfl, hcontrols, hscan, hrows, Memory.write_wf a b hsong⟩
  · exact (h.withInputs is).hardReset

end Sys2Proof.Machine

open Sys2Proof Sys2Proof.Machine

/-- Settles O58. -/
theorem invariantAfterReset : Obligations.InvariantAfterReset := inv_resetWith

/-- Settles O59, part by part of the invariant, for each input a step can take. -/
theorem everyStepKeepsInvariant : Obligations.EveryStepKeepsInvariant := fun _ _ h hs => h.step hs

end

section
/-! What one step and one turn of the HOST agent do, input by input (spec/20_memory.md R90 to R100), that TICK does not
read the inputs to come, and the statements about steps and runs. -/

namespace Sys2Proof.Machine

/-! ### One step, one turn, one record -/

/-- A step does what its next input says (R90, R91). -/
theorem step_of_inputs_cons {s : State} {i : Input} {is : List Input} (h : s.inputs = i :: is) :
    step s = accept i { s with inputs := is } := by
  simp only [step, takeInput, h]

theorem step_cons (s : State) (i : Input) (is : List Input) :
    step { s with inputs := i :: is } = accept i { s with inputs := is } := step_of_inputs_cons rfl

/-- With no input left a step changes nothing (assumption log 3). -/
theorem step_of_inputs_nil {s : State} (h : s.inputs = []) : step s = .next s := by
  simp only [step, takeInput, h]

/-- A turn between two commands runs the whole command on the port, its bytes consumed (R100). -/
theorem hostTurn_command {s : State} {i : Instr} {bs : List Byte} (h : s.host = .ready)
    (hd : decodeCommand s.hostIn = .command i bs) : hostTurn s = exec i { s with hostIn := bs } := by
  simp only [hostTurn, h, hd]

/-- Two reads of song memory drive their addresses in order (R70). -/
theorem State.readSong_readSong (s : State) (a b : Word) :
    (s.readSong a).readSong b = { s with trace := s.trace ++ [.songRead a, .songRead b] } := by
  simp [State.readSong]

/-! ### TICK does not read the inputs to come

An operation neither reads nor writes the inputs to come when it commutes with replacing them: as an update of the state
it is a semiconjugation from `State.withInputs is` to itself, and with an outcome one to `replaceInputs is`. -/

/-- s with other inputs to come. -/
def State.withInputs (is : List Input) (s : State) : State := { s with inputs := is }

@[simp] theorem State.withInputs_cfg (is : List Input) (s : State) : (s.withInputs is).cfg = s.cfg := rfl
@[simp] theorem State.withInputs_cursor (is : List Input) (s : State) : (s.withInputs is).cursor = s.cursor := rfl
@[simp] theorem State.withInputs_songByte (is : List Input) (s : State) (a : Word) :
    (s.withInputs is).songByte a = s.songByte a := rfl

/-- The same outcome with other inputs to come. -/
def replaceInputs (is : List Input) : Result → Result
  | .next s => .next (s.withInputs is)
  | .fault f => .fault f
  | .refused e => .refused e

section
open Function
variable (is : List Input)

/-- A branch whose condition does not change. -/
theorem semiconj_ite {α β : Type} {c : α → Prop} [DecidablePred c] {f g : α → β} {a : α → α} {b : β → β}
    (hc : ∀ x, c (a x) ↔ c x) (hf : Semiconj f a b) (hg : Semiconj g a b) :
    Semiconj (fun x => if c x then f x else g x) a b := by
  intro x
  by_cases h : c x
  · simp only [hc, h, if_true, hf x]
  · simp only [hc, h, if_false, hg x]

theorem semiconj_next {g : State → State} (hg : Semiconj g (State.withInputs is) (State.withInputs is)) :
    Semiconj (fun s => .next (g s)) (State.withInputs is) (replaceInputs is) :=
  fun s => congrArg Host.Outcome.next (hg s)

theorem semiconj_andThen {f k : State → Result} (hf : Semiconj f (State.withInputs is) (replaceInputs is))
    (hk : Semiconj k (State.withInputs is) (replaceInputs is)) :
    Semiconj (fun s => andThen (f s) k) (State.withInputs is) (replaceInputs is) := by
  intro s
  simp only [hf s]
  cases f s with
  | next t => exact hk t
  | fault | refused => rfl

theorem semiconj_loadDuration (d : Byte) :
    Semiconj (fun s => s.loadDuration d) (State.withInputs is) (replaceInputs is) := by
  intro s
  simp only [State.loadDuration, State.withInputs_cfg]
  cases durTicks? s.cfg d <;> rfl

theorem semiconj_execRest (d : Byte) : Semiconj (execRest d) (State.withInputs is) (replaceInputs is) := by
  intro s
  simp only [execRest, State.acceptRecord_cfg, State.withInputs_cfg]
  cases noteDelta? s.cfg s.cfg.noteRest with
  | some delta => exact semiconj_loadDuration is d { s.acceptRecord s.cfg.noteRest with pdelta := delta }
  | none => exact semiconj_loadDuration is d (s.acceptRecord s.cfg.noteRest)

theorem semiconj_execNote (n d : Byte) : Semiconj (execNote n d) (State.withInputs is) (replaceInputs is) := by
  intro s
  simp only [execNote, State.acceptRecord_cfg, State.withInputs_cfg]
  cases noteDelta? s.cfg n with
  | some delta => exact semiconj_loadDuration is d { s.acceptRecord n with pdelta := delta }
  | none => rfl

theorem semiconj_loadNote : Semiconj loadNote (State.withInputs is) (replaceInputs is) := by
  intro s
  simp only [loadNote, State.readSong_cfg, State.withInputs_cfg, State.withInputs_cursor, State.withInputs_songByte]
  cases classifyNote s.cfg (s.songByte s.cursor) with
  | endOfSong => rfl
  | rest => exact semiconj_execRest is _ ((s.readSong s.cursor).readSong (s.cursor + 1))
  | pitched => exact semiconj_execNote is _ _ ((s.readSong s.cursor).readSong (s.cursor + 1))
  | reserved => rfl

theorem semiconj_startPlayback : Semiconj State.startPlayback (State.withInputs is) (State.withInputs is) :=
  semiconj_ite (fun _ => .rfl) (fun _ => rfl) (fun _ => rfl)

theorem semiconj_startSong (seq : Word) : Semiconj (startSong seq) (State.withInputs is) (replaceInputs is) :=
  semiconj_andThen is
    (fun s => semiconj_loadNote is { s.stopPlayback with cursor := seq, loopStart := seq })
    (semiconj_next is fun s =>
      semiconj_startPlayback is { s with phase := 0x0000, pwmNext := waveSample s.cfg s.wsel 0 })

theorem semiconj_endOfSong : Semiconj endOfSong (State.withInputs is) (replaceInputs is) :=
  semiconj_ite (fun _ => .rfl) (fun s => semiconj_startSong is s.loopStart s) (fun _ => rfl)

theorem semiconj_countDown : Semiconj countDown (State.withInputs is) (replaceInputs is) :=
  semiconj_ite (c := fun s : State => s.rem - 1 = 0) (fun _ => .rfl)
    (fun s : State => semiconj_loadNote is (s.setRem (s.rem - 1))) (fun _ => rfl)

theorem semiconj_outputLevel : Semiconj State.outputLevel (State.withInputs is) (State.withInputs is) :=
  semiconj_ite (fun _ => .rfl) (fun _ => rfl) (fun _ => rfl)

theorem semiconj_synthesise : Semiconj State.synthesise (State.withInputs is) (State.withInputs is) := fun _ => rfl

theorem semiconj_audioStep : Semiconj audioStep (State.withInputs is) (replaceInputs is) :=
  semiconj_ite (fun _ => .rfl) (fun _ => rfl) <| semiconj_ite (fun _ => .rfl) (semiconj_endOfSong is) <|
    (semiconj_countDown is).comp_left ((semiconj_synthesise is).comp_left (semiconj_outputLevel is))

theorem semiconj_muxStep (sw : Mask) (p : Fin 10) :
    Semiconj (fun s => s.muxStep sw p) (State.withInputs is) (State.withInputs is) := by
  by_cases hp : p = 0
  · subst hp
    exact fun _ => rfl
  · intro s
    simp only [State.muxStep_of_ne_zero _ sw hp]
    rfl

theorem semiconj_cycleDone : Semiconj State.cycleDone (State.withInputs is) (State.withInputs is) :=
  semiconj_ite (c := fun s : State => s.swapCnt - 1 = 0) (fun _ => .rfl) (fun _ => rfl) (fun _ => rfl)

/-- Driving the current phase and advancing to the next (R140, R143). -/
theorem semiconj_nextPhase (sw : Mask) :
    Semiconj (fun s => ((s.setRowdiv 20).muxStep sw s.rphase).setRphase (s.rphase + 1)) (State.withInputs is)
      (State.withInputs is) :=
  fun s => congrArg (fun u => u.setRphase (s.rphase + 1)) (semiconj_muxStep is sw s.rphase (s.setRowdiv 20))

theorem semiconj_rowStep (sw : Mask) :
    Semiconj (fun s => s.rowStep sw) (State.withInputs is) (State.withInputs is) :=
  semiconj_ite (c := fun s : State => s.rowdiv - 1 = 0) (fun _ => .rfl)
    (semiconj_ite (c := fun s : State => s.rphase = 9) (fun _ => .rfl)
      ((semiconj_cycleDone is).comp_left (semiconj_nextPhase is sw)) (semiconj_nextPhase is sw))
    (fun _ => rfl)

/-- TICK neither reads nor writes the inputs to come (R140). -/
theorem semiconj_tick (sw : Mask) : Semiconj (tick sw) (State.withInputs is) (replaceInputs is) :=
  semiconj_ite (fun _ => .rfl) (fun _ => rfl)
    (semiconj_andThen is (semiconj_audioStep is) (semiconj_next is (semiconj_rowStep is sw)))

end

/-- A step whose input is a tick is that TICK, with the inputs after it left to come (R90, R140). -/
theorem step_tick {s t : State} {sw : Mask} (h : tick sw s = .next t) (is : List Input) :
    step { s with inputs := .tick sw :: is } = .next { t with inputs := is } := by
  rw [step_cons]
  exact (semiconj_tick is sw s).trans (congrArg (replaceInputs is) h)

end Sys2Proof.Machine

open Sys2Proof Sys2Proof.Machine

/-- Settles O10, by induction on the ticks: each step is the next TICK, which does not read the inputs after it. -/
theorem runOfTickInputsIsTicks : Obligations.RunOfTickInputsIsTicks := by
  intro s t sws is h
  induction sws generalizing s with
  | nil =>
    cases h
    rfl
  | cons sw sws ih =>
    obtain ⟨u, hu, hrest⟩ := andThen_eq_next.mp h
    have hstep : core.step { s with inputs := .tick sw :: (sws.map Input.tick ++ is) } =
        .next { u with inputs := sws.map Input.tick ++ is } := step_tick hu _
    simp only [List.length_cons, List.map_cons, List.cons_append, Host.Core.run, hstep]
    exact ih u hrest

/-- Settles O7. -/
theorem stepRunsDecodedCommand : Obligations.StepRunsDecodedCommand := by
  intro s i bs is hin hhost hd
  rw [step_of_inputs_cons hin]
  exact hostTurn_command (s := { s with inputs := is }) hhost hd

/-- Settles O8, by the class of the note byte. -/
theorem loadNoteRunsDecodedRecord : Obligations.LoadNoteRunsDecodedRecord := by
  intro s
  simp only [loadNote, decodeRecord, State.readSong_readSong]
  cases classifyNote s.cfg (s.songByte s.cursor) <;> rfl

/-- Settles O9, input by input. -/
theorem stepTakesNextInput : Obligations.StepTakesNextInput := by
  intro s is
  refine ⟨fun sw => step_cons s (.tick sw) is, step_cons s .hostTurn is, hostTurn_incomplete,
    fun b => step_cons s (.hostByte b) is, fun hsong a b => ?_, step_of_inputs_nil rfl⟩
  exact ⟨State.writeSong { s with inputs := is } a b, step_cons s (.songWrite a b) is, rfl,
    State.songByte_writeSong hsong a b⟩

end

section
/-! The row updates of a drawing command: what each does to the framebuffer bit by bit, the loops of drawFilledRect
(spec/46_host_commands.md R293, R295), and the statements about them. -/

namespace Sys2Proof.Machine

/-! ### One row update -/

/-- Clearing a row leaves it 0x00 and every other row as it was (R292). -/
theorem State.applyClear_readRow (s : State) (row i : Fin 10) :
    (s.applyRowWrite (.clear row)).readRow i = if i = row then 0x00#8 else s.readRow i := by
  simp only [State.applyRowWrite, State.readRow_writeRow, eq_comm (a := row)]
  rfl

/-- The bits of any row after a plotted pixel (R293). -/
theorem State.applyPlot_readRow_getLsbD (s : State) (p : Plane) (x : Fin 7) (y : Fin 5) (i : Fin 10) (b : Nat) :
    ((s.applyRowWrite (.plot p x y)).readRow i).getLsbD b =
      if i.val = (planeRow p y).val ∧ b = x.val then planeBit p s.color else (s.readRow i).getLsbD b := by
  obtain ⟨q, z, rfl⟩ := planeRow_surjective i
  rw [State.applyPlot_getLsbD]
  simp only [← Fin.ext_iff, planeRow_eq_iff, and_assoc, eq_comm (a := p), eq_comm (a := y)]

/-! ### The loops of drawFilledRect -/

/-- A point of the grid has its green and then its red row update (R293). -/
theorem pointWrites_coords (x : Fin 7) (y : Fin 5) :
    pointWrites x.val y.val = [.plot .green x y, .plot .red x y] := by
  simp only [pointWrites, gridPoint_coords]

/-- A clipped point has no row update (R293, R296). -/
theorem pointWrites_clipped {x y : Int} (h : ¬((0 ≤ x ∧ x ≤ 6) ∧ (0 ≤ y ∧ y ≤ 4))) : pointWrites x y = [] := by
  simp only [pointWrites, gridPoint_eq_none h]

/-- The natural numbers below n, as a loop over integers visits them. -/
theorem range_toInts (n : Nat) : ((List.range n : List Nat) : List Int) = (List.range n).map Nat.cast := by
  simp [List.map_eq_flatMap]

theorem mem_intsUpTo {a b z : Int} : z ∈ intsUpTo a b ↔ a ≤ z ∧ z ≤ b := by
  simp only [intsUpTo, range_toInts, List.map_map, List.mem_map, List.mem_range, Function.comp_apply]
  constructor
  · rintro ⟨k, hk, rfl⟩
    omega
  · intro h
    exact ⟨(z - a).toNat, by omega, by omega⟩

/-- The natural numbers below n, as integers, ascend. -/
theorem map_cast_range_pairwise_lt (n : Nat) : ((List.range n).map (Nat.cast : Nat → Int)).Pairwise (· < ·) :=
  List.pairwise_lt_range.map _ fun _ _ => Int.ofNat_lt.mpr

theorem intsUpTo_pairwise_lt (a b : Int) : (intsUpTo a b).Pairwise (· < ·) := by
  rw [intsUpTo, range_toInts]
  exact (map_cast_range_pairwise_lt _).map _ fun _ _ h => Int.add_lt_add_left h a

/-- A loop that skips some elements is the loop over the others. -/
theorem flatMap_ite_nil {α β : Type} (P : α → Prop) [DecidablePred P] (f : α → List β) (l : List α) :
    (l.flatMap fun x => if P x then f x else []) = (l.filter P).flatMap f := by
  induction l with
  | nil => rfl
  | cons x l ih => by_cases h : P x <;> simp [h, ih]

/-- A loop from a to b over a body that does nothing outside 0..n-1 is the loop over 0..n-1 that skips what is not
between a and b: both visit the same numbers in ascending order. -/
theorem flatMap_intsUpTo {β : Type} {n : Nat} {f : Int → List β} (h : ∀ z : Int, ¬(0 ≤ z ∧ z < n) → f z = [])
    (a b : Int) : (intsUpTo a b).flatMap f =
      ((List.range n).map Nat.cast).flatMap fun z : Int => if a ≤ z ∧ z ≤ b then f z else [] := by
  have skip : f = fun z : Int => if 0 ≤ z ∧ z < n then f z else [] := by
    funext z
    by_cases hz : 0 ≤ z ∧ z < n
    · rw [if_pos hz]
    · rw [if_neg hz, h z hz]
  have visited : (intsUpTo a b).filter (fun z : Int => 0 ≤ z ∧ z < n) =
      ((List.range n).map Nat.cast).filter (fun z : Int => a ≤ z ∧ z ≤ b) := by
    refine ((intsUpTo_pairwise_lt a b).filter _).eq_of_mem_iff ((map_cast_range_pairwise_lt n).filter _) fun z => ?_
    simp only [List.mem_filter, mem_intsUpTo, List.mem_map, List.mem_range, decide_eq_true_eq]
    constructor
    · rintro ⟨hz, h0, hn⟩
      exact ⟨⟨z.toNat, by omega, by omega⟩, hz⟩
    · rintro ⟨⟨k, hk, rfl⟩, hz⟩
      exact ⟨hz, by omega, by omega⟩
  rw [flatMap_ite_nil, ← visited, ← flatMap_ite_nil, ← skip]

/-- The visited grid points are the loops of R295, since every other point is clipped. -/
theorem rectWrites_eq_loopWrites (x1 y1 x2 y2 : Int) : rectWrites x1 y1 x2 y2 = loopWrites x1 y1 x2 y2 := by
  have columns (y : Int) := flatMap_intsUpTo (n := 7) (f := fun x => pointWrites x y)
    (fun x hx => pointWrites_clipped (by omega)) x1 x2
  have lines := flatMap_intsUpTo (n := 5) (f := fun y => (intsUpTo x1 x2).flatMap fun x => pointWrites x y)
    (fun y hy => List.flatMap_eq_nil_iff.mpr fun x _ => pointWrites_clipped (by omega)) y1 y2
  rw [loopWrites, lines]
  simp only [rectWrites, range_toInts, columns]

/-- drawFilledRect begins with the first row update of the loops of R295 (R90 c). -/
theorem exec_drawFilledRect (s : State) (x1 y1 x2 y2 : Coord) :
    exec (.drawFilledRect x1 y1 x2 y2) s =
      .next (s.beginDrawing (loopWrites x1.toInt y1.toInt x2.toInt y2.toInt)) := by
  rw [← rectWrites_eq_loopWrites]
  rfl

end Sys2Proof.Machine

open Sys2Proof Sys2Proof.Machine

/-- Settles O28: the loops visit the same points in the same order, and exec begins with the first row update. -/
theorem rectangleIsTheLoopOfPoints : Obligations.RectangleIsTheLoopOfPoints := by
  refine ⟨rectWrites_eq_loopWrites, pointWrites_coords, fun _ _ => pointWrites_clipped, fun s x1 y1 x2 y2 => ⟨?_, ?_⟩⟩
  · intro hnone
    rw [exec_drawFilledRect, hnone]
    rfl
  · intro w ws hwrites
    refine ⟨_, exec_drawFilledRect s x1 y1 x2 y2, ?_⟩
    rw [hostTurn_drawing rfl, State.continueDrawing_eq_beginDrawing, hwrites]

/-- Settles O60, by the kind of the row update. -/
theorem drawingTurnTakesNextRowWrite : Obligations.DrawingTurnTakesNextRowWrite := by
  intro s w ws hhost
  refine ⟨s.continueDrawing w ws, hostTurn_drawing hhost, State.continueDrawing_frame s w ws, ?_, ?_, ?_, ?_, ?_⟩
  · rintro rfl
    rfl
  · rintro v vs rfl
    rfl
  · rintro row rfl i
    exact s.applyClear_readRow row i
  · rintro x y rfl i b
    exact s.applyPlot_readRow_getLsbD .green x y i b
  · rintro x y rfl i b
    exact s.applyPlot_readRow_getLsbD .red x y i b

end

section
/-! The decoder against the encoder and the tables (spec/30_encoding.md R100 to R116): how many bytes a command takes,
operands read back from their bytes, the classes of a record, the reply bytes, and the statements about them. -/

namespace Sys2Proof.Machine

/-! ### Operands read back from the bytes that carry them (R103) -/

theorem colourOperand_setWidth (c : Colour) : colourOperand (c.setWidth 8) = c :=
  BitVec.setWidth_setWidth_of_le c (by decide)

theorem maskOperand_setWidth (m : Mask) : maskOperand (m.setWidth 8) = m :=
  BitVec.setWidth_setWidth_of_le m (by decide)

theorem flagOperand_boolByte (flag : Bool) : flagOperand (if flag then 0x01 else 0x00) = flag := by
  cases flag <;> rfl

/-- A song address is the append of its two bytes, the low one sent first (R71). -/
theorem seqOperand_bytes (w : Word) : seqOperand (w.extractLsb' 0 8) (w.extractLsb' 8 8) = w := by
  rw [seqOperand, BitVec.extractLsb'_append_extractLsb'_eq_extractLsb' (start₁ := 0) (len₁ := 8) rfl]
  exact BitVec.extractLsb'_eq_self

/-! ### Commands and the bytes they take (R100, R102) -/

/-- A reader of operand bytes that takes exactly k of them: with fewer nothing is read, and with k or more a host
command is read, whatever bytes follow (R100, R116). -/
def TakesOperands (k : Nat) (read : List Byte → CommandDecode) : Prop :=
  ∀ bs : List Byte,
    if bs.length < k then read bs = .incomplete
    else ∃ i : Instr, i.format = .H ∧ ∀ more, read (bs.take k ++ more) = .command i more

theorem operands0_takes {i : Instr} (h : i.format = .H) : TakesOperands 0 (operands0 i) :=
  fun _ => ⟨i, h, fun _ => rfl⟩

theorem operands1_takes {f : Byte → Instr} (h : ∀ a, (f a).format = .H) : TakesOperands 1 (operands1 f)
  | [] => rfl
  | a :: _ => by simpa using ⟨f a, h a, fun _ => rfl⟩

theorem operands2_takes {f : Byte → Byte → Instr} (h : ∀ a b, (f a b).format = .H) : TakesOperands 2 (operands2 f)
  | [] | [_] => rfl
  | a :: b :: _ => by simpa using ⟨f a b, h a b, fun _ => rfl⟩

theorem operands4_takes {f : Byte → Byte → Byte → Byte → Instr} (h : ∀ a b c d, (f a b c d).format = .H) :
    TakesOperands 4 (operands4 f)
  | [] | [_] | [_, _] | [_, _, _] => rfl
  | a :: b :: c :: d :: _ => by simpa using ⟨f a b c d, h a b c d, fun _ => rfl⟩

/-- The command map and the table of operand counts agree, opcode by opcode (R102). -/
theorem decodeCommand_takes {op : Byte} {k : Nat} (h : operandCount op = some k) :
    TakesOperands k fun bs => decodeCommand (op :: bs) := by
  unfold operandCount at h
  split at h <;> cases h <;> rename_i hop <;> simp only [decodeCommand, hop]
  case h_1 | h_2 | h_3 | h_4 | h_5 | h_6 | h_7 | h_8 | h_9 | h_10 => exact operands0_takes rfl
  case h_11 | h_12 | h_13 | h_14 | h_15 | h_16 => exact operands1_takes fun _ => rfl
  case h_17 | h_18 | h_19 => exact operands2_takes fun _ _ => rfl
  case h_20 | h_21 => exact operands4_takes fun _ _ _ _ => rfl

/-- An opcode that has no operand count is in no row of the command map (R113). -/
theorem decodeCommand_reserved {op : Byte} (h : operandCount op = none) (bs : List Byte) :
    decodeCommand (op :: bs) = .reserved op := by
  unfold operandCount at h
  split at h
  case h_22 => simp only [decodeCommand]
  all_goals cases h

/-- The opcodes with no operand count are the ranges of R113. -/
theorem operandCount_eq_none_iff {op : Byte} : operandCount op = none ↔
    (0x04 ≤ op.toNat ∧ op.toNat ≤ 0x0F) ∨ (0x16 ≤ op.toNat ∧ op.toNat ≤ 0x1F)
      ∨ (0x27 ≤ op.toNat ∧ op.toNat ≤ 0x2F) ∨ (0x34 ≤ op.toNat ∧ op.toNat ≤ 0xFF) := by
  have hbyte := op.isLt
  unfold operandCount
  split
  case h_22 => simp only [true_iff, imp_false] at *; omega
  all_goals simp only [reduceCtorEq, false_iff]; omega

/-- A turn between two commands refuses a reserved opcode by name, as soon as it is first on the port (R113). -/
theorem hostTurn_reserved {s : State} {op : Byte} (h : s.host = .ready)
    (hd : decodeCommand s.hostIn = .reserved op) : hostTurn s = .refused (.reservedOpcode op) := by
  simp only [hostTurn, h, hd]

/-! ### The classes of a record (R110) -/

theorem classifyNote_noteEnd (c : Config) : classifyNote c c.noteEnd = .endOfSong := if_pos rfl

theorem classifyNote_noteRest (c : Config) : classifyNote c c.noteRest = .rest := by
  rw [classifyNote, if_neg (Config.noteEnd_ne_noteRest c).symm, if_pos rfl]

theorem classifyNote_pitched {c : Config} {n : Byte} (he : n ≠ c.noteEnd) (hr : n ≠ c.noteRest)
    (hn : n.toNat ≤ 36) : classifyNote c n = .pitched := by
  rw [classifyNote, if_neg he, if_neg hr, if_pos hn]

theorem classifyNote_reserved {c : Config} {n : Byte} (he : n ≠ c.noteEnd) (hr : n ≠ c.noteRest)
    (hn : 36 < n.toNat) : classifyNote c n = .reserved := by
  rw [classifyNote, if_neg he, if_neg hr, if_neg (by omega)]

theorem decodeRecord_noteEnd (c : Config) (d : Byte) : decodeRecord c c.noteEnd d = some (.endMark d) := by
  rw [decodeRecord, classifyNote_noteEnd]

theorem decodeRecord_noteRest (c : Config) (d : Byte) : decodeRecord c c.noteRest d = some (.rest d) := by
  rw [decodeRecord, classifyNote_noteRest]

theorem decodeRecord_pitched {c : Config} {n : Byte} (he : n ≠ c.noteEnd) (hr : n ≠ c.noteRest)
    (hn : n.toNat ≤ 36) (d : Byte) : decodeRecord c n d = some (.note n d) := by
  rw [decodeRecord, classifyNote_pitched he hr hn]

theorem decodeRecord_reserved {c : Config} {n : Byte} (he : n ≠ c.noteEnd) (hr : n ≠ c.noteRest)
    (hn : 36 < n.toNat) (d : Byte) : decodeRecord c n d = none := by
  rw [decodeRecord, classifyNote_reserved he hr hn]

/-! ### The reply of readPixel (R294) -/

theorem replyBytes_readPixel_of_some {s : State} {x y : Coord} {p : Fin 7 × Fin 5}
    (h : gridPoint x.toInt y.toInt = some p) :
    replyBytes s (.readPixel x y) = [(s.pixel p.1 p.2).setWidth 8] := by
  unfold replyBytes
  simp only [h]

theorem replyBytes_readPixel_of_none {s : State} {x y : Coord} (h : gridPoint x.toInt y.toInt = none) :
    replyBytes s (.readPixel x y) = [(Config.freePixel s.draws).setWidth 8] := by
  unfold replyBytes
  simp only [h]

end Sys2Proof.Machine

open Sys2Proof Sys2Proof.Machine

/-- Settles O1, command by command: each operand is read back from the bytes that carry it. -/
theorem commandDecodeInvertsEncode : Obligations.CommandDecodeInvertsEncode := by
  intro c i bs hi
  cases i with
  | endMark | rest | note => cases hi
  | setColor k => exact congrArg (fun k => CommandDecode.command (.setColor k) bs) (colourOperand_setWidth k)
  | playSong seq => exact congrArg (fun seq => CommandDecode.command (.playSong seq) bs) (seqOperand_bytes seq)
  | loopSong flag => exact congrArg (fun flag => CommandDecode.command (.loopSong flag) bs) (flagOperand_boolByte flag)
  | clearEvents m => exact congrArg (fun m => CommandDecode.command (.clearEvents m) bs) (maskOperand_setWidth m)
  | clearEdges m => exact congrArg (fun m => CommandDecode.command (.clearEdges m) bs) (maskOperand_setWidth m)
  | _ => rfl

/-- Settles O3: the reader of each opcode takes the operand bytes its table entry says. -/
theorem commandLengthFixedByOpcode : Obligations.CommandLengthFixedByOpcode := by
  intro op bs
  cases hop : operandCount op with
  | none => exact decodeCommand_reserved hop bs
  | some k => exact decodeCommand_takes hop bs

/-- Settles O4. -/
theorem reservedOpcodesRefused : Obligations.ReservedOpcodesRefused := by
  refine ⟨fun _ => operandCount_eq_none_iff, fun s op bs hhost hin hop => hostTurn_reserved hhost ?_⟩
  rw [hin]
  exact decodeCommand_reserved hop bs

/-- Settles O5, by the four classes. -/
theorem recordClassFromNoteByte : Obligations.RecordClassFromNoteByte := by
  intro c n d
  refine ⟨?_, ?_, fun he hr hn => decodeRecord_pitched he hr hn d, fun he hr hn => decodeRecord_reserved he hr hn d⟩
  · rintro rfl
    exact decodeRecord_noteEnd c d
  · rintro - rfl
    exact decodeRecord_noteRest c d

/-- Settles O2: a well-formed record's note byte is of that record's class. -/
theorem recordDecodeInvertsEncode : Obligations.RecordDecodeInvertsEncode := by
  intro c i hi hwf
  cases i with
  | endMark d => exact ⟨_, _, rfl, decodeRecord_noteEnd c d⟩
  | rest d => exact ⟨_, _, rfl, decodeRecord_noteRest c d⟩
  | note n d =>
    simp only [Instr.wf, Bool.and_eq_true, decide_eq_true_eq] at hwf
    obtain ⟨⟨⟨hn, he⟩, hr⟩, -⟩ := hwf
    exact ⟨n, d, rfl, decodeRecord_pitched he hr hn d⟩
  | _ => cases hi

/-- Settles O6: the commands by running the decoder, the records by their class. -/
theorem specWordsDecode : Obligations.SpecWordsDecode :=
  ⟨rfl, rfl, rfl, rfl, rfl, decodeRecord_pitched (by decide) (by decide) (by decide) 0x02,
    decodeRecord_noteRest Config.chip 0x01, decodeRecord_noteEnd Config.chip 0x77⟩

/-- Settles O16: an instruction that replies nothing leaves the replies as they are, by its frame. -/
theorem repliesAsTheTableSays : Obligations.RepliesAsTheTableSays := by
  intro i s t h
  cases i with
  | getColor | isAudioPlaying | readButtons =>
    cases h
    exact ⟨rfl, rfl⟩
  | readPixel x y =>
    simp only [exec, execReadPixel, sext8] at h
    cases hp : gridPoint x.toInt y.toInt with
    | some p =>
      rw [replyBytes_readPixel_of_some hp]
      rw [hp] at h
      cases h
      exact ⟨rfl, rfl⟩
    | none =>
      rw [replyBytes_readPixel_of_none hp]
      rw [hp] at h
      cases h
      exact ⟨rfl, rfl⟩
  | _ =>
    rw [exec_frame h]
    exact ⟨(List.append_nil _).symm, rfl⟩

end

section
/-! What each class of song record does once its bytes are read, START_SONG at a record (spec/43_sequencer.md R220 to
R226), and the statements about them. -/

namespace Sys2Proof.Machine

/-! ### A note or a rest -/

/-- The state of a note or rest n before its duration is loaded: NOTE and CURSOR set, and PDELTA its note table entry if
it has one, else the previous delta (R220, R223). -/
def State.beginNote (s : State) (n : Byte) : State :=
  { s.acceptRecord n with pdelta := (noteDelta? s.cfg n).getD s.pdelta }

/-- The state after a note or rest n of v ticks (R220). -/
def State.loadedNote (s : State) (n : Byte) (v : Word) : State := { s.beginNote n with rem := v }.setBreakpoints

theorem State.loadedNote_durationLoaded (s : State) (n : Byte) (v : Word) : DurationLoaded s (s.loadedNote n v) v :=
  ⟨rfl, rfl, rfl, rfl, rfl, rfl⟩

theorem State.loadedNote_pdelta_of_lt {n : Byte} (h : n.toNat < 37) (s : State) (v : Word) :
    (s.loadedNote n v).pdelta = s.cfg.noteTable[n.toNat] := by
  simp [State.loadedNote, State.beginNote, noteDelta?_of_lt h]

theorem State.loadedNote_pdelta_of_le {n : Byte} (h : 37 ≤ n.toNat) (s : State) (v : Word) :
    (s.loadedNote n v).pdelta = s.pdelta := by
  simp [State.loadedNote, State.beginNote, noteDelta?_of_le h]

theorem State.loadDuration_of_lt {d : Byte} (h : d.toNat < 48) (s : State) :
    s.loadDuration d = .next { s with rem := s.cfg.durTable[d.toNat] }.setBreakpoints := by
  rw [State.loadDuration, durTicks?_of_lt h]

theorem State.loadDuration_of_le {d : Byte} (h : 48 ≤ d.toNat) (s : State) :
    s.loadDuration d = .refused (.reservedDuration d) := by
  rw [State.loadDuration, durTicks?_of_le h]

theorem execRest_eq (d : Byte) (s : State) : execRest d s = (s.beginNote s.cfg.noteRest).loadDuration d := by
  simp only [execRest, State.acceptRecord_cfg, State.beginNote]
  cases noteDelta? s.cfg s.cfg.noteRest <;> rfl

theorem execNote_of_lt {n : Byte} (h : n.toNat < 37) (d : Byte) (s : State) :
    execNote n d s = (s.beginNote n).loadDuration d := by
  simp only [execNote, State.acceptRecord_cfg, State.beginNote, noteDelta?_of_lt h]
  rfl

theorem execNote_of_le {n : Byte} (h : 37 ≤ n.toNat) (d : Byte) (s : State) :
    execNote n d s = .refused (.reservedNote n) := by
  simp only [execNote, State.acceptRecord_cfg, noteDelta?_of_le h]

/-! ### LOADNOTE, by the class of the note byte (R110, R220) -/

/-- s with both bytes of the record at CURSOR read (R73). -/
def State.readRecord (s : State) : State := (s.readSong s.cursor).readSong (s.cursor + 1)

theorem loadNote_noteEnd {s : State} (h : s.songByte s.cursor = s.cfg.noteEnd) :
    loadNote s = .next (s.readRecord.acceptRecord s.cfg.noteEnd) := by
  simp only [loadNote, State.readSong_cfg, h, classifyNote_noteEnd]
  rfl

theorem loadNote_sounding {s : State} (he : s.songByte s.cursor ≠ s.cfg.noteEnd)
    (h : (s.songByte s.cursor).toNat < 37 ∨ s.songByte s.cursor = s.cfg.noteRest) :
    loadNote s = (s.readRecord.beginNote (s.songByte s.cursor)).loadDuration (s.songByte (s.cursor + 1)) := by
  by_cases hr : s.songByte s.cursor = s.cfg.noteRest
  · simp only [loadNote, State.readSong_cfg, hr, classifyNote_noteRest]
    exact execRest_eq _ s.readRecord
  · have hn : (s.songByte s.cursor).toNat < 37 := h.resolve_right hr
    simp only [loadNote, State.readSong_cfg, classifyNote_pitched he hr (by omega)]
    exact execNote_of_lt hn _ s.readRecord

theorem loadNote_reserved {s : State} (he : s.songByte s.cursor ≠ s.cfg.noteEnd)
    (hr : s.songByte s.cursor ≠ s.cfg.noteRest) (hn : 37 ≤ (s.songByte s.cursor).toNat) :
    loadNote s = .refused (.reservedNote (s.songByte s.cursor)) := by
  simp only [loadNote, State.readSong_cfg, classifyNote_reserved he hr (by omega)]

/-! ### START_SONG (R225) -/

/-- Playback stopped and the address recorded, before the first record of a song is loaded. -/
def State.beginSong (s : State) (seq : Word) : State := { s.stopPlayback with cursor := seq, loopStart := seq }

/-- The phase and the pipelined level initialised once the first record is loaded. -/
def State.initPhase (s : State) : State := { s with phase := 0x0000, pwmNext := waveSample s.cfg s.wsel 0 }

theorem startSong_of_next {s u : State} {seq : Word} (h : loadNote (s.beginSong seq) = .next u) :
    startSong seq s = .next u.initPhase.startPlayback :=
  congrArg (andThen · fun u => .next u.initPhase.startPlayback) h

theorem startSong_of_refused {s : State} {seq : Word} {r : Refusal} (h : loadNote (s.beginSong seq) = .refused r) :
    startSong seq s = .refused r :=
  congrArg (andThen · fun u => .next u.initPhase.startPlayback) h

theorem State.startPlayback_noteEnd {s : State} (h : s.note = s.cfg.noteEnd) : s.startPlayback = s := if_pos h

theorem State.startPlayback_of_ne {s : State} (h : s.note ≠ s.cfg.noteEnd) :
    s.startPlayback = { s with playing := true } := if_neg h

/-- What starting a song has done when both bytes of its first record are read. -/
theorem State.beginSong_readRecord (s : State) (seq : Word) :
    (s.beginSong seq).readRecord = { s with
      playing := false, pwmEn := false, cursor := seq, loopStart := seq
      trace := s.trace ++ [.pwmEnable false, .songRead seq, .songRead (seq + 1)] } := by
  simp [State.beginSong, State.readRecord, State.readSong_readSong, State.stopPlayback, State.disablePwm]

theorem exec_playSong_of_ne {seq : Word} (h : seq ≠ 0) (s : State) : exec (.playSong seq) s = startSong seq s :=
  if_neg h

end Sys2Proof.Machine

open Sys2Proof Sys2Proof.Machine

/-- Settles O36, by the range of the duration byte. -/
theorem restLoadsDuration : Obligations.RestLoadsDuration := by
  intro s d
  have hexec : exec (.rest d) s = (s.beginNote s.cfg.noteRest).loadDuration d := execRest_eq d s
  refine ⟨fun hd => ⟨s.loadedNote s.cfg.noteRest s.cfg.durTable[d.toNat], ?_, rfl, rfl,
    s.loadedNote_durationLoaded _ _, fun hn => State.loadedNote_pdelta_of_lt hn s _,
    fun hn => State.loadedNote_pdelta_of_le hn s _, rfl⟩, fun hd => ?_⟩
  · rw [hexec, State.loadDuration_of_lt hd]
    rfl
  · rw [hexec, State.loadDuration_of_le hd]

/-- Settles O37, by the ranges of the two bytes. -/
theorem noteLoadsDeltaAndDuration : Obligations.NoteLoadsDeltaAndDuration := by
  intro s n d
  have hexec (hn : n.toNat < 37) : exec (.note n d) s = (s.beginNote n).loadDuration d := execNote_of_lt hn d s
  refine ⟨fun hn hd => ⟨s.loadedNote n s.cfg.durTable[d.toNat], ?_, rfl, rfl,
    State.loadedNote_pdelta_of_lt hn s _, s.loadedNote_durationLoaded _ _, rfl⟩,
    fun hn => execNote_of_le hn d s, fun hn hd => ?_⟩
  · rw [hexec hn, State.loadDuration_of_lt hd]
    rfl
  · rw [hexec hn, State.loadDuration_of_le hd]

/-- Settles O38, by the class of the note byte at the address and the range of the duration byte. -/
theorem playSongStartsAtAddress : Obligations.PlaySongStartsAtAddress := by
  intro s seq n d
  have sounding (he : n ≠ s.cfg.noteEnd) (hn : n.toNat < 37 ∨ n = s.cfg.noteRest) :
      loadNote (s.beginSong seq) = ((s.beginSong seq).readRecord.beginNote n).loadDuration d :=
    loadNote_sounding (s := s.beginSong seq) he hn
  refine ⟨rfl, fun hseq he => ?_, fun hseq he hn hd => ?_, fun hseq he hr hn => ?_, fun hseq he hn hd => ?_⟩
  · have hload : loadNote (s.beginSong seq) = .next ((s.beginSong seq).readRecord.acceptRecord s.cfg.noteEnd) :=
      loadNote_noteEnd (s := s.beginSong seq) he
    rw [exec_playSong_of_ne hseq, startSong_of_next hload, State.startPlayback_noteEnd rfl,
      State.beginSong_readRecord, he]
    rfl
  · let v := s.cfg.durTable[d.toNat]
    have hload : loadNote (s.beginSong seq) = .next ((s.beginSong seq).readRecord.loadedNote n v) := by
      rw [sounding he hn, State.loadDuration_of_lt hd]
      rfl
    refine ⟨_, (exec_playSong_of_ne hseq s).trans (startSong_of_next hload), ?_⟩
    rw [State.startPlayback_of_ne he, State.beginSong_readRecord]
    exact ⟨rfl, rfl, rfl, rfl, rfl, State.loadedNote_durationLoaded _ n v,
      fun hn => State.loadedNote_pdelta_of_lt hn _ v, fun hn => State.loadedNote_pdelta_of_le hn _ v, rfl, rfl, rfl⟩
  · rw [exec_playSong_of_ne hseq]
    exact startSong_of_refused (loadNote_reserved (s := s.beginSong seq) he hr hn)
  · rw [exec_playSong_of_ne hseq]
    exact startSong_of_refused ((sounding he hn).trans (State.loadDuration_of_le hd _))

end

section
/-! The tick scheduler (spec/40_tick_scheduler.md): TICK while RUN = 1, the row counter and the cycle counter in one
piece per case, the ticks left to the end of a multiplex cycle, AUDIO_STEP inside a note, and the statements about them. -/

namespace Sys2Proof.Machine

/-! ### TICK and AUDIO_STEP while Idle (R140 to R142, R161) -/

theorem tick_of_not_run {s : State} (h : s.run = false) (sw : Mask) : tick sw s = .next s := if_pos h

theorem tick_of_run {s : State} (h : s.run = true) (sw : Mask) :
    tick sw s = andThen (audioStep s) fun u => .next (u.rowStep sw) := if_neg (by simp [h])

theorem tick_of_audioStep {s u : State} (h : s.run = true) (hu : audioStep s = .next u) (sw : Mask) :
    tick sw s = .next (u.rowStep sw) := by
  rw [tick_of_run h, hu, andThen_next]

theorem audioStep_of_idle {s : State} (h : s.playing = false) : audioStep s = .next s := if_pos h

/-! ### The end of a cycle (R144) -/

theorem State.cycleDone_of_last {s : State} (h : s.swapCnt.toNat = 1) :
    s.cycleDone = { s with swapCnt := s.swapInterval, ready := true } := by
  have h0 : s.swapCnt - 1 = 0 := sub_eq_zero.mpr (BitVec.eq_of_toNat_eq h)
  exact if_pos h0

theorem State.cycleDone_of_not_last {s : State} (h : s.swapCnt.toNat ≠ 1) :
    s.cycleDone = { s with swapCnt := s.swapCnt - 1 } := by
  have h0 : s.swapCnt - 1 ≠ 0 := fun h0 => h (by rw [sub_eq_zero.mp h0]; rfl)
  exact if_neg h0

/-! ### The row counter (R140, R143) -/

theorem State.muxStep_setRowdiv (s : State) (v : BitVec 5) (sw : Mask) (p : Fin 10) :
    (s.setRowdiv v).muxStep sw p = (s.muxStep sw p).setRowdiv v := by
  by_cases hp : p = 0
  · subst hp
    rfl
  · simp only [State.muxStep_of_ne_zero _ sw hp]
    rfl

/-- The 20th tick before the cycle counter is looked at: one multiplexer step at the phase held, which then advances,
and the row counter back at 20 (R140, R143). -/
def State.driveRow (s : State) (sw : Mask) : State :=
  { s.muxStep sw s.rphase with rowdiv := 20, rphase := s.rphase + 1 }

@[simp] theorem State.driveRow_rowdiv (s : State) (sw : Mask) : (s.driveRow sw).rowdiv = 20 := rfl
@[simp] theorem State.driveRow_rphase (s : State) (sw : Mask) : (s.driveRow sw).rphase = s.rphase + 1 := rfl
@[simp] theorem State.driveRow_run (s : State) (sw : Mask) : (s.driveRow sw).run = s.run := by
  rw [State.driveRow, State.muxStep_frame]
@[simp] theorem State.driveRow_swapInterval (s : State) (sw : Mask) :
    (s.driveRow sw).swapInterval = s.swapInterval := by
  rw [State.driveRow, State.muxStep_frame]
@[simp] theorem State.driveRow_swapCnt (s : State) (sw : Mask) : (s.driveRow sw).swapCnt = s.swapCnt := by
  rw [State.driveRow, State.muxStep_frame]
@[simp] theorem State.driveRow_ready (s : State) (sw : Mask) : (s.driveRow sw).ready = s.ready := by
  rw [State.driveRow, State.muxStep_frame]

theorem State.rowStep_counting {s : State} (h : s.rowdiv.toNat ≠ 1) (sw : Mask) :
    s.rowStep sw = { s with rowdiv := s.rowdiv - 1 } :=
  State.rowStep_of_ne s sw fun h0 => h (by rw [sub_eq_zero.mp h0]; rfl)

theorem State.rowStep_driving {s : State} (h : s.rowdiv.toNat = 1) (sw : Mask) :
    s.rowStep sw = if s.rphase = 9 then (s.driveRow sw).cycleDone else s.driveRow sw := by
  rw [State.rowStep_of_eq s sw (sub_eq_zero.mpr (BitVec.eq_of_toNat_eq h)), State.muxStep_setRowdiv]
  rfl

theorem State.rowStep_insideCycle {s : State} (h : s.rowdiv.toNat = 1) (hp : s.rphase.val ≠ 9) (sw : Mask) :
    s.rowStep sw = s.driveRow sw := by
  rw [State.rowStep_driving h, if_neg fun h9 => hp (by rw [h9]; rfl)]

theorem State.rowStep_cycleEnd {s : State} (h : s.rowdiv.toNat = 1) (hp : s.rphase.val = 9) (sw : Mask) :
    s.rowStep sw = (s.driveRow sw).cycleDone := by
  rw [State.rowStep_driving h, if_pos (Fin.ext hp)]

/-- In both cases of the 20th tick the row is driven; the cycle counter and READY are the rest (R140). -/
theorem State.rowStep_driving_frame {s : State} (h : s.rowdiv.toNat = 1) (sw : Mask) :
    s.rowStep sw = { s.driveRow sw with swapCnt := (s.rowStep sw).swapCnt, ready := (s.rowStep sw).ready } := by
  rw [State.rowStep_driving h]
  split
  · exact State.cycleDone_frame _
  · rfl

/-! ### The last multiplex cycle before READY (R147) -/

/-- The scheduler runs in its last cycle before READY is set, n ticks before the cycle's end, and READY holds r. -/
structure TicksToCycleEnd (n : Nat) (r : Bool) (s : State) : Prop where
  run       : s.run = true
  rowdivPos : 1 ≤ s.rowdiv.toNat
  toEnd     : 20 * (9 - s.rphase.val) + s.rowdiv.toNat = n
  lastCycle : s.swapCnt.toNat = 1
  ready     : s.ready = r

/-- AUDIO_STEP does not touch the scheduler, so a tick is the row counter's work from the same place (R140, R142). -/
theorem TicksToCycleEnd.tick_rowStep {n : Nat} {r : Bool} {s t : State} {sw : Mask} (h : TicksToCycleEnd n r s)
    (ht : Machine.tick sw s = .next t) : ∃ u, TicksToCycleEnd n r u ∧ t = u.rowStep sw := by
  obtain ⟨h0, -⟩ | ⟨-, u, hu, rfl⟩ := tick_cases ht
  · exact absurd h.run (by rw [h0]; decide)
  · refine ⟨u, ?_, rfl⟩
    rw [audioStep_frame hu]
    exact { h with }

/-- A row counter's work that does not end the cycle brings its end one tick nearer and keeps READY. -/
theorem TicksToCycleEnd.rowStep {n : Nat} {r : Bool} {s : State} (h : TicksToCycleEnd (n + 2) r s) (sw : Mask) :
    TicksToCycleEnd (n + 1) r (s.rowStep sw) := by
  obtain ⟨hrun, hpos, hend, hcnt, hready⟩ := h
  by_cases hd : s.rowdiv.toNat = 1
  · have hp : s.rphase.val < 9 := by omega
    have hnext : (s.rphase + 1).val = s.rphase.val + 1 := by rw [Fin.val_add]; exact Nat.mod_eq_of_lt (by omega)
    have htop : (20 : BitVec 5).toNat = 20 := rfl
    rw [State.rowStep_insideCycle hd hp.ne]
    refine ⟨by simpa, by simp, ?_, by simpa, by simpa⟩
    simp only [State.driveRow_rowdiv, State.driveRow_rphase, hnext, htop]
    omega
  · have hdown : (s.rowdiv - 1).toNat = s.rowdiv.toNat - 1 := BitVec.toNat_sub_of_le (BitVec.le_def.mpr hpos)
    rw [State.rowStep_counting hd]
    exact ⟨hrun, by simp only [hdown]; omega, by simp only [hdown]; omega, hcnt, hready⟩

theorem TicksToCycleEnd.tick {n : Nat} {r : Bool} {s t : State} {sw : Mask} (h : TicksToCycleEnd (n + 2) r s)
    (ht : Machine.tick sw s = .next t) : TicksToCycleEnd (n + 1) r t := by
  obtain ⟨u, hu, rfl⟩ := h.tick_rowStep ht
  exact hu.rowStep sw

theorem TicksToCycleEnd.ticks {n : Nat} {r : Bool} {sws : List Mask} {s t : State}
    (h : TicksToCycleEnd (sws.length + (n + 1)) r s) (ht : Machine.ticks sws s = .next t) :
    TicksToCycleEnd (n + 1) r t := by
  induction sws generalizing s with
  | nil =>
    cases ht
    simpa using h
  | cons sw sws ih =>
    obtain ⟨u, hu, hrest⟩ := andThen_eq_next.mp ht
    have h : TicksToCycleEnd (sws.length + n + 2) r s := by
      convert h using 1
      simp only [List.length_cons]
      omega
    exact ih (h.tick hu) hrest

/-- The tick that ends the last cycle restarts the counters and sets READY (R144, R147). -/
theorem TicksToCycleEnd.lastTick {r : Bool} {s t : State} {sw : Mask} (h : TicksToCycleEnd 1 r s)
    (ht : Machine.tick sw s = .next t) :
    t.rphase = 0 ∧ t.rowdiv = 20 ∧ t.swapCnt = t.swapInterval ∧ t.ready = true := by
  obtain ⟨u, ⟨-, hpos, hend, hcnt, -⟩, rfl⟩ := h.tick_rowStep ht
  have hd : u.rowdiv.toNat = 1 := by omega
  have hp : u.rphase.val = 9 := by omega
  have hnext : u.rphase + 1 = 0 := by rw [show u.rphase = 9 from Fin.ext hp]; rfl
  have hcnt : (u.driveRow sw).swapCnt.toNat = 1 := by simpa
  rw [State.rowStep_cycleEnd hd hp, State.cycleDone_of_last hcnt]
  exact ⟨hnext, rfl, rfl, rfl⟩

/-! ### A tick inside a note (R160, R163 to R171) -/

/-- A sample is read at its index modulo 32 (R166). -/
theorem waveSample_of_val {n : Nat} {i : Fin 32} (h : i.val = n % 32) (c : Config) (w : Fin 3) :
    waveSample c w n = c.wave[w.val][i.val] := by
  simp only [waveSample, h]

theorem State.outputLevel_of_sounding {s : State} (h : s.note ≠ s.cfg.noteRest) :
    s.outputLevel = s.enablePwm.setPwmLevel s.pwmNext := if_neg h

theorem State.outputLevel_of_rest {s : State} (h : s.note = s.cfg.noteRest) : s.outputLevel = s.disablePwm := if_pos h

/-- Steps 2 to 6 of AUDIO_STEP are the synthesis: the level output first changes nothing that the later steps read. -/
theorem soundTick_synthesised (s : State) : Synthesised s (s.outputLevel.synthesise.setRem (s.rem - 1)) := by
  have hlevel : s.outputLevel.synthesise.pwmNext = s.synthesise.pwmNext := by
    rw [State.outputLevel_frame]
    rfl
  rw [State.soundTick_eq]
  refine ⟨fun hn => ?_, fun hn => ?_, rfl, rfl, rfl, fun i0 i1 h0 h1 => ?_⟩
  · rw [State.outputLevel_of_sounding hn]
    exact ⟨rfl, rfl⟩
  · rw [State.outputLevel_of_rest hn]
    exact ⟨rfl, rfl⟩
  · have hi0 : i0.val = (intPart s.phase).toNat % 32 % 32 := by rw [Nat.mod_mod]; exact h0
    have hi1 : i1.val = ((intPart s.phase).toNat % 32 + 1) % 32 := by rw [← h0]; exact h1
    rw [hlevel, State.synthesise_pwmNext, waveSample_of_val hi0, waveSample_of_val hi1]

/-- What the synthesis and the counter write, and the port actions they take (R163 to R165, R174). -/
theorem soundTick_frame {s u : State} (h : u = s.outputLevel.synthesise.setRem (s.rem - 1)) :
    u = { s with
      phase := u.phase, env := u.env, envDelta := u.envDelta, pwmNext := u.pwmNext, pwmLevel := u.pwmLevel
      pwmEn := u.pwmEn, rem := s.rem - 1, trace := s.trace ++ pwmActions s } := by
  rw [h, State.soundTick_eq, State.outputLevel_trace]
  rfl

/-- The row counter's work leaves the synthesis as it is (R142). -/
theorem Synthesised.rowStep {s u : State} (h : Synthesised s u) (sw : Mask) : Synthesised s (u.rowStep sw) := by
  rw [State.rowStep_frame]
  exact h

end Sys2Proof.Machine

open Sys2Proof Sys2Proof.Machine

/-- Settles O43: with RUN = 0 TICK is ignored, and while Idle its AUDIO_STEP changes nothing, so the row counter's work
is left. -/
theorem ticksBeforeInitAndWhileIdle : Obligations.TicksBeforeInitAndWhileIdle := fun s sw =>
  ⟨fun hrun => tick_of_not_run hrun sw,
    fun hrun hidle => ⟨tick_of_audioStep hrun (audioStep_of_idle hidle) sw, s.rowStep_frame sw⟩⟩

/-- Settles O44: off the 20th tick the row counter counts, on it the row is driven. -/
theorem everyTwentiethTickDrivesNextPhase : Obligations.EveryTwentiethTickDrivesNextPhase := by
  intro s sw
  refine ⟨fun h => State.rowStep_counting h sw, fun h => ?_⟩
  rw [State.rowStep_driving_frame h]
  refine ⟨rfl, Fin.val_add s.rphase 1, rfl, rfl, rfl, rfl, rfl, fun hp => ?_⟩
  rw [State.rowStep_insideCycle h hp]
  exact ⟨s.driveRow_swapCnt sw, s.driveRow_ready sw⟩

/-- Settles O45, by the value of the cycle counter. -/
theorem cycleEndCountsAndSignals : Obligations.CycleEndCountsAndSignals := by
  intro s sw h hp
  rw [State.rowStep_cycleEnd h hp]
  refine ⟨fun hc => ?_, fun hc => ?_⟩
  · rw [State.cycleDone_of_last (by simpa)]
    exact ⟨s.driveRow_swapInterval sw, rfl⟩
  · rw [State.cycleDone_of_not_last (by simpa)]
    exact ⟨congrArg (· - 1) (s.driveRow_swapCnt sw), s.driveRow_ready sw⟩

/-- Settles O47: from the start of a cycle its end is 200 ticks away, and each tick brings it one nearer. -/
theorem twoHundredTicksMakeOneCycle : Obligations.TwoHundredTicksMakeOneCycle := by
  intro s sws hrun hdiv hphase hcnt
  have hstart : TicksToCycleEnd 200 s.ready s := by
    refine ⟨hrun, ?_, ?_, ?_, rfl⟩
    · rw [hdiv]; decide
    · rw [hdiv, hphase]; rfl
    · rw [hcnt]; rfl
  constructor
  · intro t hlen ht
    obtain rfl | ⟨sws, sw, rfl⟩ := sws.eq_nil_or_concat
    · cases hlen
    · have hlen : sws.length = 199 := by simpa using hlen
      rw [List.concat_eq_append, ticks_append] at ht
      obtain ⟨u, hu, hlast⟩ := andThen_eq_next.mp ht
      obtain ⟨v, hv, hk⟩ := andThen_eq_next.mp hlast
      cases hk
      exact (TicksToCycleEnd.ticks (n := 0) (by rwa [hlen]) hu).lastTick hv
  · intro t hlen ht
    obtain ⟨n, hn⟩ := Nat.exists_eq_add_of_lt hlen
    exact (TicksToCycleEnd.ticks (n := n) (by rwa [← add_assoc, ← hn]) ht).ready

/-- Settles O51: the tick is the synthesis and the counter (R160), and then the row counter's work (R142). -/
theorem synthesisTickIsPipelined : Obligations.SynthesisTickIsPipelined := by
  intro s sw hrun hplaying hnote hrem
  have hmore : s.rem - 1 ≠ 0 := fun h0 => by
    rw [sub_eq_zero.mp h0] at hrem
    exact absurd hrem (by decide)
  have hframe := soundTick_frame (s := s) rfl
  have hsynth := soundTick_synthesised s
  refine ⟨_, _, hsynth, hframe, tick_of_audioStep hrun (audioStep_insideNote hplaying hnote hmore) sw, rfl,
    hsynth.rowStep sw, ?_⟩
  rw [State.rowStep_frame, State.soundTick_eq]
  exact ⟨rfl, hplaying, rfl, rfl, rfl⟩

end

section
/-! The arithmetic of the audio datapath (spec/41_dds_audio.md R167 to R172), AUDIO_STEP on a note's last tick and at the
end sentinel (R160, R162), and the statements about them. -/

namespace Sys2Proof.Machine

/-! ### The phase accumulator (R17, R167) -/

theorem intPart_toNat (x : Fixed) : (intPart x).toNat = x.toNat / 256 := by
  rw [intPart, BitVec.extractLsb'_toNat, Nat.shiftRight_eq_div_pow]
  omega

theorem fracPart_toNat (x : Fixed) : (fracPart x).toNat = x.toNat % 256 := BitVec.extractLsb'_toNat 0 8 x

/-- Two bytes as one 8.8 value. -/
theorem append_toNat (i f : Byte) : (i ++ f).toNat = i.toNat * 256 + f.toNat := by
  rw [BitVec.toNat_append, ← Nat.shiftLeft_add_eq_or_of_lt f.isLt, Nat.shiftLeft_eq]

theorem phaseAdvance_toNat (p d : Fixed) : (phaseAdvance p d).toNat = (p.toNat + d.toNat) % 8192 := by
  simp only [phaseAdvance, append_toNat, intPart_toNat, fracPart_toNat, BitVec.toNat_ofNat]
  split <;> omega

/-- Advances accumulate: n of them from inside the table are n times the delta, modulo the table (R167). -/
theorem iterate_phaseAdvance_toNat {p : Fixed} (d : Fixed) (hp : p.toNat < 8192) (n : ℕ) :
    ((fun q => phaseAdvance q d)^[n] p).toNat = (p.toNat + n * d.toNat) % 8192 := by
  induction n with
  | zero => simpa using (Nat.mod_eq_of_lt hp).symm
  | succ n ih =>
    rw [Function.iterate_succ_apply', phaseAdvance_toNat, ih, Nat.mod_add_mod, Nat.succ_mul, Nat.add_assoc]

/-! ### Interpolation and level (R168 to R172) -/

/-- The exact interpolation weights the two samples by 256 - f and f (R168). -/
theorem interpExact_eq (s0 s1 f : Byte) :
    interpExact s0 s1 f = s0.toNat * (256 - f.toNat : Int) + s1.toNat * (f.toNat : Int) := by
  unfold interpExact
  ring

/-- A weighted mean lies between bounds of its samples. -/
theorem interpExact_bounds {s0 s1 : Byte} {lo hi : Int} (h0 : lo ≤ s0.toNat ∧ s0.toNat ≤ hi)
    (h1 : lo ≤ s1.toNat ∧ s1.toNat ≤ hi) (f : Byte) :
    256 * lo ≤ interpExact s0 s1 f ∧ interpExact s0 s1 f ≤ 256 * hi := by
  have hf : (0 : Int) ≤ 256 - f.toNat := by have := f.isLt; omega
  have hf' : (0 : Int) ≤ f.toNat := by omega
  rw [interpExact_eq]
  constructor
  · calc 256 * lo = lo * (256 - f.toNat) + lo * f.toNat := by ring
      _ ≤ _ := by gcongr <;> omega
  · calc _ ≤ hi * (256 - f.toNat) + hi * f.toNat := by gcongr <;> omega
      _ = 256 * hi := by ring

/-- Where the clamp changes nothing, the two tests of the rounding are one division: half up (R169, R170). -/
theorem interpolate_of_nonneg {s0 s1 f : Byte} (h : 0 ≤ interpExact s0 s1 f) :
    (interpolate s0 s1 f : Int) = (interpExact s0 s1 f + 128) / 256 := by
  simp only [interpolate, if_neg h.not_gt]
  split <;> omega

theorem levelProduct_toNat {v e : Nat} (hv : v ≤ 49) (he : e ≤ 64) : (levelProduct v e).toNat = v * e / 64 := by
  have hm : v * e ≤ 49 * 64 := Nat.mul_le_mul hv he
  rw [levelProduct, BitVec.toNat_ofNat]
  omega

/-! ### AUDIO_STEP on a note's last tick and at the end sentinel (R160, R162) -/

theorem audioStep_lastTick {s : State} (hp : s.playing = true) (hn : s.note ≠ s.cfg.noteEnd) (hr : s.rem - 1 = 0) :
    audioStep s = loadNote (s.outputLevel.synthesise.setRem (s.rem - 1)) := by
  have h : countDown s.outputLevel.synthesise = loadNote (s.outputLevel.synthesise.setRem (s.rem - 1)) := by
    unfold countDown
    rw [State.synthesise_rem]
    exact if_pos hr
  rw [audioStep, if_neg (by simp [hp]), if_neg hn, h]

theorem audioStep_of_noteEnd {s : State} (hp : s.playing = true) (hn : s.note = s.cfg.noteEnd) :
    audioStep s = endOfSong s := by
  rw [audioStep, if_neg (by simp [hp]), if_pos hn]

theorem endOfSong_restarting {s : State} (hl : s.loop = true) (h0 : s.loopStart ≠ 0) :
    endOfSong s = exec (.playSong s.loopStart) s :=
  (if_pos ⟨hl, h0⟩).trans (exec_playSong_of_ne h0 s).symm

theorem endOfSong_stopping {s : State} (h : s.loop = false ∨ s.loopStart = 0) : endOfSong s = .next s.stopPlayback :=
  if_neg fun ⟨hl, h0⟩ => h.elim (fun hf => by simp [hf] at hl) h0

end Sys2Proof.Machine

open Sys2Proof Sys2Proof.Machine

/-- Settles O48: n advances add n times the delta, and 32 times a whole delta is a multiple of the table's 8192. -/
theorem phaseAdvanceWrapsInTable : Obligations.PhaseAdvanceWrapsInTable := by
  refine ⟨phaseAdvance_toNat, intPart_phaseAdvance_le, fun p d hp hd => BitVec.eq_of_toNat_eq ?_⟩
  have hp : p.toNat < 8192 := by rw [intPart_toNat] at hp; omega
  have hd : d.toNat % 256 = 0 := by rw [← fracPart_toNat, hd]; rfl
  rw [iterate_phaseAdvance_toNat d hp]
  omega

/-- Settles O49: the exact value is a weighted mean, and rounding it is one division. -/
theorem interpolationRoundsBetweenSamples : Obligations.InterpolationRoundsBetweenSamples := by
  intro s0 s1 f _ _ t
  obtain ⟨hlo, hhi⟩ : 256 * (min s0.toNat s1.toNat : Int) ≤ t ∧ t ≤ 256 * (max s0.toNat s1.toNat : Int) :=
    interpExact_bounds ⟨min_le_left _ _, le_max_left _ _⟩ ⟨min_le_right _ _, le_max_right _ _⟩ f
  have hround : (interpolate s0 s1 f : Int) = (t + 128) / 256 := interpolate_of_nonneg (show 0 ≤ t by omega)
  refine ⟨hlo, hhi, ⟨?_, ?_⟩, ?_, ?_⟩ <;> omega

/-- Settles O50. -/
theorem levelStaysBelowTop : Obligations.LevelStaysBelowTop := by
  intro v e hv he
  refine ⟨levelProduct_toNat hv he, levelProduct_le hv he, ?_, ?_⟩
  · rw [levelProduct_toNat hv le_rfl, Nat.mul_div_cancel v (by decide)]
  · rw [levelProduct_toNat hv (by decide), Nat.mul_zero, Nat.zero_div]

/-- Settles O52: the counter at 1 comes down to 0, so LOADNOTE follows the synthesis. -/
theorem tickLoadsNextRecord : Obligations.TickLoadsNextRecord := by
  intro s sw hrun hplaying hnote hrem
  have hzero : s.rem - 1 = 0 := sub_eq_zero.mpr hrem
  have hframe := soundTick_frame (s := s) rfl
  refine ⟨_, soundTick_synthesised s, hzero ▸ hframe, ?_⟩
  rw [tick_of_run hrun, audioStep_lastTick hplaying hnote hzero]

/-- Settles O53: the end sentinel makes AUDIO_STEP the restart or the stop, and nothing else. -/
theorem endOfSongRestartsOrStops : Obligations.EndOfSongRestartsOrStops := by
  intro s sw hrun hplaying hnote
  have hstep := audioStep_of_noteEnd hplaying hnote
  refine ⟨fun hl h0 => ?_, fun h => ?_⟩
  · rw [tick_of_run hrun, hstep, endOfSong_restarting hl h0]
  · exact tick_of_audioStep hrun (hstep.trans (endOfSong_stopping h)) sw

end

section
/-! The Envelope Engine over a whole note (spec/42_envelope.md R190 to R202): what ENV_STEP leaves in the pair of value
and slope in each segment, whatever the pair held before the note's first tick; the run of ENV_STEPs of one note; and the
statements about breakpoints, envelope and setEnvelope. -/

namespace Sys2Proof.Machine

/-! ### setEnvelope (R205, R206) -/

theorem envelopePasses_iff {a d r : Byte} :
    envelopePasses a d r = true ↔ a.toNat + d.toNat + r.toNat < 256 ∧ d.toNat < 64 := by
  simp [envelopePasses]

theorem execSetEnvelope_rejected {a d r : Byte} (h : ¬envelopePasses a d r = true) (sus : Byte) (s : State) :
    execSetEnvelope a d sus r s = .next s :=
  if_pos (by simpa using h)

theorem execSetEnvelope_passed {a d r : Byte} (h : envelopePasses a d r = true) (sus : Byte) (s : State) :
    execSetEnvelope a d sus r s =
      if 64 ≤ sus.toNat then .refused (.envelopeSustainOutOfRange sus)
      else .next { s with envA := a, envD := d, envS := sus, envR := r } :=
  if_neg (by simp [h])

/-! ### Slopes add up to at most the rise (R195, R201) -/

/-- As many slopes as the segment has ticks, or fewer, stay within the rise. -/
theorem mul_slope_le {m n : ℕ} (h : m ≤ n) (rise : ℕ) : m * (rise / n) ≤ rise :=
  (Nat.mul_le_mul_right _ h).trans (Nat.mul_div_le rise n)

/-- One more slope added, with no wrap below full scale. -/
theorem add_slope_toNat {v d : Fixed} {m : ℕ} (h : v.toNat = m * d.toNat) (hfit : (m + 1) * d.toNat ≤ 16384) :
    (v + d).toNat = (m + 1) * d.toNat := by
  rw [Nat.succ_mul] at hfit ⊢
  rw [BitVec.toNat_add, h]
  omega

/-- One more slope taken off, with no wrap above 0. -/
theorem sub_slope_toNat {v d : Fixed} {m top : ℕ} (h : v.toNat + m * d.toNat = top) (hfit : (m + 1) * d.toNat ≤ top) :
    (v - d).toNat + (m + 1) * d.toNat = top := by
  rw [Nat.succ_mul] at hfit ⊢
  rw [BitVec.toNat_sub_of_le (BitVec.le_def.mpr (by omega))]
  omega

/-- With one more slope taken off from the same top, a value is no larger. -/
theorem le_of_one_more_slope {v v' m d top : ℕ} (h : v + m * d = top) (h' : v' + (m + 1) * d = top) : v' ≤ v := by
  rw [Nat.succ_mul] at h'
  omega

/-- The divisor of a slope is the number of ticks of its segment (R190). -/
theorem slope_sub_toNat {rise : ℕ} (h : rise ≤ 16384) {start stop : Word} (hle : stop.toNat ≤ start.toNat) :
    (slope rise (start - stop)).toNat = rise / (start.toNat - stop.toNat) := by
  rw [slope_toNat h, BitVec.toNat_sub_of_le (BitVec.le_def.mpr hle)]

/-! ### One ENV_STEP (R190, R194 to R198) -/

/-- Where a pair stands after the ENV_STEP at counter REM: `EnvelopeOnTrack` with that tick counted in, each clause on
the whole of its segment. -/
structure EnvelopeAfterTick (s : State) (p : EnvPair) : Prop where
  attack  : s.decStart.toNat < s.rem.toNat →
    p.delta.toNat = 16384 / (s.atkStart.toNat - s.decStart.toNat)
      ∧ p.value.toNat = (s.atkStart.toNat - s.rem.toNat + 1) * p.delta.toNat
  decay   : s.susStart.toNat < s.rem.toNat → s.rem.toNat ≤ s.decStart.toNat →
    p.delta.toNat = (64 - s.sAct.toNat) * 256 / (s.decStart.toNat - s.susStart.toNat)
      ∧ p.value.toNat + (s.decStart.toNat - s.rem.toNat + 1) * p.delta.toNat = 16384
  sustain : s.relStart.toNat < s.rem.toNat → s.rem.toNat ≤ s.susStart.toNat → p.value.toNat = s.sAct.toNat * 256
  release : s.rem.toNat ≤ s.relStart.toNat →
    p.delta.toNat = s.sAct.toNat * 256 / s.relStart.toNat
      ∧ p.value.toNat + (s.relStart.toNat - s.rem.toNat + 1) * p.delta.toNat = s.sAct.toNat * 256

section
variable {s : State}

theorem EnvelopeOnTrack.attackTick (hb : BreakpointsOrdered s) (ht : EnvelopeOnTrack s)
    (hc : s.decStart.toNat < s.rem.toNat) :
    s.envNext.delta.toNat = 16384 / (s.atkStart.toNat - s.decStart.toNat)
      ∧ s.envNext.value.toNat = (s.atkStart.toNat - s.rem.toNat + 1) * s.envNext.delta.toNat := by
  obtain ⟨hda, hsd, hrs, -, hra⟩ := hb
  have hfit := mul_slope_le (show s.atkStart.toNat - s.rem.toNat + 1 ≤ s.atkStart.toNat - s.decStart.toNat by omega) 16384
  by_cases hfirst : s.rem = s.atkStart
  · have hd := slope_sub_toNat (rise := 16384) le_rfl hda
    rw [State.envNext_attackStart hfirst hc (by omega)]
    exact ⟨hd, by simp [hfirst]⟩
  · have hlt : s.rem.toNat < s.atkStart.toNat := lt_of_le_of_ne hra fun h => hfirst (BitVec.eq_of_toNat_eq h)
    obtain ⟨hd, hv⟩ := ht.attack hc hlt
    rw [State.envNext_attack hfirst hc (by omega)]
    exact ⟨hd, add_slope_toNat hv (hd ▸ hfit)⟩

theorem EnvelopeOnTrack.decayTick (hb : BreakpointsOrdered s) (ht : EnvelopeOnTrack s)
    (hc : s.susStart.toNat < s.rem.toNat) (hd : s.rem.toNat ≤ s.decStart.toNat) :
    s.envNext.delta.toNat = (64 - s.sAct.toNat) * 256 / (s.decStart.toNat - s.susStart.toNat)
      ∧ s.envNext.value.toNat + (s.decStart.toNat - s.rem.toNat + 1) * s.envNext.delta.toNat = 16384 := by
  obtain ⟨hda, hsd, hrs, -, -⟩ := hb
  have hrise : (64 - s.sAct.toNat) * 256 ≤ 16384 := by omega
  have hfit := (mul_slope_le (show s.decStart.toNat - s.rem.toNat + 1 ≤ s.decStart.toNat - s.susStart.toNat by omega)
    ((64 - s.sAct.toNat) * 256)).trans hrise
  by_cases hfirst : s.rem = s.decStart
  · have hslope := slope_sub_toNat hrise hsd
    rw [State.envNext_decayStart hfirst hc (by omega)]
    refine ⟨hslope, sub_slope_toNat ?_ (hslope ▸ hfit)⟩
    simp [hfirst]
  · have hlt : s.rem.toNat < s.decStart.toNat := lt_of_le_of_ne hd fun h => hfirst (BitVec.eq_of_toNat_eq h)
    obtain ⟨hslope, hv⟩ := ht.decay hc hlt
    rw [State.envNext_decay hlt hda hc (by omega)]
    exact ⟨hslope, sub_slope_toNat hv (hslope ▸ hfit)⟩

theorem EnvelopeOnTrack.releaseTick (hb : BreakpointsOrdered s) (ht : EnvelopeOnTrack s) (hS : s.sAct.toNat ≤ 64)
    (hc : s.rem.toNat ≤ s.relStart.toNat) :
    s.envNext.delta.toNat = s.sAct.toNat * 256 / s.relStart.toNat
      ∧ s.envNext.value.toNat + (s.relStart.toNat - s.rem.toNat + 1) * s.envNext.delta.toNat = s.sAct.toNat * 256 := by
  obtain ⟨hda, hsd, hrs, hpos, -⟩ := hb
  have hfit := mul_slope_le (show s.relStart.toNat - s.rem.toNat + 1 ≤ s.relStart.toNat by omega) (s.sAct.toNat * 256)
  by_cases hfirst : s.rem = s.relStart
  · have hslope := slope_toNat (show s.sAct.toNat * 256 ≤ 16384 by omega) s.relStart
    have hv := ht.sustain (by rw [hfirst]) (by omega)
    have h0 : s.rem ≠ 0 := by rintro h; rw [h] at hpos; exact absurd hpos (by decide)
    rw [State.envNext_releaseStart hfirst h0 (by omega) hsd hda]
    refine ⟨hslope, sub_slope_toNat ?_ (hslope ▸ hfit)⟩
    simp [hfirst, hv]
  · have hlt : s.rem.toNat < s.relStart.toNat := lt_of_le_of_ne hc fun h => hfirst (BitVec.eq_of_toNat_eq h)
    obtain ⟨hslope, hv⟩ := ht.release hlt
    rw [State.envNext_release hlt hrs hsd hda]
    exact ⟨hslope, sub_slope_toNat hv (hslope ▸ hfit)⟩

/-- ENV_STEP carries the track over its tick. Nothing is asked of ENV and ENV_DELTA beyond the track, so this holds from
the first tick of a note whatever they held before it. -/
theorem EnvelopeOnTrack.afterTick (hb : BreakpointsOrdered s) (ht : EnvelopeOnTrack s) (hS : s.sAct.toNat ≤ 64) :
    EnvelopeAfterTick s s.envNext where
  attack := ht.attackTick hb
  decay := ht.decayTick hb
  sustain hr hs := by rw [State.envNext_sustain (hs.trans hb.decayNext) hs hr, sustainLevel_toNat hS]
  release := ht.releaseTick hb hS

/-- The value is at most full scale (R201, R202). -/
theorem EnvelopeAfterTick.value_le {p : EnvPair} (h : EnvelopeAfterTick s p) (hb : BreakpointsOrdered s)
    (hS : s.sAct.toNat ≤ 64) : p.value.toNat ≤ 16384 := by
  obtain hatk | hdec := Nat.lt_or_ge s.decStart.toNat s.rem.toNat
  · obtain ⟨hd, hv⟩ := h.attack hatk
    rw [hv, hd]
    exact mul_slope_le (by have := hb.remInNote; omega) 16384
  obtain hdec' | hsus := Nat.lt_or_ge s.susStart.toNat s.rem.toNat
  · have := (h.decay hdec' hdec).2
    omega
  obtain hsus' | hrel := Nat.lt_or_ge s.relStart.toNat s.rem.toNat
  · have := h.sustain hsus' hsus
    omega
  · have := (h.release hrel).2
    omega

/-- The state after one envelope step of a note stands on the track, one tick on. -/
theorem EnvelopeAfterTick.onTrack (h : EnvelopeAfterTick s s.envNext) (hb : BreakpointsOrdered s) {r : Word}
    (hr : r.toNat = s.rem.toNat - 1) : EnvelopeOnTrack { s.envStep with rem := r } := by
  obtain ⟨-, -, -, hpos, hra⟩ := hb
  have hcount : ∀ {b : ℕ}, s.rem.toNat ≤ b → b - (s.rem.toNat - 1) = b - s.rem.toNat + 1 := by omega
  constructor <;> simp only [State.envStep, hr]
  · intro hlo _
    rw [hcount hra]
    exact h.attack (by omega)
  · intro hlo hhi
    rw [hcount (by omega)]
    exact h.decay (by omega) (by omega)
  · intro hlo hhi
    exact h.sustain (by omega) (by omega)
  · intro hhi
    rw [hcount (by omega)]
    exact h.release (by omega)

end

/-! ### The ENV_STEPs of one note (R160 steps 5 and 6) -/

/-- They write ENV, ENV_DELTA and REM alone. -/
theorem envTicks_frame (k : ℕ) (s : State) :
    envTicks k s =
      { s with env := (envTicks k s).env, envDelta := (envTicks k s).envDelta, rem := (envTicks k s).rem } := by
  induction k generalizing s with
  | zero => rfl
  | succ k ih => exact ih _

/-- The last of them is an ENV_STEP of the state the others leave. -/
theorem envTicks_succ_env (k : ℕ) (s : State) : (envTicks (k + 1) s).env = (envTicks k s).envNext.value := by
  induction k generalizing s with
  | zero => rfl
  | succ k ih => exact ih _

/-- An envelope step that is not the note's last leaves the note in progress. -/
theorem NoteInProgress.envStep {s : State} (h : NoteInProgress s) (hS : s.sAct.toNat ≤ 64) {r : Word}
    (hr : r.toNat = s.rem.toNat - 1) (h2 : 2 ≤ s.rem.toNat) : NoteInProgress { s.envStep with rem := r } := by
  obtain ⟨hb, ht⟩ := h
  refine ⟨?_, (ht.afterTick hb hS).onTrack hb hr⟩
  obtain ⟨hda, hsd, hrs, -, hra⟩ := hb
  exact ⟨hda, hsd, hrs, by simp only [hr]; omega, by simp only [hr]; exact (Nat.sub_le _ _).trans hra⟩

/-- After fewer ticks than the note has left, it is still in progress, that many ticks on. -/
theorem NoteInProgress.envTicks {s : State} {k : ℕ} (h : NoteInProgress s) (hS : s.sAct.toNat ≤ 64)
    (hk : k < s.rem.toNat) :
    NoteInProgress (envTicks k s) ∧ (envTicks k s).rem.toNat = s.rem.toNat - k := by
  induction k generalizing s with
  | zero => exact ⟨h, rfl⟩
  | succ k ih =>
    have hr : (s.rem - 1).toNat = s.rem.toNat - 1 := BitVec.toNat_sub_of_le (BitVec.le_def.mpr (by simp; omega))
    obtain ⟨hp, hrem⟩ := ih (s := { s.envStep with rem := s.rem - 1 }) (h.envStep hS hr (by omega)) hS
      (by simp only [hr]; omega)
    exact ⟨hp, hrem.trans (by simp only [hr]; omega)⟩

/-! ### Rounding (R17, R200) -/

/-- Rounding half up is one division. -/
theorem round8_8_eq (x : Fixed) : round8_8 x = (x.toNat + 128) / 256 := by
  unfold round8_8
  rw [intPart_toNat, fracPart_toNat]
  split <;> omega

theorem round8_8_mono {x y : Fixed} (h : x.toNat ≤ y.toNat) : round8_8 x ≤ round8_8 y := by
  rw [round8_8_eq, round8_8_eq]
  omega

end Sys2Proof.Machine

open Sys2Proof Sys2Proof.Machine

/-- Settles O33: each clause decides the two tests of setEnvelope. -/
theorem setEnvelopeChecksOperands : Obligations.SetEnvelopeChecksOperands := by
  intro s a d sus r
  refine ⟨fun h => ?_, fun hsum hd hs => ?_, fun hsum hd hs => ?_⟩
  · exact execSetEnvelope_rejected (by rw [envelopePasses_iff]; omega) sus s
  · exact (execSetEnvelope_passed (envelopePasses_iff.mpr ⟨hsum, hd⟩) sus s).trans (if_neg (by omega))
  · exact (execSetEnvelope_passed (envelopePasses_iff.mpr ⟨hsum, hd⟩) sus s).trans (if_pos hs)

/-- Settles O39: in order, the breakpoints cut the note into segments that add up to it. -/
theorem breakpointsInOrder : Obligations.BreakpointsInOrder := by
  intro s hlegal hrem t
  have hb : BreakpointsOrdered t := State.setBreakpoints_ordered hlegal hrem
  obtain ⟨hda, hsd, hrs, -, -⟩ := hb
  have hatk : t.atkStart.toNat = s.rem.toNat := rfl
  exact ⟨hatk, hda, hsd, hrs, by omega⟩

/-- Settles O54: before its first tick a note stands on its track, k ticks keep it there, and tick k is one ENV_STEP. -/
theorem envelopeFollowsFourSegments : Obligations.EnvelopeFollowsFourSegments := by
  intro s k hlegal hk b t atk dec sus rel c
  have hb : BreakpointsOrdered b := State.setBreakpoints_ordered hlegal (by omega)
  have hS : b.sAct.toNat ≤ 64 := (controlsLegal_iff.mp hlegal).2.2.le
  obtain ⟨⟨hord, htrack⟩, hrem⟩ := NoteInProgress.envTicks ⟨hb, .of_firstTick hb rfl⟩ hS hk
  have henv : t.env = (envTicks k b).envNext.value := envTicks_succ_env k b
  have hframe := envTicks_frame k b
  generalize envTicks k b = u at hord htrack hrem henv hframe
  have hS' : u.sAct.toNat ≤ 64 := by rw [hframe]; exact hS
  have h := htrack.afterTick hord hS'
  have hle := h.value_le hord hS'
  obtain ⟨hattack, hdecay, hsustain, hrelease⟩ := h
  have hc : u.rem.toNat = c := hrem
  have hatk : u.atkStart.toNat = atk := by rw [hframe]
  have hdec : u.decStart.toNat = dec := by rw [hframe]
  have hsus : u.susStart.toNat = sus := by rw [hframe]
  have hrel : u.relStart.toNat = rel := by rw [hframe]
  have hlevel : u.sAct.toNat = s.envS.toNat := by rw [hframe]; rfl
  rw [henv]
  simp only [hc, hatk, hdec, hsus, hrel, hlevel] at hattack hdecay hsustain hrelease
  refine ⟨fun h1 => ?_, fun h1 h2 => ?_, hsustain, fun h1 => ?_, round8_8_le hle⟩
  · obtain ⟨hd, hv⟩ := hattack h1
    rw [hv, hd]
  · obtain ⟨hd, hv⟩ := hdecay h1 h2
    rw [← hd, hv]
  · obtain ⟨hd, hv⟩ := hrelease h1
    rw [← hd, hv]

/-- Settles O55: inside a segment the value after the tick differs from the one before it by one slope. -/
theorem envelopeIsMonotone : Obligations.EnvelopeIsMonotone := by
  intro s hinv hplaying hnote c t
  have hb := hinv.ordered hplaying hnote
  have ht := hinv.onTrack hplaying hnote
  have hS : s.sAct.toNat ≤ 64 := hinv.sustainRange.le
  have h := ht.afterTick hb hS
  have hrs := hb.sustainTick
  refine ⟨fun h1 h2 => round8_8_mono ?_, fun h1 h2 => round8_8_mono ?_, fun h1 h2 => ?_, fun h1 => round8_8_mono ?_,
    round8_8_le (h.value_le hb hS)⟩
  · obtain ⟨hd, hv⟩ := ht.attack h1 h2
    obtain ⟨hd', hv'⟩ := h.attack h1
    calc s.env.toNat = (s.atkStart.toNat - s.rem.toNat) * s.envNext.delta.toNat := by rw [hv, hd, hd']
      _ ≤ (s.atkStart.toNat - s.rem.toNat + 1) * s.envNext.delta.toNat := Nat.mul_le_mul_right _ (Nat.le_succ _)
      _ = t.env.toNat := hv'.symm
  · obtain ⟨hd, hv⟩ := ht.decay h1 h2
    obtain ⟨hd', hv'⟩ := h.decay h1 h2.le
    exact le_of_one_more_slope hv (hd ▸ hd' ▸ hv')
  · have hv : t.env.toNat = s.sAct.toNat * 256 := h.sustain h1 h2
    rw [round8_8_eq, hv]
    omega
  · obtain ⟨hd', hv'⟩ := h.release h1
    obtain (hfirst : s.rem.toNat = s.relStart.toNat) | hlater := h1.eq_or_lt
    · rw [hfirst, Nat.sub_self] at hv'
      exact le_of_one_more_slope (m := 0) (by simpa using ht.sustain hfirst.ge (by omega)) hv'
    · obtain ⟨hd, hv⟩ := ht.release hlater
      exact le_of_one_more_slope hv (hd ▸ hd' ▸ hv')

end

section
/-! Songs (spec/43_sequencer.md R222, R229, R230): what runs of ticks may write, the place of playback in a song, how
each tick moves it, and the statements about the end sentinel, whole songs and their loops. -/

namespace Sys2Proof.Machine

/-! ### What runs of ticks may write -/

/-- t differs from s at most in the registers a tick writes (R20) and in the trace. -/
def TickFrame (s t : State) : Prop :=
  t = { s with
    phase := t.phase, pdelta := t.pdelta, pwmNext := t.pwmNext, pwmLevel := t.pwmLevel, env := t.env
    envDelta := t.envDelta, atkStart := t.atkStart, decStart := t.decStart, susStart := t.susStart
    relStart := t.relStart, sAct := t.sAct, rem := t.rem, note := t.note, cursor := t.cursor
    loopStart := t.loopStart, playing := t.playing, ready := t.ready, pwmEn := t.pwmEn, rowdiv := t.rowdiv
    rphase := t.rphase, swapCnt := t.swapCnt, level := t.level, edge := t.edge, rowOut := t.rowOut
    colEn := t.colEn, swScan := t.swScan, trace := t.trace }

section
variable {s t u : State}

theorem TickFrame.refl (s : State) : TickFrame s s := rfl

theorem TickFrame.trans (h : TickFrame s t) (h' : TickFrame t u) : TickFrame s u := by
  unfold TickFrame at h h' ⊢
  rw [h', h]

theorem State.rowStep_tickFrame (s : State) (sw : Mask) : TickFrame s (s.rowStep sw) := by
  unfold TickFrame
  rw [State.rowStep_frame]

theorem loadNote_tickFrame (h : loadNote s = .next t) : TickFrame s t := by
  unfold TickFrame
  rw [loadNote_frame h]

theorem TickFrame.run (h : TickFrame s t) : t.run = s.run := by rw [h]
theorem TickFrame.loop (h : TickFrame s t) : t.loop = s.loop := by rw [h]
theorem TickFrame.cfg (h : TickFrame s t) : t.cfg = s.cfg := by rw [h]
theorem TickFrame.wsel (h : TickFrame s t) : t.wsel = s.wsel := by rw [h]
theorem TickFrame.songByte (h : TickFrame s t) (a : Word) : t.songByte a = s.songByte a := by rw [h]; rfl

/-- A duration loaded under the same control bytes leaves the same registers. -/
theorem DurationLoaded.unique {v : Word} (h : DurationLoaded s t v) (h' : DurationLoaded s u v) :
    t.rem = u.rem ∧ t.atkStart = u.atkStart ∧ t.decStart = u.decStart ∧ t.susStart = u.susStart
      ∧ t.relStart = u.relStart ∧ t.sAct = u.sAct := by
  obtain ⟨hrem, hatk, hdec, hsus, hrel, hact⟩ := h
  obtain ⟨hrem', hatk', hdec', hsus', hrel', hact'⟩ := h'
  simp only [hrem, hatk, hdec, hsus, hrel, hact, hrem', hatk', hdec', hsus', hrel', hact', and_self]

theorem TickFrame.durationLoaded (h : TickFrame s t) {v : Word} (hl : DurationLoaded t u v) : DurationLoaded s u v := by
  rw [h] at hl
  exact hl

end

/-! ### Runs of a given number of ticks -/

/-- Whatever the switches read, k ticks from s go on, and to a state with P. -/
def AfterTicks (k : ℕ) (s : State) (P : State → Prop) : Prop :=
  ∀ sws : List Mask, sws.length = k → ∃ t, ticks sws s = .next t ∧ P t

theorem AfterTicks.zero {s : State} {P : State → Prop} (h : P s) : AfterTicks 0 s P := by
  intro sws hlen
  rw [List.length_eq_zero_iff.mp hlen]
  exact ⟨s, rfl, h⟩

theorem AfterTicks.one {s : State} {P : State → Prop} (h : ∀ sw, ∃ t, tick sw s = .next t ∧ P t) :
    AfterTicks 1 s P := by
  intro sws hlen
  obtain ⟨sw, rfl⟩ := List.length_eq_one_iff.mp hlen
  obtain ⟨t, ht, hP⟩ := h sw
  exact ⟨t, andThen_eq_next.mpr ⟨t, ht, rfl⟩, hP⟩

theorem AfterTicks.add {j k : ℕ} {s : State} {P Q : State → Prop} (h : AfterTicks j s P)
    (h' : ∀ t, P t → AfterTicks k t Q) : AfterTicks (j + k) s Q := by
  intro sws hlen
  obtain ⟨t, ht, hP⟩ := h (sws.take j) (by simp [hlen])
  obtain ⟨u, hu, hQ⟩ := h' t hP (sws.drop j) (by simp [hlen])
  refine ⟨u, ?_, hQ⟩
  rw [← List.take_append_drop j sws, ticks_append, ht, andThen_next, hu]

theorem AfterTicks.imp {k : ℕ} {s : State} {P Q : State → Prop} (h : AfterTicks k s P) (hPQ : ∀ t, P t → Q t) :
    AfterTicks k s Q := fun sws hlen =>
  let ⟨t, ht, hP⟩ := h sws hlen
  ⟨t, ht, hPQ t hP⟩

/-! ### The records of a song -/

/-- The record at address a is the note or rest n of v ticks (R110, R220). -/
structure NoteAt (s : State) (a : Word) (n : Byte) (v : Word) : Prop where
  byte     : s.songByte a = n
  notEnd   : n ≠ s.cfg.noteEnd
  known    : n.toNat < 37 ∨ n = s.cfg.noteRest
  duration : durTicks? s.cfg (s.songByte (a + 1)) = some v

/-- The delta a note or rest leaves: its note table entry if it has one, else the delta before it (R223, R224). -/
def deltaAfter (c : Config) (n : Byte) (delta : Fixed) : Fixed := (noteDelta? c n).getD delta

theorem deltaAfter_of_lt {n : Byte} (h : n.toNat < 37) (c : Config) (delta : Fixed) :
    deltaAfter c n delta = c.noteTable[n.toNat] := by
  simp [deltaAfter, noteDelta?_of_lt h]

theorem deltaAfter_of_le {n : Byte} (h : 37 ≤ n.toNat) (c : Config) (delta : Fixed) :
    deltaAfter c n delta = delta := by
  simp [deltaAfter, noteDelta?_of_le h]

theorem TickFrame.noteAt {s t : State} (h : TickFrame s t) {a : Word} {n : Byte} {v : Word} (hn : NoteAt s a n v) :
    NoteAt t a n v := by
  obtain ⟨hbyte, hend, hknown, hdur⟩ := hn
  constructor
  · rwa [h.songByte]
  · rwa [h.cfg]
  · rwa [h.cfg]
  · rwa [h.cfg, h.songByte]

theorem NoteAt.ticks_pos {s : State} {a : Word} {n : Byte} {v : Word} (h : NoteAt s a n v) : 1 ≤ v.toNat :=
  Config.durTicks_pos s.cfg h.duration

/-- LOADNOTE at a note or rest (R220). -/
theorem NoteAt.loadNote {s : State} {n : Byte} {v : Word} (h : NoteAt s s.cursor n v) :
    Machine.loadNote s = .next (s.readRecord.loadedNote n v) := by
  obtain ⟨rfl, hend, hknown, hdur⟩ := h
  rw [loadNote_sounding hend hknown]
  exact State.loadDuration_eq_next.mpr ⟨v, hdur, rfl⟩

/-- The state after START_SONG at a note or rest n of v ticks (R225). -/
def State.startedSong (s : State) (seq : Word) (n : Byte) (v : Word) : State :=
  { ((s.beginSong seq).readRecord.loadedNote n v).initPhase with playing := true }

/-- START_SONG at a note or rest (R225). -/
theorem NoteAt.startSong {s : State} {seq : Word} {n : Byte} {v : Word} (h : NoteAt s seq n v) :
    Machine.startSong seq s = .next (s.startedSong seq n v) := by
  have hbegin : TickFrame s (s.beginSong seq) := rfl
  have hload : NoteAt (s.beginSong seq) seq n v := hbegin.noteAt h
  rw [startSong_of_next hload.loadNote, State.startPlayback_of_ne h.notEnd]
  rfl

/-! ### The place of playback in a song -/

/-- t plays the song of s that starts at address seq: record n is current with k ticks left and the delta given, and the
next record is the one at address a. -/
structure AtRecord (s : State) (seq a : Word) (n : Byte) (delta : Fixed) (k : ℕ) (t : State) : Prop where
  frame     : TickFrame s t
  playing   : t.playing = true
  loopStart : t.loopStart = seq
  cursor    : t.cursor = a
  note      : t.note = n
  pdelta    : t.pdelta = delta
  rem       : t.rem.toNat = k

/-- t is as the start at seq of the song of s, with first record n of v ticks, leaves it (R225). -/
structure SongStarted (s : State) (seq : Word) (n : Byte) (delta : Fixed) (v : Word) (t : State) : Prop
    extends AtRecord s seq (seq + 2) n delta v.toNat t where
  phase   : t.phase = 0x0000
  pwmNext : t.pwmNext = waveSample s.cfg s.wsel 0
  loaded  : DurationLoaded s t v

/-- The PWM is enabled exactly if record n is no rest (R163, R164). -/
def PwmFollows (c : Config) (n : Byte) (t : State) : Prop := t.pwmEn = true ↔ n ≠ c.noteRest

theorem Synthesised.pwmFollows {s t : State} (h : Synthesised s t) : PwmFollows s.cfg s.note t := by
  obtain ⟨hnote, hrest, -⟩ := h
  constructor
  · intro hon hn
    rw [(hrest hn).1] at hon
    cases hon
  · exact fun hn => (hnote hn).1

section
variable {s t : State} {seq a : Word} {n : Byte} {delta : Fixed} {k : ℕ}

theorem PwmFollows.of_loadNote {c : Config} {u : State} (h : PwmFollows c n t) (hload : loadNote t = .next u) :
    PwmFollows c n u := by
  rw [loadNote_frame hload]
  exact h

theorem PwmFollows.rowStep {c : Config} (h : PwmFollows c n t) (sw : Mask) : PwmFollows c n (t.rowStep sw) := by
  rw [State.rowStep_frame]
  exact h

theorem AtRecord.rowStep (h : AtRecord s seq a n delta k t) (sw : Mask) :
    AtRecord s seq a n delta k (t.rowStep sw) := by
  have hframe := h.frame.trans (t.rowStep_tickFrame sw)
  rw [State.rowStep_frame] at hframe ⊢
  exact { h with frame := hframe }

theorem SongStarted.rowStep {v : Word} (h : SongStarted s seq n delta v t) (sw : Mask) :
    SongStarted s seq n delta v (t.rowStep sw) := by
  have hat := h.toAtRecord.rowStep sw
  rw [State.rowStep_frame] at hat ⊢
  exact { hat with phase := h.phase, pwmNext := h.pwmNext, loaded := h.loaded }

/-! ### One tick -/

/-- The synthesis and the counter take one tick off the current record (R160 steps 2 to 6). -/
theorem AtRecord.soundTick (h : AtRecord s seq a n delta (k + 1) t) :
    AtRecord s seq a n delta k (t.outputLevel.synthesise.setRem (t.rem - 1)) := by
  obtain ⟨hframe, hplaying, hstart, hcursor, hnote, hdelta, hrem⟩ := h
  have hcount : (t.rem - 1).toNat = k := by
    rw [BitVec.toNat_sub_of_le (BitVec.le_def.mpr (by simp [hrem])), hrem]
    rfl
  rw [State.soundTick_eq]
  exact ⟨hframe.trans rfl, hplaying, hstart, hcursor, hnote, hdelta, hcount⟩

theorem AtRecord.soundTick_pwm (h : AtRecord s seq a n delta k t) :
    PwmFollows s.cfg n (t.outputLevel.synthesise.setRem (t.rem - 1)) := by
  have hpwm := Synthesised.pwmFollows (soundTick_synthesised t)
  rwa [h.frame.cfg, h.note] at hpwm

/-- After the synthesis the counter is at 0 exactly when no tick of the record is left. -/
theorem AtRecord.rem_sub_one_eq_zero_iff (h : AtRecord s seq a n delta (k + 1) t) : t.rem - 1 = 0 ↔ k = 0 := by
  have hcount : (t.rem - 1).toNat = k := h.soundTick.rem
  rw [← BitVec.toNat_inj, hcount]
  rfl

/-- A tick that is not the record's last. -/
theorem AtRecord.tick_inside (hrun : s.run = true) (hn : n ≠ s.cfg.noteEnd)
    (h : AtRecord s seq a n delta (k + 2) t) :
    AfterTicks 1 t fun u => AtRecord s seq a n delta (k + 1) u ∧ PwmFollows s.cfg n u := by
  refine .one fun sw => ⟨_, tick_of_audioStep (h.frame.run.trans hrun)
    (audioStep_insideNote h.playing ?_ ?_) sw, h.soundTick.rowStep sw, h.soundTick_pwm.rowStep sw⟩
  · rwa [h.note, h.frame.cfg]
  · exact mt h.rem_sub_one_eq_zero_iff.mp k.succ_ne_zero

/-- A record's last tick is the synthesis, and then LOADNOTE (R173). -/
theorem AtRecord.tick_last (hrun : s.run = true) (hn : n ≠ s.cfg.noteEnd) (h : AtRecord s seq a n delta 1 t) :
    ∃ u, AtRecord s seq a n delta 0 u ∧ PwmFollows s.cfg n u
      ∧ ∀ v, loadNote u = .next v → ∀ sw, tick sw t = .next (v.rowStep sw) := by
  refine ⟨_, h.soundTick, h.soundTick_pwm, fun v hload => tick_of_audioStep (h.frame.run.trans hrun) ?_⟩
  rw [audioStep_lastTick h.playing ?_ (h.rem_sub_one_eq_zero_iff.mpr rfl), hload]
  rwa [h.note, h.frame.cfg]

/-- When the end sentinel is loaded, the PWM is still as the last record had it. -/
theorem AtRecord.tick_toEnd (hrun : s.run = true) (hn : n ≠ s.cfg.noteEnd) (hend : s.songByte a = s.cfg.noteEnd)
    (h : AtRecord s seq a n delta 1 t) :
    AfterTicks 1 t fun u => AtRecord s seq (a + 2) s.cfg.noteEnd delta 0 u ∧ PwmFollows s.cfg n u := by
  obtain ⟨u, ⟨hframe, hplaying, hstart, hcursor, -, hdelta, hrem⟩, hpwm, htick⟩ := h.tick_last hrun hn
  have hload : loadNote u = .next (u.readRecord.acceptRecord u.cfg.noteEnd) :=
    loadNote_noteEnd (by rw [hcursor, hframe.songByte, hframe.cfg, hend])
  refine .one fun sw => ⟨_, htick _ hload sw, AtRecord.rowStep ?_ sw, (hpwm.of_loadNote hload).rowStep sw⟩
  exact ⟨hframe.trans (loadNote_tickFrame hload), hplaying, hstart, congrArg (· + 2) hcursor,
    congrArg (·.noteEnd) hframe.cfg, hdelta, hrem⟩

/-- The next note or rest is loaded in the last tick of the one before it. -/
theorem AtRecord.tick_toNote {n' : Byte} {v : Word} (hrun : s.run = true) (hn : n ≠ s.cfg.noteEnd)
    (hnext : NoteAt s a n' v) (h : AtRecord s seq a n delta 1 t) :
    AfterTicks 1 t (AtRecord s seq (a + 2) n' (deltaAfter s.cfg n' delta) v.toNat) := by
  obtain ⟨u, ⟨hframe, hplaying, hstart, hcursor, -, hdelta, -⟩, -, htick⟩ := h.tick_last hrun hn
  have hload : loadNote u = .next (u.readRecord.loadedNote n' v) :=
    (hframe.noteAt (hcursor ▸ hnext)).loadNote
  refine .one fun sw => ⟨_, htick _ hload sw, AtRecord.rowStep ?_ sw⟩
  refine ⟨hframe.trans (loadNote_tickFrame hload), hplaying, hstart, congrArg (· + 2) hcursor, rfl, ?_, rfl⟩
  rw [← hframe.cfg, ← hdelta]
  rfl

/-! ### All ticks of a record -/

/-- Ticks before the record's last only count it down. -/
theorem AtRecord.ticks_inside {j : ℕ} (hrun : s.run = true) (hn : n ≠ s.cfg.noteEnd)
    (h : AtRecord s seq a n delta (j + (k + 1)) t) : AfterTicks j t (AtRecord s seq a n delta (k + 1)) := by
  induction j generalizing k with
  | zero => exact .zero (by rwa [Nat.zero_add] at h)
  | succ j ih =>
    have hbefore : AfterTicks j t (AtRecord s seq a n delta (k + 2)) := ih (by convert h using 1; omega)
    refine hbefore.add fun u hu => ?_
    exact (hu.tick_inside hrun hn).imp fun _ ⟨hv, _⟩ => hv

/-- What the record's last tick does, all its ticks together do. -/
theorem AtRecord.ticks_last {P : State → Prop} (hrun : s.run = true) (hn : n ≠ s.cfg.noteEnd) (hk : 1 ≤ k)
    (hlast : ∀ u, AtRecord s seq a n delta 1 u → AfterTicks 1 u P) (h : AtRecord s seq a n delta k t) :
    AfterTicks k t P := by
  obtain ⟨k, rfl⟩ := Nat.exists_eq_add_of_le' hk
  exact (h.ticks_inside (k := 0) hrun hn).add hlast

/-! ### The start and the end of a song -/

theorem State.startedSong_songStarted (s : State) (seq : Word) (n : Byte) (v : Word) :
    SongStarted s seq n (deltaAfter s.cfg n s.pdelta) v (s.startedSong seq n v) := by
  rw [State.startedSong, State.beginSong_readRecord]
  exact ⟨⟨rfl, rfl, rfl, rfl, rfl, rfl, rfl⟩, rfl, rfl, State.loadedNote_durationLoaded _ n v⟩

/-- A start is judged by nothing that ticks write. -/
theorem SongStarted.of_tickFrame {u : State} {v : Word} (ht : TickFrame s t) (h : SongStarted t seq n delta v u) :
    SongStarted s seq n delta v u :=
  { h with
    frame := ht.trans h.frame
    pwmNext := by rw [h.pwmNext, ht.cfg, ht.wsel]
    loaded := ht.durationLoaded h.loaded }

/-- playSong in any state that ticks lead to from s (R226). -/
theorem NoteAt.playSong {v : Word} (h : NoteAt s seq n v) (hseq : seq ≠ 0) (ht : TickFrame s t) :
    ∃ u, exec (.playSong seq) t = .next u ∧ SongStarted s seq n (deltaAfter s.cfg n t.pdelta) v u := by
  have hstarted := t.startedSong_songStarted seq n v
  rw [ht.cfg] at hstarted
  exact ⟨_, (exec_playSong_of_ne hseq t).trans (ht.noteAt h).startSong, hstarted.of_tickFrame ht⟩

/-- With LOOP off the tick after the end sentinel is loaded stops playback (R162). -/
theorem AtRecord.tick_stop (hrun : s.run = true) (hloop : s.loop = false)
    (h : AtRecord s seq a s.cfg.noteEnd delta k t) :
    AfterTicks 1 t fun u => u.playing = false ∧ u.pwmEn = false := by
  refine .one fun sw => ⟨_, (endOfSongRestartsOrStops t sw (h.frame.run.trans hrun) h.playing ?_).2
    (.inl (h.frame.loop.trans hloop)), ?_⟩
  · rw [h.note, h.frame.cfg]
  · rw [State.rowStep_frame]
    exact ⟨rfl, rfl⟩

/-- With LOOP on it starts the song again (R162, R230). -/
theorem AtRecord.tick_restart {v : Word} (hrun : s.run = true) (hloop : s.loop = true) (hseq : seq ≠ 0)
    (hfirst : NoteAt s seq n v) (h : AtRecord s seq a s.cfg.noteEnd delta k t) :
    AfterTicks 1 t (SongStarted s seq n (deltaAfter s.cfg n delta) v) := by
  obtain ⟨u, hu, hstarted⟩ := hfirst.playSong hseq h.frame
  rw [h.pdelta] at hstarted
  refine .one fun sw => ⟨u.rowStep sw, ?_, hstarted.rowStep sw⟩
  have hnote : t.note = t.cfg.noteEnd := by rw [h.note, h.frame.cfg]
  have htick := (endOfSongRestartsOrStops t sw (h.frame.run.trans hrun) h.playing hnote).1
    (h.frame.loop.trans hloop) (by rwa [h.loopStart])
  rw [htick, h.loopStart, hu, andThen_next]

end

end Sys2Proof.Machine

open Sys2Proof Sys2Proof.Machine

/-- Settles O35: the sentinel's meaning is to accept the record. -/
theorem endSentinelOnlySetsNote : Obligations.EndSentinelOnlySetsNote := fun _ _ => rfl

/-- Settles O56: each tick but the last counts the record down, the last one loads the sentinel, and the next stops. -/
theorem singleNoteSongLastsItsDuration : Obligations.SingleNoteSongLastsItsDuration := by
  intro s seq n d hrun hloop hseq hne hn hend hd
  have hfirst : NoteAt s seq n s.cfg.durTable[d.toNat] := ⟨rfl, hne, hn, durTicks?_of_lt hd⟩
  obtain ⟨t₀, hplay, hstarted⟩ := hfirst.playSong hseq (.refl s)
  have hat := hstarted.toAtRecord
  have htoEnd := hat.ticks_last hrun hne hfirst.ticks_pos fun u hu => hu.tick_toEnd hrun hne hend
  refine ⟨t₀, hplay, hat.playing, fun sws => ⟨fun h1 hT => ?_, fun hT => ?_⟩⟩
  · obtain hlt | heq := hT.lt_or_eq
    · obtain ⟨j, hj⟩ := Nat.exists_eq_add_of_le' h1
      obtain ⟨k, hk⟩ := Nat.exists_eq_add_of_lt hlt
      have hinside : AfterTicks (j + 1) t₀ _ :=
        (AtRecord.ticks_inside (k := k + 1) hrun hne (by convert hat using 1; omega)).add fun u hu =>
          hu.tick_inside hrun hne
      obtain ⟨t, ht, hu, hpwm⟩ := hinside sws hj
      exact ⟨t, ht, hu.playing, hpwm, by rw [hu.note]; exact iff_of_false hne hlt.ne⟩
    · obtain ⟨t, ht, hu, hpwm⟩ := htoEnd sws heq
      exact ⟨t, ht, hu.playing, hpwm, iff_of_true hu.note heq⟩
  · exact htoEnd.add (fun u hu => hu.1.tick_stop hrun hloop) sws hT

/-- Settles O57: a pass is the ticks of the two records and the restart, and the state a start leaves depends on nothing
that a pass changes but the delta. -/
theorem loopedSongRepeatsWithoutDrift : Obligations.LoopedSongRepeatsWithoutDrift := by
  intro s seq n1 d1 n2 d2 hrun hloop hseq hne1 hn1 hne2 hn2 hend hd1 hd2
  have haddr (i : Word) : seq + 2 + i = seq + (2 + i) := BitVec.add_assoc seq 2 i
  have hfirst : NoteAt s seq n1 s.cfg.durTable[d1.toNat] := ⟨rfl, hne1, hn1, durTicks?_of_lt hd1⟩
  have hsecond : NoteAt s (seq + 2) n2 s.cfg.durTable[d2.toNat] :=
    ⟨rfl, hne2, hn2, by rw [haddr]; exact durTicks?_of_lt hd2⟩
  have hthird : s.songByte (seq + 2 + 2) = s.cfg.noteEnd := by rw [haddr]; exact hend
  obtain ⟨t₀, hplay, hstart⟩ := hfirst.playSong hseq (.refl s)
  have hnote1 := hstart.ticks_last hrun hne1 hfirst.ticks_pos fun u hu => hu.tick_toNote hrun hne1 hsecond
  have hnote2 := hnote1.add fun u hu =>
    hu.ticks_last hrun hne2 hsecond.ticks_pos fun v hv => hv.tick_toEnd hrun hne2 hthird
  have hpass := hnote2.add fun u hu => hu.1.tick_restart hrun hloop hseq hfirst
  refine ⟨t₀, hplay, fun sws hlen => ?_⟩
  obtain ⟨t, ht, hagain⟩ := hpass sws hlen
  obtain ⟨hrem, hatk, hdec, hsus, hrel, hact⟩ := DurationLoaded.unique hagain.loaded hstart.loaded
  refine ⟨t, ht, hagain.note.trans hstart.note.symm, hrem, hagain.cursor.trans hstart.cursor.symm,
    hagain.loopStart.trans hstart.loopStart.symm, hagain.playing.trans hstart.playing.symm,
    hagain.phase.trans hstart.phase.symm, hagain.pwmNext.trans hstart.pwmNext.symm, hatk, hdec, hsus, hrel, hact,
    fun h1 => ?_, fun h1 h2 => ?_, fun h1 h2 => ?_⟩
  · rw [hagain.pdelta, hstart.pdelta, deltaAfter_of_lt h1, deltaAfter_of_lt h1]
  · rw [hagain.pdelta, deltaAfter_of_le h1, deltaAfter_of_lt h2]
  · rw [hagain.pdelta, hstart.pdelta, deltaAfter_of_le h1, deltaAfter_of_le h2]

end

section
/-! MUX_STEP, port by port and column by column: its actions in order, the column drivers after it, and the button masks,
which it leaves to BUTTON_LATCH on phase 0 and alone on the others (R250 to R254). -/

namespace Sys2Proof.Machine

/-- The port actions of MUX_STEP, in order (R250, R254). -/
theorem State.muxStep_trace (s : State) (sw : Mask) (p : Fin 10) :
    (s.muxStep sw p).trace = s.trace ++ [.columnOff (p + 9)]
      ++ (if p.val = 0 then [.rowOut 0, .swScan true, .switchSample sw, .swScan false] else [])
      ++ [.rowOut (rowPattern (s.readRow p)), .columnOn p] := by
  by_cases hp : p = 0
  · subst hp
    simp [State.muxStep_zero]
  · simp [State.muxStep_of_ne_zero s sw hp, Fin.val_ne_zero_iff.mpr hp]

/-- The row port is left at the pattern of the phase's row (R252). -/
theorem State.muxStep_rowOut (s : State) (sw : Mask) (p : Fin 10) :
    (s.muxStep sw p).rowOut = rowPattern (s.readRow p) := by
  by_cases hp : p = 0
  · rw [hp, State.muxStep_zero]
  · rw [State.muxStep_of_ne_zero s sw hp]

/-- The phase's driver is on, the one before it off, and the others are as they were (R251). -/
theorem State.muxStep_colEn_getLsbD (s : State) (sw : Mask) (p q : Fin 10) :
    (s.muxStep sw p).colEn.getLsbD q.val =
      if q = p then true else if q = p + 9 then false else s.colEn.getLsbD q.val := by
  rw [State.muxStep_colEn, BitVec.getLsbD_or, BitVec.getLsbD_and, BitVec.getLsbD_not, columnBit_getLsbD,
    columnBit_getLsbD]
  by_cases hp : q = p
  · simp [hp]
  · by_cases hprev : q = p + 9 <;> simp [hp, hprev]

/-- On phase 0 the button masks and the switch lines are as BUTTON_LATCH leaves them (R254). -/
theorem State.muxStep_zero_latch (s : State) (sw : Mask) :
    (s.muxStep sw 0).level = (s.buttonLatch sw).level ∧ (s.muxStep sw 0).edge = (s.buttonLatch sw).edge
      ∧ (s.muxStep sw 0).swScan = (s.buttonLatch sw).swScan := by
  rw [State.muxStep_zero, State.buttonLatch_eq]
  exact ⟨rfl, rfl, rfl⟩

/-- On every other phase they are left alone (R254). -/
theorem State.muxStep_of_ne_zero_latch (s : State) (sw : Mask) {p : Fin 10} (hp : p ≠ 0) :
    (s.muxStep sw p).level = s.level ∧ (s.muxStep sw p).edge = s.edge ∧ (s.muxStep sw p).swScan = s.swScan := by
  rw [State.muxStep_of_ne_zero s sw hp]
  exact ⟨rfl, rfl, rfl⟩

end Sys2Proof.Machine

open Sys2Proof Sys2Proof.Machine

/-- Settles O46: the driver before p is p + 9 (R250), and each port after the step is given by a lemma of its own. -/
theorem muxStepPortOrder : Obligations.MuxStepPortOrder := by
  intro s sw p prev hprev
  obtain rfl : prev = p + 9 := Fin.ext hprev
  refine ⟨s.muxStep_trace sw p, s.muxStep_rowOut sw p, s.muxStep_colEn_getLsbD sw p, fun h0 => ?_, fun h0 => ?_,
    s.muxStep_frame sw p⟩
  · obtain rfl : p = 0 := Fin.ext h0
    exact s.muxStep_zero_latch sw
  · exact s.muxStep_of_ne_zero_latch sw (Fin.val_ne_zero_iff.mp h0)

end

section
/-! The button latch, mask by mask and bit by bit (spec/45_button_latch.md R270 to R280): which button handleButtons takes,
the masks in the reply and operand bytes, and the bits each operation sets and clears. -/

namespace Sys2Proof.Machine

/-! ### The operations' masks, bit by bit -/

theorem buttonBit_getLsbD (i j : Fin 4) : (buttonBit i).getLsbD j.val = decide (j = i) := by
  revert i j; decide

/-- Setting a button's flag sets that bit and keeps the others (R275). -/
theorem or_buttonBit_getLsbD (m : Mask) (i j : Fin 4) :
    (m ||| buttonBit i).getLsbD j.val = if j = i then true else m.getLsbD j.val := by
  rw [BitVec.getLsbD_or, buttonBit_getLsbD]
  by_cases h : j = i <;> simp [h]

/-- Clearing the bits of c clears those and keeps the others (R278, R279). -/
theorem and_not_getLsbD (m c : Mask) (j : Fin 4) :
    (m &&& ~~~c).getLsbD j.val = (m.getLsbD j.val && !c.getLsbD j.val) := by
  rw [BitVec.getLsbD_and, BitVec.getLsbD_not, decide_eq_true j.isLt, Bool.true_and]

/-- A rising edge is a button pressed now and not before (R272). -/
theorem risingEdges_getLsbD (previous now : Mask) (j : Fin 4) :
    (risingEdges previous now).getLsbD j.val = (!previous.getLsbD j.val && now.getLsbD j.val) := by
  rw [risingEdges, BitVec.and_comm, and_not_getLsbD, Bool.and_comm]

/-! ### The masks in their bytes (R103) -/

theorem masksReply_toNat (hi lo : Mask) : (masksReply hi lo).toNat = 16 * hi.toNat + lo.toNat := by
  rw [masksReply, BitVec.toNat_append, ← Nat.shiftLeft_add_eq_or_of_lt lo.isLt, Nat.shiftLeft_eq, Nat.mul_comm]

theorem maskOperand_toNat (b : Byte) : (maskOperand b).toNat = b.toNat % 16 := BitVec.toNat_setWidth 4 b

/-! ### The button handleButtons takes (R275) -/

/-- The priority A > B > C > D is the search of the buttons in the order of their numbers. -/
theorem freshButton_eq_find? (held level : Mask) :
    freshButton held level = Fin.find? fun i => !held.getLsbD i.val && level.getLsbD i.val := by
  simp only [Fin.find?_succ, Fin.find?_zero, apply_ite (Option.map Fin.succ)]
  rfl

/-- Button i is pressed and not held. -/
def IsFresh (held level : Mask) (i : Fin 4) : Prop := held.getLsbD i.val = false ∧ level.getLsbD i.val = true

theorem freshButton_eq_some_iff {held level : Mask} {i : Fin 4} :
    freshButton held level = some i ↔ IsFresh held level i ∧ ∀ j : Fin 4, j < i → ¬IsFresh held level j := by
  simp [freshButton_eq_find?, IsFresh]

theorem freshButton_eq_none_iff {held level : Mask} :
    freshButton held level = none ↔ ∀ i : Fin 4, ¬IsFresh held level i := by
  simp [freshButton_eq_find?, IsFresh]

theorem exec_handleButtons_of_fresh {s : State} {i : Fin 4} (h : freshButton s.held s.level = some i) :
    exec .handleButtons s = .next { s with held := s.held ||| buttonBit i, event := s.event ||| buttonBit i } := by
  simp [exec, execHandleButtons, h]

theorem exec_handleButtons_of_no_fresh {s : State} (h : freshButton s.held s.level = none) :
    exec .handleButtons s = .next { s with held := s.level } := by
  simp [exec, execHandleButtons, h]

end Sys2Proof.Machine

open Sys2Proof Sys2Proof.Machine

/-- Settles O40: the button that comes first is the one freshButton finds, and its bit is set in both masks. -/
theorem handleButtonsByPriority : Obligations.HandleButtonsByPriority := by
  intro s fresh
  refine ⟨fun i hi hfirst => ?_, fun hnone => ?_⟩
  · have htaken : freshButton s.held s.level = some i := freshButton_eq_some_iff.mpr ⟨hi, hfirst⟩
    exact ⟨_, exec_handleButtons_of_fresh htaken, rfl, fun j =>
      ⟨or_buttonBit_getLsbD s.held i j, or_buttonBit_getLsbD s.event i j⟩⟩
  · exact exec_handleButtons_of_no_fresh (freshButton_eq_none_iff.mpr hnone)

/-- Settles O41: the replies are masksReply's bytes, the operand is maskOperand's mask, and a bit stays unless chosen. -/
theorem buttonFlagAccess : Obligations.ButtonFlagAccess := by
  intro s
  refine ⟨?replies, fun b bs => ?operand, fun m => ⟨?events, ?edges⟩⟩
  case replies => exact ⟨_, _, rfl, masksReply_toNat s.event s.held, masksReply_toNat s.edge s.level⟩
  case operand => exact ⟨maskOperand b, maskOperand_toNat b, rfl, rfl⟩
  case events => exact ⟨_, rfl, rfl, and_not_getLsbD s.event m⟩
  case edges => exact ⟨_, rfl, rfl, and_not_getLsbD s.edge m⟩

/-- Settles O42: the latch in one piece, and its edge mask bit by bit. -/
theorem buttonLatchAddsRisingEdges : Obligations.ButtonLatchAddsRisingEdges := by
  intro s sw t
  refine ⟨s.buttonLatch_eq sw, fun j => ?_⟩
  have hedge : t.edge = s.edge ||| risingEdges s.level sw := congrArg State.edge (s.buttonLatch_eq sw)
  rw [hedge, BitVec.getLsbD_or, risingEdges_getLsbD]

end

section
/-! Whole drawing commands between ticks: the HOST agent's place among the row updates of a command, the pixels after
them, and the statements about clearDisplay, drawPoint and drawFilledRect (spec/46_host_commands.md R292 to R298). -/

namespace Sys2Proof.Machine

/-! ### The turns of a drawing command (R90 c) -/

/-- Where the HOST agent stands with the row updates ws still to come. -/
def drawingPlace : List RowWrite → HostPhase
  | [] => .ready
  | w :: ws => .drawing w ws

theorem drawingPlace_eq_ready_iff {ws : List RowWrite} : drawingPlace ws = .ready ↔ ws = [] := by
  cases ws <;> simp [drawingPlace]

theorem State.continueDrawing_eq (s : State) (w : RowWrite) (ws : List RowWrite) :
    s.continueDrawing w ws = { s.applyRowWrite w with host := drawingPlace ws } := by
  cases ws <;> rfl

@[simp] theorem State.applyRowWrites_nil (s : State) : s.applyRowWrites [] = s := rfl

@[simp] theorem State.applyRowWrites_cons (s : State) (w : RowWrite) (ws : List RowWrite) :
    s.applyRowWrites (w :: ws) = (s.applyRowWrite w).applyRowWrites ws := rfl

theorem State.applyRowWrites_append (s : State) (ws vs : List RowWrite) :
    s.applyRowWrites (ws ++ vs) = (s.applyRowWrites ws).applyRowWrites vs := List.foldl_append

theorem State.applyRowWrites_color (s : State) (ws : List RowWrite) : (s.applyRowWrites ws).color = s.color := by
  rw [State.applyRowWrites_frame]

/-- A row update neither reads nor writes the HOST agent's place. -/
theorem State.applyRowWrite_withHost (s : State) (p : HostPhase) (w : RowWrite) :
    { s with host := p }.applyRowWrite w = { s.applyRowWrite w with host := p } := by
  cases w <;> rfl

/-- As many turns as there are row updates in ws take exactly these, and the HOST agent stands before the others. -/
theorem hostTurns_drawing (ws later : List RowWrite) (s : State) :
    hostTurns ws.length { s with host := drawingPlace (ws ++ later) } =
      .next { s.applyRowWrites ws with host := drawingPlace later } := by
  induction ws generalizing s with
  | nil => rfl
  | cons w ws ih =>
    have turn : hostTurn { s with host := drawingPlace (w :: ws ++ later) } =
        .next { s.applyRowWrite w with host := drawingPlace (ws ++ later) } := by
      rw [hostTurn_drawing rfl, State.continueDrawing_eq, State.applyRowWrite_withHost]
      rfl
    rw [List.length_cons, hostTurns, turn, andThen_next, ih, State.applyRowWrites_cons]

/-- The first step of a drawing command takes its first row update, and the turns after it the next ones (R90 c). -/
theorem hostTurns_beginDrawing (s : State) (w : RowWrite) (ws later : List RowWrite) :
    hostTurns ws.length (s.beginDrawing (w :: ws ++ later)) =
      .next { s.applyRowWrites (w :: ws) with host := drawingPlace later } := by
  have begun : s.beginDrawing (w :: ws ++ later) = { s.applyRowWrite w with host := drawingPlace (ws ++ later) } :=
    State.continueDrawing_eq s w (ws ++ later)
  rw [begun, hostTurns_drawing, State.applyRowWrites_cons]

/-- A whole drawing command issued between two commands: all its row updates, and the HOST agent is between two commands
again. -/
theorem hostTurns_beginDrawing_all {s : State} (hhost : s.host = .ready) (ws : List RowWrite) :
    hostTurns (ws.length - 1) (s.beginDrawing ws) = .next (s.applyRowWrites ws) := by
  cases ws with
  | nil => rfl
  | cons w ws =>
    have turns := hostTurns_beginDrawing s w ws []
    rw [List.append_nil] at turns
    rw [List.length_cons, Nat.add_sub_cancel, turns, State.applyRowWrites_frame, drawingPlace, ← hhost]

/-! ### Cleared rows (R292) -/

theorem State.applyClears_readRow (rows : List (Fin 10)) (s : State) (i : Fin 10) :
    (s.applyRowWrites (rows.map .clear)).readRow i = if i ∈ rows then 0 else s.readRow i := by
  induction rows generalizing s with
  | nil => simp
  | cons row rows ih =>
    rw [List.map_cons, State.applyRowWrites_cons, ih, State.applyClear_readRow]
    by_cases hlater : i ∈ rows <;> by_cases hnow : i = row <;> simp [hlater, hnow]

/-- The rows in the order clearDisplay clears them: row 0, the next k, and the others. -/
theorem clearWrites_split (k : Nat) :
    clearWrites = .clear 0 :: ((List.finRange 10).tail.take k).map .clear
      ++ ((List.finRange 10).tail.drop k).map .clear := by
  rw [List.cons_append, ← List.map_append, List.take_append_drop]
  rfl

theorem mem_rowsCleared {k : Nat} (i : Fin 10) : i ∈ 0 :: (List.finRange 10).tail.take k ↔ i.val ≤ k := by
  have h : 0 :: (List.finRange 10).tail.take k = (List.finRange 10).take (k + 1) := rfl
  rw [h, List.mem_take_iff_getElem]
  constructor
  · rintro ⟨j, hj, rfl⟩
    simp only [List.length_finRange, lt_inf_iff, List.getElem_finRange, Fin.cast_mk] at hj ⊢
    omega
  · intro hi
    exact ⟨i.val, by simpa using Nat.lt_succ_of_le hi, by simp⟩

/-! ### Plotted points (R293) -/

/-- The two row updates of the grid's point in line p.1 and column p.2. -/
def plotsAt (p : Fin 5 × Fin 7) : List RowWrite := [.plot .green p.2 p.1, .plot .red p.2 p.1]

/-- drawPoint inside the grid begins with the green row's update (R293, R296). -/
theorem exec_drawPoint_coords (s : State) (x : Fin 7) (y : Fin 5) :
    exec (.drawPoint (BitVec.ofNat 8 x.val) (BitVec.ofNat 8 y.val)) s = .next (s.beginDrawing (plotsAt (y, x))) := by
  simp only [exec, execDrawPoint, sext8_column, sext8_line, pointWrites_coords, plotsAt]

/-- A clipped drawPoint changes nothing (R298). -/
theorem exec_drawPoint_clipped {x y : Coord} (h : ¬((0 ≤ x.toInt ∧ x.toInt ≤ 6) ∧ (0 ≤ y.toInt ∧ y.toInt ≤ 4)))
    (s : State) : exec (.drawPoint x y) s = .next s := by
  simp only [exec, execDrawPoint, sext8, pointWrites_clipped h, State.beginDrawing]

/-- The plotted row as R293 writes it, the colour bit shifted to the pixel's column. -/
theorem plotBit_eq (row : Byte) (x : Fin 7) (on : Bool) :
    plotBit row x on = (row &&& ~~~(1#8 <<< x.val)) ||| ((BitVec.ofBool on).setWidth 8 <<< x.val) := by
  cases on
  · simp [plotBit]
  · rfl

theorem colour_eq_bits (c : Colour) : c = BitVec.ofBool (c.getLsbD 1) ++ BitVec.ofBool (c.getLsbD 0) := by
  revert c; decide

/-- A plotted point has the current colour and every other pixel keeps its own (R293, R297). -/
theorem State.applyPlotsAt_pixel (s : State) (p : Fin 5 × Fin 7) (x : Fin 7) (y : Fin 5) :
    (s.applyRowWrites (plotsAt p)).pixel x y = if (y, x) = p then s.color else s.pixel x y := by
  obtain ⟨py, px⟩ := p
  have hcolor : (s.applyRowWrite (.plot .green px py)).color = s.color := rfl
  simp only [plotsAt, State.applyRowWrites_cons, State.applyRowWrites_nil, State.pixel, State.applyPlot_getLsbD, hcolor]
  by_cases h : (y, x) = (py, px)
  · obtain ⟨rfl, rfl⟩ := Prod.mk.inj h
    simpa [planeBit] using (colour_eq_bits s.color).symm
  · have hne : ¬(py = y ∧ x.val = px.val) := fun ⟨hy, hx⟩ => h (by rw [hy, Fin.ext hx])
    simp [h, hne]

/-- Points plotted one after the other all have the current colour, and every other pixel keeps its own. -/
theorem State.applyPlots_pixel (ps : List (Fin 5 × Fin 7)) (s : State) (x : Fin 7) (y : Fin 5) :
    (s.applyRowWrites (ps.flatMap plotsAt)).pixel x y = if (y, x) ∈ ps then s.color else s.pixel x y := by
  induction ps generalizing s with
  | nil => simp
  | cons p ps ih =>
    rw [List.flatMap_cons, State.applyRowWrites_append, ih, State.applyRowWrites_color, State.applyPlotsAt_pixel]
    by_cases hlater : (y, x) ∈ ps <;> by_cases hnow : (y, x) = p <;> simp [hlater, hnow]

/-- Plotting a point leaves the unused bit 7 of every row alone (R57). -/
theorem State.applyPlotsAt_readRow_bit7 (s : State) (p : Fin 5 × Fin 7) (i : Fin 10) :
    ((s.applyRowWrites (plotsAt p)).readRow i).getLsbD 7 = (s.readRow i).getLsbD 7 := by
  have hcolumn : 7 ≠ p.2.val := p.2.isLt.ne'
  simp only [plotsAt, State.applyRowWrites_cons, State.applyRowWrites_nil, State.applyPlot_readRow_getLsbD, hcolumn,
    and_false, if_false]

/-! ### The rectangle's points (R295) -/

/-- The coordinates 0..n-1 that lie between a and b, ascending. -/
def coordsWithin (n : Nat) (a b : Int) : List (Fin n) :=
  (List.finRange n).filter fun z => a ≤ (z.val : Int) ∧ (z.val : Int) ≤ b

/-- The row updates of drawFilledRect are those of the grid's points inside the rectangle, line by line. -/
theorem rectWrites_eq_plots (x1 y1 x2 y2 : Int) :
    rectWrites x1 y1 x2 y2 = (coordsWithin 5 y1 y2 ×ˢ coordsWithin 7 x1 x2).flatMap plotsAt := by
  have hpoint (y : Fin 5) (x : Fin 7) : pointWrites x.val y.val = plotsAt (y, x) := pointWrites_coords x y
  simp only [rectWrites, range_toInts]
  simp only [← List.map_coe_finRange_eq_range, List.flatMap_map, hpoint]
  simp only [flatMap_ite_nil, coordsWithin, SProd.sprod, List.product, List.flatMap_assoc, List.flatMap_map]

theorem length_plots (ps : List (Fin 5 × Fin 7)) : (ps.flatMap plotsAt).length = 2 * ps.length := by
  simp [List.length_flatMap, plotsAt, Nat.mul_comm]

end Sys2Proof.Machine

open Sys2Proof Sys2Proof.Machine

/-- Settles O24: the first step and k turns clear row 0 and the k rows after it, and leave the others to come. -/
theorem clearDisplayRowByRow : Obligations.ClearDisplayRowByRow := by
  intro s k hk
  have turns := hostTurns_beginDrawing s (.clear 0) (((List.finRange 10).tail.take k).map .clear)
    (((List.finRange 10).tail.drop k).map .clear)
  rw [← clearWrites_split, List.length_map, List.length_take_of_le (by simpa using hk)] at turns
  refine ⟨_, _, rfl, turns, ?frame, fun i => ?row, ?last⟩
  case frame => rw [State.applyRowWrites_frame]
  case row =>
    have cleared := State.applyClears_readRow (0 :: (List.finRange 10).tail.take k) s i
    simp only [mem_rowsCleared] at cleared
    exact cleared
  case last =>
    rw [drawingPlace_eq_ready_iff, List.map_eq_nil_iff, List.drop_eq_nil_iff]
    simp only [List.length_tail, List.length_finRange]
    omega

/-- Settles O25: both row updates are plotBit's, and the second is one HOST turn from any state. -/
theorem drawPointWritesGreenThenRed : Obligations.DrawPointWritesGreenThenRed := by
  intro s
  refine ⟨fun x y => ?_, fun x y hclip => exec_drawPoint_clipped hclip s⟩
  simp only [← plotBit_eq]
  have red (u : State) (hu : u.host = .drawing (.plot .red x y) []) : hostTurn u = .next { u with
      fb := u.fb.set (5 + y.val) (plotBit u.fb[5 + y.val] x (u.color.getLsbD 0)), host := .ready } :=
    hostTurn_drawing hu
  exact ⟨_, _, exec_drawPoint_coords s x y, red _ rfl, rfl, rfl, red⟩

/-- Settles O26: the two steps are the two row updates of one plotted point. -/
theorem drawnPixelTakesColour : Obligations.DrawnPixelTakesColour := by
  intro s x y
  refine ⟨_, _, exec_drawPoint_coords s x y, hostTurn_drawing rfl, fun x' y' => ?_, s.applyPlotsAt_readRow_bit7 (y, x)⟩
  have hpixel := s.applyPlotsAt_pixel (y, x) x' y'
  simp only [Prod.mk.injEq, and_comm (a := y' = y)] at hpixel
  exact hpixel

/-- Settles O29: the row updates are those of the rectangle's points, two for each. -/
theorem rectangleColoursExactlyItsPixels : Obligations.RectangleColoursExactlyItsPixels := by
  intro s x1 y1 x2 y2 hhost xs ys
  have hwrites : rectWrites x1.toInt y1.toInt x2.toInt y2.toInt = (ys ×ˢ xs).flatMap plotsAt := rectWrites_eq_plots ..
  have hlength : 2 * xs.length * ys.length = ((ys ×ˢ xs).flatMap plotsAt).length := by
    rw [length_plots, List.length_product, Nat.mul_assoc, Nat.mul_comm xs.length]
  refine ⟨_, s.applyRowWrites ((ys ×ˢ xs).flatMap plotsAt), exec_drawFilledRect s x1 y1 x2 y2, ?turns,
    State.applyRowWrites_frame _ s, fun x y => ?pixels⟩
  case turns =>
    rw [← rectWrites_eq_loopWrites, hwrites, hlength]
    exact hostTurns_beginDrawing_all hhost _
  case pixels =>
    rw [State.applyPlots_pixel]
    simp only [List.mem_product, and_comm]

end

section
/-! The commands of one step and the two that wait (spec/46_host_commands.md R290, R291, R294, R303 to R305, R310, R311,
R320, R321; spec/43_sequencer.md R227): what each does, case by case, and the statements about them. -/

namespace Sys2Proof.Machine

/-! ### Blocking commands (R94, R305, R321) -/

/-- A turn inside swapBuffers tries it again. -/
theorem hostTurn_inSwapBuffers {s : State} (h : s.host = .inSwapBuffers) :
    hostTurn s = exec .swapBuffers { s with host := .ready } := by
  simp only [hostTurn, h]

/-- A turn inside waitAudio tries it again. -/
theorem hostTurn_inWaitAudio {s : State} (h : s.host = .inWaitAudio) :
    hostTurn s = exec .waitAudio { s with host := .ready } := by
  simp only [hostTurn, h]

theorem exec_swapBuffers_of_ready {s : State} (h : s.ready = true) :
    exec .swapBuffers s = .next { s with ready := false } := if_pos h

theorem exec_swapBuffers_of_not_ready {s : State} (h : s.ready = false) :
    exec .swapBuffers s = .next { s with host := .inSwapBuffers } := if_neg (Bool.eq_false_iff.mp h)

theorem exec_waitAudio_of_idle {s : State} (h : s.playing = false) : exec .waitAudio s = .next s :=
  if_neg (Bool.eq_false_iff.mp h)

theorem exec_waitAudio_of_playing {s : State} (h : s.playing = true) :
    exec .waitAudio s = .next { s with host := .inWaitAudio } := if_pos h

/-! ### Operand and reply bytes (R103) -/

theorem colourOperand_toNat (b : Byte) : (colourOperand b).toNat = b.toNat % 4 := BitVec.toNat_setWidth 2 b

theorem colourReply_toNat (c : Colour) : (colourReply c).toNat = c.toNat := BitVec.toNat_setWidth_of_le (by decide)

theorem flagOperand_eq_true_iff {b : Byte} : flagOperand b = true ↔ b ≠ 0 := decide_eq_true_iff

/-! ### readPixel (R294) -/

theorem exec_readPixel_coords (s : State) (x : Fin 7) (y : Fin 5) :
    exec (.readPixel (BitVec.ofNat 8 x.val) (BitVec.ofNat 8 y.val)) s =
      .next { s with replies := s.replies ++ [colourReply (s.pixel x y)] } := by
  simp only [exec, execReadPixel, sext8_column, sext8_line, gridPoint_coords, State.reply]

theorem exec_readPixel_clipped {x y : Coord} (h : ¬((0 ≤ x.toInt ∧ x.toInt ≤ 6) ∧ (0 ≤ y.toInt ∧ y.toInt ≤ 4)))
    (s : State) : exec (.readPixel x y) s =
      .next { s with replies := s.replies ++ [colourReply (Config.freePixel s.draws)], draws := s.draws + 1 } := by
  simp only [exec, execReadPixel, sext8, gridPoint_eq_none h, State.reply, State.drawn, State.drawColour]

/-- A colour as a number: the green bit is worth 2 and the red bit 1 (R297). -/
theorem colourOfBits_toNat (green red : Bool) :
    (BitVec.ofBool green ++ BitVec.ofBool red).toNat = 2 * green.toNat + red.toNat := by
  revert green red; decide

theorem State.pixel_toNat (s : State) (x : Fin 7) (y : Fin 5) :
    (s.pixel x y).toNat = 2 * (s.fb[y.val].getLsbD x.val).toNat + (s.fb[5 + y.val].getLsbD x.val).toNat :=
  colourOfBits_toNat _ _

/-! ### setSwapInterval, setWaveTable, isAudioPlaying -/

theorem exec_setSwapInterval_of_ne {n : Byte} (h : n ≠ 0) (s : State) :
    exec (.setSwapInterval n) s = .next { s with swapInterval := n } := if_neg h

theorem exec_setSwapInterval_zero (s : State) :
    exec (.setSwapInterval 0) s = .refused .swapIntervalZero := rfl

theorem exec_setWaveTable_of_eq {id : Byte} {w : Fin 3} (h : id.toNat = w.val) (s : State) :
    exec (.setWaveTable id) s = .next { s with wsel := w } := by
  have hlt : id.toNat < 3 := h ▸ w.isLt
  have hw : (⟨id.toNat, hlt⟩ : Fin 3) = w := Fin.ext h
  rw [exec, execSetWaveTable, dif_pos hlt, hw]

theorem exec_setWaveTable_of_le {id : Byte} (h : 3 ≤ id.toNat) (s : State) : exec (.setWaveTable id) s = .next s :=
  dif_neg h.not_gt

theorem exec_isAudioPlaying (s : State) :
    exec .isAudioPlaying s = .next { s with replies := s.replies ++ [boolReply s.playing] } := rfl

end Sys2Proof.Machine

open Sys2Proof Sys2Proof.Machine

/-- Settles O11: a turn inside the command tries it again, and puts the HOST agent back where it was while READY = 0. -/
theorem swapBuffersWaitsForReady : Obligations.SwapBuffersWaitsForReady := by
  intro s
  refine ⟨exec_swapBuffers_of_ready, exec_swapBuffers_of_not_ready, fun hhost hready => ?_, fun hhost hready => ?_⟩
  · have waits : hostTurn s = .next { s with host := .inSwapBuffers } :=
      (hostTurn_inSwapBuffers hhost).trans (exec_swapBuffers_of_not_ready hready)
    rw [waits, ← hhost]
  · exact (hostTurn_inSwapBuffers hhost).trans (exec_swapBuffers_of_ready hready)

/-- Settles O12: a turn inside the command tries it again, and puts the HOST agent back where it was while
PLAYING = 1. -/
theorem waitAudioWaitsForIdle : Obligations.WaitAudioWaitsForIdle := by
  intro s
  refine ⟨exec_waitAudio_of_idle, exec_waitAudio_of_playing, fun hhost hplaying => ?_, fun hhost hplaying => ?_⟩
  · have waits : hostTurn s = .next { s with host := .inWaitAudio } :=
      (hostTurn_inWaitAudio hhost).trans (exec_waitAudio_of_playing hplaying)
    rw [waits, ← hhost]
  · exact (hostTurn_inWaitAudio hhost).trans (exec_waitAudio_of_idle hplaying)

/-- Settles O23: the operand is colourOperand's colour and the reply colourReply's byte. -/
theorem colourCommandsWriteAndRead : Obligations.ColourCommandsWriteAndRead := by
  intro s b bs
  exact ⟨⟨colourOperand b, rfl, colourOperand_toNat b, rfl⟩, colourReply s.color, colourReply_toNat s.color, rfl⟩

/-- Settles O27: the reply is colourReply's byte, of the pixel or of the next free colour. -/
theorem readPixelReplies : Obligations.ReadPixelReplies := by
  intro s
  refine ⟨fun x y => ⟨_, exec_readPixel_coords s x y, ?_⟩, fun x y hclip =>
    ⟨_, ?_, colourReply_toNat _, exec_readPixel_clipped hclip s⟩⟩
  · rw [colourReply_toNat, State.pixel_toNat]
  · rw [colourReply_toNat]
    exact Nat.le_of_lt_succ (Config.freePixel s.draws).isLt

/-- Settles O30. -/
theorem swapIntervalCommands : Obligations.SwapIntervalCommands := by
  intro s
  exact ⟨rfl, fun n hn => exec_setSwapInterval_of_ne hn s, exec_setSwapInterval_zero s⟩

/-- Settles O31: the audio defaults are these assignments. -/
theorem initAudioSetsDefaults : Obligations.InitAudioSetsDefaults := fun _ => rfl

/-- Settles O32: the identifiers below 3 are the three tables. -/
theorem setWaveTableSelectsOrIgnores : Obligations.SetWaveTableSelectsOrIgnores := by
  intro s id
  exact ⟨fun w hw => exec_setWaveTable_of_eq hw s, fun hid => exec_setWaveTable_of_le hid s⟩

/-- Settles O34: the operand is flagOperand's bit and the reply boolReply's byte. -/
theorem loopFlagAndPlayingStatus : Obligations.LoopFlagAndPlayingStatus := by
  intro s
  refine ⟨fun b bs => ⟨flagOperand b, flagOperand_eq_true_iff, rfl, rfl⟩, fun hplaying => ?_, fun hplaying => ?_⟩ <;>
    rw [exec_isAudioPlaying, hplaying] <;> rfl

end

section
/-! The block raises no exception (spec/60_exceptions.md R340 to R342): every operation that answers with an outcome goes
on or is refused by a rule of the spec, from the records up to the step, and the statement about it. -/

namespace Sys2Proof.Machine

/-- The refusals that a rule of the spec names (R112, R113, R206): all but an arm of `exec` with no meaning. -/
def RefusedByRule (e : Refusal) : Prop :=
  (∃ n, e = .reservedNote n) ∨ (∃ d, e = .reservedDuration d) ∨ (∃ op, e = .reservedOpcode op)
    ∨ e = .swapIntervalZero ∨ ∃ v, e = .envelopeSustainOutOfRange v

/-- The outcome of an operation that raises no exception (R340, R342). -/
def GoesOnOrRefused (r : Result) : Prop := (∃ t, r = .next t) ∨ ∃ e, r = .refused e ∧ RefusedByRule e

/-! ### Outcomes and their composition -/

theorem goesOnOrRefused_next (t : State) : GoesOnOrRefused (.next t) := .inl ⟨t, rfl⟩

theorem goesOnOrRefused_reservedNote (n : Byte) : GoesOnOrRefused (.refused (.reservedNote n)) :=
  .inr ⟨_, rfl, .inl ⟨n, rfl⟩⟩

theorem goesOnOrRefused_reservedDuration (d : Byte) : GoesOnOrRefused (.refused (.reservedDuration d)) :=
  .inr ⟨_, rfl, .inr (.inl ⟨d, rfl⟩)⟩

theorem goesOnOrRefused_reservedOpcode (op : Byte) : GoesOnOrRefused (.refused (.reservedOpcode op)) :=
  .inr ⟨_, rfl, .inr (.inr (.inl ⟨op, rfl⟩))⟩

theorem goesOnOrRefused_swapIntervalZero : GoesOnOrRefused (.refused .swapIntervalZero) :=
  .inr ⟨_, rfl, .inr (.inr (.inr (.inl rfl)))⟩

theorem goesOnOrRefused_envelopeSustain (v : Byte) : GoesOnOrRefused (.refused (.envelopeSustainOutOfRange v)) :=
  .inr ⟨_, rfl, .inr (.inr (.inr (.inr ⟨v, rfl⟩)))⟩

theorem GoesOnOrRefused.ite {c : Prop} [Decidable c] {r r' : Result} (h : GoesOnOrRefused r)
    (h' : GoesOnOrRefused r') : GoesOnOrRefused (if c then r else r') := by
  split
  · exact h
  · exact h'

theorem GoesOnOrRefused.andThen {r : Result} {k : State → Result} (h : GoesOnOrRefused r)
    (hk : ∀ t, GoesOnOrRefused (k t)) : GoesOnOrRefused (andThen r k) := by
  obtain ⟨t, rfl⟩ | ⟨e, rfl, he⟩ := h
  · exact hk t
  · exact .inr ⟨e, rfl, he⟩

/-! ### Records and songs (R112, R220, R225) -/

theorem State.loadDuration_goesOnOrRefused (s : State) (d : Byte) : GoesOnOrRefused (s.loadDuration d) := by
  obtain hd | hd := Nat.lt_or_ge d.toNat 48
  · rw [State.loadDuration_of_lt hd]
    exact goesOnOrRefused_next _
  · rw [State.loadDuration_of_le hd]
    exact goesOnOrRefused_reservedDuration d

theorem execNote_goesOnOrRefused (n d : Byte) (s : State) : GoesOnOrRefused (execNote n d s) := by
  obtain hn | hn := Nat.lt_or_ge n.toNat 37
  · rw [execNote_of_lt hn]
    exact State.loadDuration_goesOnOrRefused _ d
  · rw [execNote_of_le hn]
    exact goesOnOrRefused_reservedNote n

theorem execRest_goesOnOrRefused (d : Byte) (s : State) : GoesOnOrRefused (execRest d s) := by
  rw [execRest_eq]
  exact State.loadDuration_goesOnOrRefused _ d

theorem loadNote_goesOnOrRefused (s : State) : GoesOnOrRefused (loadNote s) := by
  simp only [loadNote, State.readSong_cfg]
  cases classifyNote s.cfg (s.songByte s.cursor) with
  | endOfSong => exact goesOnOrRefused_next _
  | rest => exact execRest_goesOnOrRefused _ _
  | pitched => exact execNote_goesOnOrRefused _ _ _
  | reserved => exact goesOnOrRefused_reservedNote _

theorem startSong_goesOnOrRefused (seq : Word) (s : State) : GoesOnOrRefused (startSong seq s) :=
  (loadNote_goesOnOrRefused _).andThen fun _ => goesOnOrRefused_next _

/-! ### TICK (R140, R160) -/

theorem endOfSong_goesOnOrRefused (s : State) : GoesOnOrRefused (endOfSong s) :=
  .ite (startSong_goesOnOrRefused _ s) (goesOnOrRefused_next _)

theorem countDown_goesOnOrRefused (s : State) : GoesOnOrRefused (countDown s) :=
  .ite (loadNote_goesOnOrRefused _) (goesOnOrRefused_next _)

theorem audioStep_goesOnOrRefused (s : State) : GoesOnOrRefused (audioStep s) :=
  .ite (goesOnOrRefused_next s) (.ite (endOfSong_goesOnOrRefused s) (countDown_goesOnOrRefused _))

theorem tick_goesOnOrRefused (sw : Mask) (s : State) : GoesOnOrRefused (tick sw s) :=
  .ite (goesOnOrRefused_next s) ((audioStep_goesOnOrRefused s).andThen fun _ => goesOnOrRefused_next _)

/-! ### Instructions, the HOST agent, the step (R90, R113, R206, R341) -/

/-- An instruction goes on or is refused by a rule, so every arm of `exec` has a meaning. -/
theorem exec_goesOnOrRefused (i : Instr) (s : State) : GoesOnOrRefused (exec i s) := by
  cases i with
  | init | initSwapBuffers | setColor | getColor | clearDisplay | drawPoint | drawFilledRect | initAudio | loopSong
  | isAudioPlaying | readButtons | clearEvents | clearEdges | endMark => exact goesOnOrRefused_next _
  | swapBuffers | waitAudio => exact .ite (goesOnOrRefused_next _) (goesOnOrRefused_next _)
  | setSwapInterval n => exact .ite goesOnOrRefused_swapIntervalZero (goesOnOrRefused_next _)
  | setEnvelope a d sus r =>
    exact .ite (goesOnOrRefused_next s) (.ite (goesOnOrRefused_envelopeSustain sus) (goesOnOrRefused_next _))
  | setWaveTable id =>
    simp only [exec, execSetWaveTable]
    split <;> exact goesOnOrRefused_next _
  | readPixel x y =>
    simp only [exec, execReadPixel]
    split <;> exact goesOnOrRefused_next _
  | handleButtons =>
    simp only [exec, execHandleButtons]
    split <;> exact goesOnOrRefused_next _
  | playSong seq => exact .ite (goesOnOrRefused_next s) (startSong_goesOnOrRefused seq s)
  | rest d => exact execRest_goesOnOrRefused d s
  | note n d => exact execNote_goesOnOrRefused n d s

theorem hostTurn_goesOnOrRefused (s : State) : GoesOnOrRefused (hostTurn s) := by
  cases hhost : s.host with
  | drawing w ws =>
    rw [hostTurn_drawing hhost]
    exact goesOnOrRefused_next _
  | inSwapBuffers =>
    rw [hostTurn_inSwapBuffers hhost]
    exact exec_goesOnOrRefused _ _
  | inWaitAudio =>
    rw [hostTurn_inWaitAudio hhost]
    exact exec_goesOnOrRefused _ _
  | ready =>
    cases hd : decodeCommand s.hostIn with
    | incomplete =>
      rw [hostTurn_incomplete hhost hd]
      exact goesOnOrRefused_next s
    | reserved op =>
      rw [hostTurn_reserved hhost hd]
      exact goesOnOrRefused_reservedOpcode op
    | command i bs =>
      rw [hostTurn_command hhost hd]
      exact exec_goesOnOrRefused i _

theorem accept_goesOnOrRefused (i : Input) (s : State) : GoesOnOrRefused (accept i s) := by
  cases i with
  | tick sw => exact tick_goesOnOrRefused sw s
  | hostTurn => exact hostTurn_goesOnOrRefused s
  | hostByte | songWrite | reset => exact goesOnOrRefused_next _

theorem step_goesOnOrRefused (s : State) : GoesOnOrRefused (step s) := by
  cases hin : s.inputs with
  | nil =>
    rw [step_of_inputs_nil hin]
    exact goesOnOrRefused_next s
  | cons i is =>
    rw [step_of_inputs_cons hin]
    exact accept_goesOnOrRefused i _

end Sys2Proof.Machine

open Sys2Proof Sys2Proof.Machine

/-- Settles O19: each input's operation goes on, or is refused by a reserved record, a reserved opcode or the operand
checks of setSwapInterval and setEnvelope. -/
theorem stepsGoOnOrAreRefused : Obligations.StepsGoOnOrAreRefused := step_goesOnOrRefused

end

section
/-! The statements about the reset event and `init` (spec/70_reset_and_hazards.md R370, R372). -/

namespace Sys2Proof.Machine

/-- Every field that init() writes, but RUN and the trace, holds after reset what init() gives it (R68, R372). -/
theorem exec_init_resetWith (c : Config) : exec .init (State.resetWith c) = .next { State.resetWith c with
    run := true, trace := [.rowOut 0x00, .columnsOff, .swScan false, .pwmEnable false] } :=
  exec_init (State.resetWith c)

end Sys2Proof.Machine

open Sys2Proof Sys2Proof.Machine

/-- Settles O21: the step takes the reset event, and its hardReset is the reset state with what lies outside the block
kept. -/
theorem resetEventRestoresRegisters : Obligations.ResetEventRestoresRegisters := by
  intro s is
  exact step_cons s .reset is

/-- Settles O22: init() from every state, and from reset, where only RUN and the trace change. -/
theorem initSetsEveryDefault : Obligations.InitSetsEveryDefault := ⟨exec_init, exec_init_resetWith⟩

end
